-- ==== Sys2Proof/Word.lean ====
section
/-! DEFINITION. The word types of the machine (spec/00_scope.md R6, R8; spec/30_encoding.md R73). -/

namespace Sys2Proof

/-- A word: a register, a memory word or an immediate, XLEN = 32 bits in two's complement (R8). -/
abbrev Word := BitVec 32

/-- One byte of a memory word's representation (`Host.Cell`). -/
abbrev Byte := BitVec 8

/-- A register index field of the packed word: 6 bits, read as unsigned (R75). -/
abbrev RegIdx := BitVec 6

/-- A packed instruction record (R73). -/
abbrev PackedWord := BitVec 64

end Sys2Proof
end

