-- ==== Sys2Proof/Syntax.lean ====
section
/-! DEFINITION. The instruction record and the 19 opcodes (spec/30_encoding.md R70 to R72). -/

namespace Sys2Proof

/-- The opcode tags of R71, in the order the spec numbers them. -/
inductive Opcode where
  | add | sub | mul | div | and | or | xor | addl | subl | movc
  | load | store | ldr | str | cmp | bz | bnz | halt | nop
deriving DecidableEq, Repr

/-- The fields every record has beside its opcode (R70: "Every record has all six fields"). An opcode
reads only those its format lists; the others travel with the record and are read by no stage (R76). -/
structure Fields where
  rd : RegIdx
  rs1 : RegIdx
  rs2 : RegIdx
  rs3 : RegIdx
  imm : Word
deriving DecidableEq, Repr

/-- An instruction record: one constructor per row of spec/opcode_table.json, over the record's fields. -/
inductive Instr where
  | add (f : Fields)
  | sub (f : Fields)
  | mul (f : Fields)
  | div (f : Fields)
  | and (f : Fields)
  | or (f : Fields)
  | xor (f : Fields)
  | addl (f : Fields)
  | subl (f : Fields)
  | movc (f : Fields)
  | load (f : Fields)
  | store (f : Fields)
  | ldr (f : Fields)
  | str (f : Fields)
  | cmp (f : Fields)
  | bz (f : Fields)
  | bnz (f : Fields)
  | halt (f : Fields)
  | nop (f : Fields)
deriving DecidableEq, Repr

/-- The opcode of a record. -/
def Instr.opcode : Instr → Opcode
  | .add _ => .add
  | .sub _ => .sub
  | .mul _ => .mul
  | .div _ => .div
  | .and _ => .and
  | .or _ => .or
  | .xor _ => .xor
  | .addl _ => .addl
  | .subl _ => .subl
  | .movc _ => .movc
  | .load _ => .load
  | .store _ => .store
  | .ldr _ => .ldr
  | .str _ => .str
  | .cmp _ => .cmp
  | .bz _ => .bz
  | .bnz _ => .bnz
  | .halt _ => .halt
  | .nop _ => .nop

/-- The other five fields of a record. -/
def Instr.fields : Instr → Fields
  | .add f => f
  | .sub f => f
  | .mul f => f
  | .div f => f
  | .and f => f
  | .or f => f
  | .xor f => f
  | .addl f => f
  | .subl f => f
  | .movc f => f
  | .load f => f
  | .store f => f
  | .ldr f => f
  | .str f => f
  | .cmp f => f
  | .bz f => f
  | .bnz f => f
  | .halt f => f
  | .nop f => f

/-- The record with a given opcode and given fields. -/
def Instr.make : Opcode → Fields → Instr
  | .add, f => .add f
  | .sub, f => .sub f
  | .mul, f => .mul f
  | .div, f => .div f
  | .and, f => .and f
  | .or, f => .or f
  | .xor, f => .xor f
  | .addl, f => .addl f
  | .subl, f => .subl f
  | .movc, f => .movc f
  | .load, f => .load f
  | .store, f => .store f
  | .ldr, f => .ldr f
  | .str, f => .str f
  | .cmp, f => .cmp f
  | .bz, f => .bz f
  | .bnz, f => .bnz f
  | .halt, f => .halt f
  | .nop, f => .nop f

/-- The formats of R72: which fields an opcode uses, and in what role. -/
inductive Format where
  | r3  -- rd, rs1, rs2
  | ri  -- rd, rs1, imm
  | di  -- rd, imm
  | li  -- rd, rs1 = base, imm = offset
  | lr  -- rd, rs1 = base, rs2 = index
  | si  -- rs1 = value, rs2 = base, imm = offset
  | sr  -- rs1 = value, rs2 = base, rs3 = index
  | cr  -- rs1, rs2
  | bi  -- imm
  | z   -- nothing
deriving DecidableEq, Repr

/-- The format column of R72. -/
def Opcode.format : Opcode → Format
  | .add => .r3
  | .sub => .r3
  | .mul => .r3
  | .div => .r3
  | .and => .r3
  | .or => .r3
  | .xor => .r3
  | .addl => .ri
  | .subl => .ri
  | .movc => .di
  | .load => .li
  | .store => .si
  | .ldr => .lr
  | .str => .sr
  | .cmp => .cr
  | .bz => .bi
  | .bnz => .bi
  | .halt => .z
  | .nop => .z

/-- The formats with a destination `rd` (R72); they are the result-producing ones. -/
def Format.usesRd : Format → Bool
  | .r3 => true
  | .ri => true
  | .di => true
  | .li => true
  | .lr => true
  | .si => false
  | .sr => false
  | .cr => false
  | .bi => false
  | .z => false

/-- The formats whose `rs1` DEC reads (R72). -/
def Format.usesRs1 : Format → Bool
  | .r3 => true
  | .ri => true
  | .di => false
  | .li => true
  | .lr => true
  | .si => true
  | .sr => true
  | .cr => true
  | .bi => false
  | .z => false

/-- The formats whose `rs2` DEC reads (R72). -/
def Format.usesRs2 : Format → Bool
  | .r3 => true
  | .ri => false
  | .di => false
  | .li => false
  | .lr => true
  | .si => true
  | .sr => true
  | .cr => true
  | .bi => false
  | .z => false

/-- The formats whose `rs3` DEC reads (R72): STR alone. -/
def Format.usesRs3 : Format → Bool
  | .r3 => false
  | .ri => false
  | .di => false
  | .li => false
  | .lr => false
  | .si => false
  | .sr => true
  | .cr => false
  | .bi => false
  | .z => false

/-- The formats that use the immediate (R72). -/
def Format.usesImm : Format → Bool
  | .r3 => false
  | .ri => true
  | .di => true
  | .li => true
  | .lr => false
  | .si => true
  | .sr => false
  | .cr => false
  | .bi => true
  | .z => false

/-- Result-producing opcodes: those for which WB commits a value (R72, last column; R93, R99). -/
def Opcode.resultProducing (o : Opcode) : Bool := o.format.usesRd

/-- The record with 0 in every field its format does not use: the canonical form of R73. -/
def Instr.canonical (i : Instr) : Instr :=
  let fm := i.opcode.format
  let f := i.fields
  Instr.make i.opcode
    { rd := if fm.usesRd then f.rd else 0
      rs1 := if fm.usesRs1 then f.rs1 else 0
      rs2 := if fm.usesRs2 then f.rs2 else 0
      rs3 := if fm.usesRs3 then f.rs3 else 0
      imm := if fm.usesImm then f.imm else 0 }

end Sys2Proof
end

