-- ==== Sys2Proof/WellFormed.lean ====
section
/-! DEFINITION. Well-formed records (spec/30_encoding.md R75, R77): every register field that the opcode's
format uses names one of the NREGS registers. -/

namespace Sys2Proof

/-- A register field is in order when its format does not use it or it is less than NREGS (R75, R76). -/
def fieldOk (nregs : Nat) (used : Bool) (r : RegIdx) : Bool := !used || decide (r.toNat < nregs)

/-- R77: a record is ill-formed when a register field its format uses is NREGS or more. -/
def Instr.wellFormed (nregs : Nat) (i : Instr) : Bool :=
  let fm := i.opcode.format
  let f := i.fields
  fieldOk nregs fm.usesRd f.rd && fieldOk nregs fm.usesRs1 f.rs1 &&
    fieldOk nregs fm.usesRs2 f.rs2 && fieldOk nregs fm.usesRs3 f.rs3

end Sys2Proof
end

