-- ==== Sys2Proof/Decode.lean ====
section
/-! DEFINITION. The packed word (spec/30_encoding.md R73 to R77): decoder, then encoder. -/

namespace Sys2Proof

/-- Why a packed word is not the packing of a record (R77). -/
inductive DecodeError where
  /-- `w[31:27]` holds one of the reserved tags 19 to 31. -/
  | reservedTag (tag : BitVec 5)
  /-- `w[26:24]` is not 0. -/
  | reservedBits (bits : BitVec 3)
deriving DecidableEq, Repr

/-- `w[31:27]`, the opcode tag (R73). -/
def PackedWord.tag (w : PackedWord) : BitVec 5 := w.extractLsb' 27 5

/-- `w[26:24]`, the reserved bits (R73). -/
def PackedWord.reserved (w : PackedWord) : BitVec 3 := w.extractLsb' 24 3

/-- The register fields and the immediate of a packed word (R73 to R75). -/
def PackedWord.fields (w : PackedWord) : Fields :=
  { rd := w.extractLsb' 18 6
    rs1 := w.extractLsb' 12 6
    rs2 := w.extractLsb' 6 6
    rs3 := w.extractLsb' 0 6
    imm := w.extractLsb' 32 32 }

/-- The opcode a tag number stands for (R71); tags 19 to 31 are reserved. -/
def opcodeOfTag : Nat → Option Opcode
  | 0 => some .add
  | 1 => some .sub
  | 2 => some .mul
  | 3 => some .div
  | 4 => some .and
  | 5 => some .or
  | 6 => some .xor
  | 7 => some .addl
  | 8 => some .subl
  | 9 => some .movc
  | 10 => some .load
  | 11 => some .store
  | 12 => some .ldr
  | 13 => some .str
  | 14 => some .cmp
  | 15 => some .bz
  | 16 => some .bnz
  | 17 => some .halt
  | 18 => some .nop
  | _ => none

/-- The decoder: total on every 64-bit word, rejecting the reserved ones by name (R77). It accepts any
value in an unused field (R76) and any register index (whether it is below NREGS is `Instr.wellFormed`). -/
def decode (w : PackedWord) : Except DecodeError Instr :=
  if PackedWord.reserved w = 0 then
    match opcodeOfTag (PackedWord.tag w).toNat with
    | some o => .ok (Instr.make o (PackedWord.fields w))
    | none => .error (.reservedTag (PackedWord.tag w))
  else .error (.reservedBits (PackedWord.reserved w))

/-- The tag number of an opcode (R71). -/
def Opcode.tag : Opcode → BitVec 5
  | .add => 0
  | .sub => 1
  | .mul => 2
  | .div => 3
  | .and => 4
  | .or => 5
  | .xor => 6
  | .addl => 7
  | .subl => 8
  | .movc => 9
  | .load => 10
  | .store => 11
  | .ldr => 12
  | .str => 13
  | .cmp => 14
  | .bz => 15
  | .bnz => 16
  | .halt => 17
  | .nop => 18

/-- The encoder: the packed word of a record, field by field from bit 63 down (R73). -/
def encode (i : Instr) : PackedWord :=
  i.fields.imm ++ i.opcode.tag ++ (0#3) ++ i.fields.rd ++ i.fields.rs1 ++ i.fields.rs2 ++ i.fields.rs3

/-- The canonical packing of R73: 0 in every field the format does not use. -/
def pack (i : Instr) : PackedWord := encode i.canonical

/-- A packed word that may stand in an instruction store: it decodes, to a well-formed record (R77). -/
def PackedWord.wellFormed (nregs : Nat) (w : PackedWord) : Bool :=
  match decode w with
  | .ok i => i.wellFormed nregs
  | .error _ => false

/-- The instruction the decoder reads from an instruction whose bits are `w`, numbered as
spec/opcode_table.json numbers them. The record is one 64-bit word, so no byte order enters (R54). -/
def decodeTableWord (nbits w : Nat) : Option Instr :=
  match decode (BitVec.ofNat 64 (w % 2 ^ nbits)) with
  | .ok i => some i
  | .error _ => none

end Sys2Proof
end

