-- ==== Sys2Proof/Config.lean ====
section
/-! DEFINITION. The configuration interface: the parameters of spec/00_scope.md R6 and the inputs of
spec/10_state.md R41. They are data that a reset samples (spec/70_reset_and_hazards.md R200). -/

namespace Sys2Proof

/-- What the loader and the driver supply (R6, R41). The defaults of the parameters are those of R6; the
instruction store and the budget have no default in the spec (log 2, 4). -/
structure Config where
  /-- NREGS, the number of registers. -/
  nregs : Nat := 16
  /-- DMEM_WORDS, the number of words of Data Memory. -/
  dmemWords : Nat := 4096
  /-- CODE_BASE, the program-counter value of record 0. -/
  codeBase : Nat := 4000
  /-- INSTR_WIDTH, the program-counter increment per instruction. -/
  instrWidth : Nat := 4
  /-- ISTORE in its packed form (R73); ICOUNT is its length. -/
  program : List PackedWord := []
  /-- MAX_CYCLES, the maximum-cycle budget. -/
  maxCycles : Nat := 0
  /-- RF_INIT; a register past the end of the list starts at the default 0. -/
  rfInit : List Word := []
  /-- DMEM_INIT as (word address, word) pairs; an address not listed starts at the default 0. -/
  dmemInit : List (Nat × Word) := []
deriving DecidableEq, Repr

/-- The constraints of R6 and R7 on the parameters (XLEN = 32 and CODE_BASE ≥ 0 hold by type). -/
abbrev Config.Legal (c : Config) : Prop :=
  1 ≤ c.nregs ∧ c.nregs ≤ 64 ∧ 1 ≤ c.dmemWords ∧ 1 ≤ c.instrWidth

end Sys2Proof
end

