-- ==== Sys2Proof/Machine/State.lean ====
section
/-! DEFINITION. The state of the pipeline controller (spec/10_state.md), the reasons a step can stop, and the
state after reset (R45). -/

namespace Sys2Proof.Machine

/-- Stops of the machine that the spec does not describe as a stopped engine. The spec's own errors
(ConfigurationError, ArithmeticError, AddressingError, FetchAddressError) are next states with
`engineState = .halted` (spec/60_exceptions.md R187), not faults. -/
inductive Fault where
  /-- Raised by a reset that samples parameters breaking spec/00_scope.md R7 ("Constraints the parameters must
  meet for the rules to be meaningful"). Safe: no next state is claimed (log 6). -/
  | illegalParameters
deriving DecidableEq, Repr

/-- Why a record has no meaning. -/
inductive Refusal where
  /-- Raised by `exec` for a constructor without a meaning; no arm raises it in this model. Safe. -/
  | notModelled (mnemonic : String)
  /-- Raised when an ill-formed record reaches a stage. spec/30_encoding.md R77: "The core never executes an
  ill-formed record". Safe: no next state is claimed, and the check at reset excludes it (log 8). -/
  | illFormedRecord
deriving DecidableEq, Repr

/-- The outcome of a step of this machine. -/
abbrev StepOutcome (S : Type) := Host.Outcome S Fault Refusal

/-- One register: its word and its availability bit (R20, R21). -/
structure Reg where
  val : Word
  /-- `true` = available, `false` = pending. -/
  avail : Bool
deriving DecidableEq, Repr

/-- A stage latch (R33). The latch fields `op`, `rd`, `rs1`, `rs2`, `rs3`, `imm` are the record `instr`. -/
structure Latch where
  valid : Bool
  instr : Instr
  /-- The value of the program counter when the instruction was fetched. -/
  pc : Int
  rs1Value : Word
  rs2Value : Word
  rs3Value : Word
  memAddress : Int
  /-- `none` is NONE, the tag that equals no register index (R37). -/
  resTag : Option RegIdx
  resValue : Word
deriving DecidableEq, Repr

/-- RUNNING and HALTED (R31). -/
inductive EngineState where
  | running
  | halted
deriving DecidableEq, Repr

/-- The termination reasons (R31; spec/60_exceptions.md R180). -/
inductive TermReason where
  | none
  | halt
  | resourceExhaustion
  | userAbort
  | configurationError
  | arithmeticError
  | addressingError
  | fetchAddressError
deriving DecidableEq, Repr

/-- `fault_info`, with exactly the fields that spec/60_exceptions.md R181 to R184 name for each error (log 10). -/
inductive FaultInfo where
  | none
  /-- R181: the index of the first ill-formed record. -/
  | record (index : Nat)
  /-- R182. -/
  | arithmetic (pc : Int) (opcode : Opcode)
  /-- R183. -/
  | addressing (pc : Int) (opcode : Opcode) (addr : Int)
  /-- R184. -/
  | fetch (pc : Int)
deriving DecidableEq, Repr

/-- The run mode of R42. -/
inductive RunMode where
  | singleStep
  | batch
deriving DecidableEq, Repr

/-- The input pins (R41, R42). The environment sets them between steps; no step writes them (log 3). -/
structure Pins where
  reset : Bool
  step : Bool
  runMode : RunMode
  abort : Bool
  config : Config
deriving DecidableEq, Repr

/-- The five stage functions, in the order a tick evaluates them (spec/40_pipeline_stages.md R91). -/
inductive Stage where
  | wb
  | mem
  | ex
  | dec
  | fetch
deriving DecidableEq, Repr

/-- Data Memory as byte cells: word `a` is the bytes at `4a` to `4a+3` (log 9). -/
abbrev Memory := List Host.Cell

/-- What an unlisted byte reads as: 0, the default DMEM_INIT of R45. -/
def unlistedByte : Byte := 0

/-- The canonical form of memory: addresses strictly rising, no entry equal to an unlisted byte. -/
abbrev Memory.wf (m : Memory) : Prop :=
  m.Pairwise (fun a b => a.1 < b.1) ∧ ∀ c ∈ m, c.2 ≠ unlistedByte

/-- All state of the core (R20 to R45), its sampled configuration and its input pins. -/
structure State where
  /-- The Register File; its length is NREGS (R20, R21). -/
  rf : List Reg
  /-- Data Memory (R39). -/
  dmem : Memory
  pc : Int
  zero : Bool
  clock : Nat
  completed : Nat
  redirectPending : Bool
  haltFetched : Bool
  /-- The one-tick signal of R32. -/
  haltRetired : Bool
  engineState : EngineState
  termReason : TermReason
  faultInfo : FaultInfo
  latF : Latch
  latD : Latch
  latE : Latch
  latM : Latch
  latW : Latch
  /-- ISTORE as sampled at reset, packed (R40, R73); its length is ICOUNT. -/
  istore : List PackedWord
  /-- MAX_CYCLES as sampled at reset. -/
  maxCycles : Nat
  dmemWords : Nat
  codeBase : Nat
  instrWidth : Nat
  pins : Pins
  /-- The model's own field: the stage function being evaluated inside a tick (log 1). -/
  stage : Stage
deriving DecidableEq, Repr

/-- NREGS. -/
def State.nregs (s : State) : Nat := s.rf.length

/-- ICOUNT. -/
def State.icount (s : State) : Nat := s.istore.length

/-- A latch as R45 resets it. -/
def Latch.reset : Latch :=
  { valid := false, instr := .nop { rd := 0, rs1 := 0, rs2 := 0, rs3 := 0, imm := 0 }, pc := 0
    rs1Value := 0, rs2Value := 0, rs3Value := 0, memAddress := 0, resTag := none, resValue := 0 }

/-- The pins with nothing requested and the default configuration (log 2, 3, 4). -/
def Pins.idle : Pins :=
  { reset := false, step := false, runMode := .batch, abort := false, config := {} }

/-- The machine right after reset (R45) with the default parameters and no program supplied: the store is
empty, so the engine is HALTED with CONFIGURATION_ERROR (spec/60_exceptions.md R181; log 2). -/
def State.reset : State :=
  { rf := List.replicate 16 { val := 0, avail := true }
    dmem := []
    pc := 4000
    zero := false
    clock := 0
    completed := 0
    redirectPending := false
    haltFetched := false
    haltRetired := false
    engineState := .halted
    termReason := .configurationError
    faultInfo := .none
    latF := Latch.reset
    latD := Latch.reset
    latE := Latch.reset
    latM := Latch.reset
    latW := Latch.reset
    istore := []
    maxCycles := 0
    dmemWords := 4096
    codeBase := 4000
    instrWidth := 4
    pins := Pins.idle
    stage := .fetch }

end Sys2Proof.Machine
end

