-- ==== Sys2Proof/Machine/Ops.lean ====
section
/-! DEFINITION. The named operations over registers, memory, latches and the engine: the primitives of
spec/00_scope.md R9, the latch protocol of spec/10_state.md R33 to R38, the memory primitives of
spec/20_memory.md R51 and R61, the stop protocol of spec/60_exceptions.md R187, and the frame of the five
stage functions (spec/40_pipeline_stages.md R93 to R96, R100). -/

namespace Sys2Proof.Machine

/-- `wrap(v)` of R8: the unique word congruent to `v` modulo 2^32. -/
def wrap (v : Int) : Word := BitVec.ofInt 32 v

/-! ## Register File (R20 to R22) -/

/-- What an index outside the Register File would read; no well-formed record has one (R77). -/
def absentReg : Reg := { val := 0, avail := true }

/-- `x[r]` of R9. -/
def State.x (s : State) (r : RegIdx) : Word := (s.rf.getD r.toNat absentReg).val

/-- `avail[r]` of R9. -/
def State.avail (s : State) (r : RegIdx) : Bool := (s.rf.getD r.toNat absentReg).avail

/-- `x[r] <- v; avail[r] <- true`: WB's commit (R93). -/
def commit (r : RegIdx) (v : Word) (s : State) : State :=
  { s with rf := s.rf.modify r.toNat (fun _ => { val := v, avail := true }) }

/-- `avail[r] <- false`: DEC marks a destination pending (R99). -/
def markPending (r : RegIdx) (s : State) : State :=
  { s with rf := s.rf.modify r.toNat (fun c => { c with avail := false }) }

/-! ## Data Memory (R39, R50 to R54) -/

/-- The byte at a byte address; an unlisted one reads as `unlistedByte`. -/
def Memory.readByte : Memory → Nat → Byte
  | [], _ => unlistedByte
  | (b, v) :: m, a => if b = a then v else Memory.readByte m a

/-- Put a cell in its place in a rising list that has no cell at that address. -/
def Memory.insert : Memory → Nat → Byte → Memory
  | [], a, v => [(a, v)]
  | (b, w) :: m, a, v => if a < b then (a, v) :: (b, w) :: m else (b, w) :: Memory.insert m a v

/-- Write a byte, keeping the canonical form: the old cell goes, and a byte equal to an unlisted one is not
listed. -/
def Memory.writeByte (m : Memory) (a : Nat) (v : Byte) : Memory :=
  let rest := m.filter (fun c => c.1 != a)
  if v = unlistedByte then rest else Memory.insert rest a v

/-- The word at a word address: its bytes at `4a` (low) to `4a+3` (high) (log 9). -/
def Memory.readWord (m : Memory) (a : Nat) : Word :=
  Memory.readByte m (4 * a + 3) ++ Memory.readByte m (4 * a + 2) ++
    Memory.readByte m (4 * a + 1) ++ Memory.readByte m (4 * a)

/-- Write a word at a word address (log 9). -/
def Memory.writeWord (m : Memory) (a : Nat) (v : Word) : Memory :=
  let m := Memory.writeByte m (4 * a) (v.extractLsb' 0 8)
  let m := Memory.writeByte m (4 * a + 1) (v.extractLsb' 8 8)
  let m := Memory.writeByte m (4 * a + 2) (v.extractLsb' 16 8)
  Memory.writeByte m (4 * a + 3) (v.extractLsb' 24 8)

/-- Data Memory holding the words of DMEM_INIT (R45); pairs outside the memory are ignored (log 14). -/
def Memory.ofInit (words : Nat) (init : List (Nat × Word)) : Memory :=
  init.foldl (fun m p => if p.1 < words then Memory.writeWord m p.1 p.2 else m) []

/-- `DMEM[a]`, the word at a word address. -/
def State.dmemWord (s : State) (a : Nat) : Word := Memory.readWord s.dmem a

/-- The addresses of Data Memory: `0 ≤ a < DMEM_WORDS` (R50). -/
abbrev State.addressOk (s : State) (a : Int) : Prop := 0 ≤ a ∧ a < (s.dmemWords : Int)

/-- `MemRead(a, 1)` of R51; `none` stands for the AddressingError. -/
def memRead (s : State) (a : Int) : Option Word :=
  if s.addressOk a then some (s.dmemWord a.toNat) else none

/-- `MemWrite(a, 1, v)` of R51; `none` stands for the AddressingError. -/
def memWrite (s : State) (a : Int) (v : Word) : Option State :=
  if s.addressOk a then some { s with dmem := Memory.writeWord s.dmem a.toNat v } else none

/-! ## Instruction Store (R40, R61) -/

/-- `IFetch(pc)` of R61; `none` stands for the FetchAddressError. -/
def iFetch (s : State) (pc : Int) : Option PackedWord :=
  let off := pc - (s.codeBase : Int)
  if off < 0 ∨ off % (s.instrWidth : Int) ≠ 0 then none
  else s.istore[(off / (s.instrWidth : Int)).toNat]?

/-! ## The stop protocol (R187) -/

/-- The engine leaves RUNNING with a reason (R31, R187). -/
def stopWith (reason : TermReason) (info : FaultInfo) (s : State) : State :=
  { s with engineState := .halted, termReason := reason, faultInfo := info }

/-- What an action of a stage leaves: `.ok s` when the stage function goes on, `.error s` when it raised an
error and the tick is abandoned with the state `s`. -/
abbrev ActionResult := Except State State

/-- `raise <Error>(info)` of R187. -/
def raise (reason : TermReason) (info : FaultInfo) (s : State) : ActionResult :=
  .error (stopWith reason info s)

/-! ## Latches (R33 to R38) -/

/-- `clear(L)`: the validity flag alone (R35). -/
def Latch.cleared (l : Latch) : Latch := { l with valid := false }

/-- The latch FETCH fills with a record fetched at `pc` (R100). -/
def Latch.fetched (i : Instr) (pc : Int) : Latch :=
  { valid := true, instr := i, pc := pc
    rs1Value := 0, rs2Value := 0, rs3Value := 0, memAddress := 0, resTag := none, resValue := 0 }

/-- FETCH: fill `F` and advance `pc` (R100). -/
def fillFetch (i : Instr) (s : State) : State :=
  { s with latF := Latch.fetched i s.pc, pc := s.pc + (s.instrWidth : Int) }

/-- FETCH: `D <- F; clear(F)` (R100). -/
def fetchToDecode (s : State) : State := { s with latD := s.latF, latF := s.latF.cleared }

/-- DEC: `E <- D; clear(D)` (R96). -/
def decodeToExecute (s : State) : State := { s with latE := s.latD, latD := s.latD.cleared }

/-- EX: `M <- E; clear(E)` (R95). -/
def executeToMemory (s : State) : State := { s with latM := s.latE, latE := s.latE.cleared }

/-- MEM: `W <- M; clear(M)` (R94). -/
def memoryToWriteback (s : State) : State := { s with latW := s.latM, latM := s.latM.cleared }

/-- WB: `completed <- completed + 1; clear(W)` (R93). -/
def retire (s : State) : State := { s with completed := s.completed + 1, latW := s.latW.cleared }

/-- EX writes the result descriptor of `E` (R37, R95). -/
def setResult (rd : RegIdx) (v : Word) (s : State) : State :=
  { s with latE := { s.latE with resTag := some rd, resValue := v } }

/-- EX writes the effective address into `E` (R154). -/
def setAddress (a : Int) (s : State) : State := { s with latE := { s.latE with memAddress := a } }

/-- MEM writes the result descriptor of `M` (R37, R94). -/
def setLoaded (rd : RegIdx) (v : Word) (s : State) : State :=
  { s with latM := { s.latM with resTag := some rd, resValue := v } }

/-! ## Memory stage actions (R94) -/

/-- MEM of LOAD and LDR: read the word at `M.mem_address` into the result descriptor (R94, R150, R152). -/
def loadWord (op : Opcode) (rd : RegIdx) (s : State) : ActionResult :=
  match memRead s s.latM.memAddress with
  | some v => .ok (setLoaded rd v s)
  | none => raise .addressingError (.addressing s.latM.pc op s.latM.memAddress) s

/-- MEM of STORE and STR: write `M.rs1_value` at `M.mem_address` (R94, R151, R153). -/
def storeWord (op : Opcode) (s : State) : ActionResult :=
  match memWrite s s.latM.memAddress s.latM.rs1Value with
  | some t => .ok t
  | none => raise .addressingError (.addressing s.latM.pc op s.latM.memAddress) s

/-! ## Control flow (R103, R170) -/

/-- The taken-branch procedure of R103: redirect, flush `D`, suppress one fetch, re-arm fetch. -/
def takeBranch (imm : Word) (s : State) : State :=
  { s with pc := s.latE.pc + imm.toInt, latD := s.latD.cleared, redirectPending := true, haltFetched := false }

/-- FETCH of HALT: no further fetch (R102, R170). -/
def stopFetching (s : State) : State := { s with haltFetched := true }

/-- WB of HALT: signal termination to the engine (R32, R93). -/
def signalHalt (s : State) : State := { s with haltRetired := true }

/-! ## The frame of the five stage functions -/

/-- What one opcode does in each stage, beside what every opcode does there. The defaults are 'nothing':
"All other opcodes pass through unchanged" (R94). -/
structure StageActions where
  /-- Beside filling `F` and advancing `pc`. -/
  fetch : State → State := fun s => s
  /-- Operand resolution and pending mark. -/
  decode : State → State := fun s => s
  /-- The EX action of the opcode's rule. -/
  execute : State → ActionResult := fun s => .ok s
  /-- The memory access. -/
  memory : State → ActionResult := fun s => .ok s
  /-- The commit. -/
  writeback : State → State := fun s => s

/-- After an action: go on with `k`, or leave the state a raised error left (R187: "the rest of the raising
stage function … do not run"). -/
def ActionResult.finish (r : ActionResult) (k : State → State) : State :=
  match r with
  | .ok s => k s
  | .error s => s

/-- What the action of a record in the stage `s.stage` leaves: the stage functions R93 to R96 and R100 with their
common part written once. -/
def performed (i : Instr) (a : StageActions) (s : State) : State :=
  match s.stage with
  | .fetch => fetchToDecode (a.fetch (fillFetch i s))
  | .dec => decodeToExecute (a.decode s)
  | .ex => ActionResult.finish (a.execute s) executeToMemory
  | .mem => ActionResult.finish (a.memory s) memoryToWriteback
  | .wb => retire (a.writeback s)

/-- The action of a record in the stage `s.stage`. A record that is ill-formed is never executed (R77; log 8). -/
def perform (i : Instr) (a : StageActions) (s : State) : StepOutcome State :=
  if i.wellFormed s.nregs then .next (performed i a s) else .refused .illFormedRecord

end Sys2Proof.Machine
end

