-- ==== Sys2Proof/Machine/Operands.lean ====
section
/-! DEFINITION. Operand forms: the Forwarding/Bypass Resolver (spec/40_pipeline_stages.md R97, R98), the source
sets of spec/30_encoding.md R72, and the two addressing modes (spec/43_load_store.md R154). -/

namespace Sys2Proof.Machine

/-- The resolver classes of R97. -/
inductive OperandClass where
  | arith
  | memclass
deriving DecidableEq, Repr

/-- Step 1 fails and a latch's descriptor is consulted: its value if its tag is `r` (R98). -/
def Latch.forwards (l : Latch) (r : RegIdx) : Option Word :=
  if l.resTag = some r then some l.resValue else none

/-- The Forwarding/Bypass Resolver `resolve(cls, r)` of R98. It does not look at the latches' `valid` flags. -/
def resolve (cls : OperandClass) (r : RegIdx) (s : State) : Word :=
  if s.avail r then s.x r
  else
    match cls with
    | .arith => ((s.latW.forwards r).or (s.latE.forwards r)).getD (s.x r)
    | .memclass => ((s.latM.forwards r).or (s.latE.forwards r)).getD (s.x r)

/-- `D.rs1_value <- resolve(cls, D.rs1)` (R96). -/
def resolveRs1 (cls : OperandClass) (r : RegIdx) (s : State) : State :=
  { s with latD := { s.latD with rs1Value := resolve cls r s } }

/-- `D.rs2_value <- resolve(cls, D.rs2)` (R96). -/
def resolveRs2 (cls : OperandClass) (r : RegIdx) (s : State) : State :=
  { s with latD := { s.latD with rs2Value := resolve cls r s } }

/-- `D.rs3_value <- resolve(cls, D.rs3)` (R96). -/
def resolveRs3 (cls : OperandClass) (r : RegIdx) (s : State) : State :=
  { s with latD := { s.latD with rs3Value := resolve cls r s } }

/-- The sources of formats R3, LR, SI and CR: `rs1`, then `rs2` (R72). -/
def resolveTwo (cls : OperandClass) (f : Fields) (s : State) : State :=
  resolveRs2 cls f.rs2 (resolveRs1 cls f.rs1 s)

/-- The sources of format SR: `rs1`, `rs2`, `rs3` (R72). -/
def resolveThree (cls : OperandClass) (f : Fields) (s : State) : State :=
  resolveRs3 cls f.rs3 (resolveTwo cls f s)

/-- Base + immediate, unwrapped (R154). -/
def baseImmediate (base imm : Word) : Int := base.toInt + imm.toInt

/-- Base + index, unwrapped (R154). -/
def baseIndex (base index : Word) : Int := base.toInt + index.toInt

end Sys2Proof.Machine
end

