-- ==== Sys2Proof/Machine/Arithmetic.lean ====
section
/-! DEFINITION. Register-register arithmetic: ADD, SUB, MUL, DIV, AND, OR, XOR (spec/41_arithmetic.md R130 to R137). -/

namespace Sys2Proof.Machine

/-- Format R3 with a total operation: the DEC, EX and WB rows that R131 gives for ADD, and R132, R133, R135 to
R137 for the others with their own EX value. -/
def registerRegister (i : Instr) (f : Fields) (compute : Word → Word → Word) (s : State) : StepOutcome State :=
  perform i
    { decode := fun s => markPending f.rd (resolveTwo .arith f s)
      execute := fun s => .ok (setResult f.rd (compute s.latE.rs1Value s.latE.rs2Value) s)
      writeback := fun s => commit f.rd s.latW.resValue s } s

/-- ADD `rd, rs1, rs2` (R131). -/
def execAdd (f : Fields) (s : State) : StepOutcome State :=
  registerRegister (.add f) f (fun a b => wrap (a.toInt + b.toInt)) s

/-- SUB `rd, rs1, rs2` (R132). -/
def execSub (f : Fields) (s : State) : StepOutcome State :=
  registerRegister (.sub f) f (fun a b => wrap (a.toInt - b.toInt)) s

/-- MUL `rd, rs1, rs2` (R133). -/
def execMul (f : Fields) (s : State) : StepOutcome State :=
  registerRegister (.mul f) f (fun a b => wrap (a.toInt * b.toInt)) s

/-- The quotient of R134: signed, rounding toward zero; `none` where R134 raises ArithmeticError (a divisor of
0, or `-2^31` by `-1`). -/
def quotient (a b : Word) : Option Word :=
  if b.toInt = 0 then none
  else if a.toInt = -2147483648 ∧ b.toInt = -1 then none
  else some (wrap (a.toInt.sign * b.toInt.sign * ((a.toInt.natAbs / b.toInt.natAbs : Nat) : Int)))

/-- EX of DIV (R134): raise before the first write, or write the descriptor. -/
def divide (rd : RegIdx) (s : State) : ActionResult :=
  match quotient s.latE.rs1Value s.latE.rs2Value with
  | some q => .ok (setResult rd q s)
  | none => raise .arithmeticError (.arithmetic s.latE.pc .div) s

/-- DIV `rd, rs1, rs2` (R134). -/
def execDiv (f : Fields) (s : State) : StepOutcome State :=
  perform (.div f)
    { decode := fun s => markPending f.rd (resolveTwo .arith f s)
      execute := divide f.rd
      writeback := fun s => commit f.rd s.latW.resValue s } s

/-- AND `rd, rs1, rs2` (R135). -/
def execAnd (f : Fields) (s : State) : StepOutcome State :=
  registerRegister (.and f) f (fun a b => a &&& b) s

/-- OR `rd, rs1, rs2` (R136). -/
def execOr (f : Fields) (s : State) : StepOutcome State :=
  registerRegister (.or f) f (fun a b => a ||| b) s

/-- XOR `rd, rs1, rs2` (R137). -/
def execXor (f : Fields) (s : State) : StepOutcome State :=
  registerRegister (.xor f) f (fun a b => a ^^^ b) s

end Sys2Proof.Machine
end

