-- ==== Sys2Proof/Machine/Flags.lean ====
section
/-! DEFINITION. The zero flag, the only condition code (spec/10_state.md R26): written by MOVC and CMP in EX,
read by BZ and BNZ in EX. -/

namespace Sys2Proof.Machine

/-- `zero <- b`. -/
def setZero (b : Bool) (s : State) : State := { s with zero := b }

/-- MOVC: `zero <- (imm = 0)` (spec/42_immediate_and_move.md R142). -/
def zeroOfImmediate (imm : Word) : Bool := decide (imm = 0)

/-- CMP: `zero <- (rs1_value = rs2_value)` (spec/44_compare_and_branch.md R160). -/
def zeroOfCompare (a b : Word) : Bool := decide (a = b)

/-- The branch condition: the zero flag matches the branch's polarity (R161, R162). -/
def branchTaken (polarity : Bool) (s : State) : Bool := s.zero == polarity

end Sys2Proof.Machine
end

