-- ==== Sys2Proof/Machine/CompareBranch.lean ====
section
/-! DEFINITION. Compare and branch: CMP, BZ, BNZ (spec/44_compare_and_branch.md R160 to R163). -/

namespace Sys2Proof.Machine

/-- CMP `rs1, rs2` (R160): class MEMCLASS, no destination, writes the zero flag in EX. -/
def execCmp (f : Fields) (s : State) : StepOutcome State :=
  perform (.cmp f)
    { decode := resolveTwo .memclass f
      execute := fun s => .ok (setZero (zeroOfCompare s.latE.rs1Value s.latE.rs2Value) s) } s

/-- BZ `#imm` (R161): taken when the zero flag is true. -/
def execBz (f : Fields) (s : State) : StepOutcome State :=
  perform (.bz f)
    { execute := fun s => .ok (if branchTaken true s then takeBranch f.imm s else s) } s

/-- BNZ `#imm` (R162): taken when the zero flag is false. -/
def execBnz (f : Fields) (s : State) : StepOutcome State :=
  perform (.bnz f)
    { execute := fun s => .ok (if branchTaken false s then takeBranch f.imm s else s) } s

end Sys2Proof.Machine
end

