-- ==== Sys2Proof/Machine/HaltNop.lean ====
section
/-! DEFINITION. HALT and NOP (spec/45_halt_nop.md R170, R171). -/

namespace Sys2Proof.Machine

/-- HALT (R170): its fetch stops fetching, its retirement signals the engine. -/
def execHalt (f : Fields) (s : State) : StepOutcome State :=
  perform (.halt f) { fetch := stopFetching, writeback := signalHalt } s

/-- NOP (R171): it occupies its slots, overwriting descriptors with NONE, and is counted. -/
def execNop (f : Fields) (s : State) : StepOutcome State := perform (.nop f) {} s

end Sys2Proof.Machine
end

