-- ==== Sys2Proof/Machine/Immediate.lean ====
section
/-! DEFINITION. Immediate forms and move: ADDL, SUBL, MOVC (spec/42_immediate_and_move.md R140 to R142). -/

namespace Sys2Proof.Machine

/-- Format RI: the DEC, EX and WB rows of R140 and R141. -/
def registerImmediate (i : Instr) (f : Fields) (compute : Word → Word → Word) (s : State) : StepOutcome State :=
  perform i
    { decode := fun s => markPending f.rd (resolveRs1 .arith f.rs1 s)
      execute := fun s => .ok (setResult f.rd (compute s.latE.rs1Value f.imm) s)
      writeback := fun s => commit f.rd s.latW.resValue s } s

/-- ADDL `rd, rs1, #imm` (R140). -/
def execAddl (f : Fields) (s : State) : StepOutcome State :=
  registerImmediate (.addl f) f (fun a b => wrap (a.toInt + b.toInt)) s

/-- SUBL `rd, rs1, #imm` (R141). -/
def execSubl (f : Fields) (s : State) : StepOutcome State :=
  registerImmediate (.subl f) f (fun a b => wrap (a.toInt - b.toInt)) s

/-- MOVC `rd, #imm` (R142): no operand is resolved; EX writes the result and the zero flag. -/
def execMovc (f : Fields) (s : State) : StepOutcome State :=
  perform (.movc f)
    { decode := markPending f.rd
      execute := fun s => .ok (setZero (zeroOfImmediate f.imm) (setResult f.rd f.imm s))
      writeback := fun s => commit f.rd s.latW.resValue s } s

end Sys2Proof.Machine
end

