-- ==== Sys2Proof/Machine/LoadStore.lean ====
section
/-! DEFINITION. Loads and stores: LOAD, STORE, LDR, STR (spec/43_load_store.md R150 to R154). EX computes the
address and leaves the result descriptor alone; the access and its range check are MEM's. -/

namespace Sys2Proof.Machine

/-- LOAD `rd, rs1, #imm` (R150). -/
def execLoad (f : Fields) (s : State) : StepOutcome State :=
  perform (.load f)
    { decode := fun s => markPending f.rd (resolveRs1 .memclass f.rs1 s)
      execute := fun s => .ok (setAddress (baseImmediate s.latE.rs1Value f.imm) s)
      memory := loadWord .load f.rd
      writeback := fun s => commit f.rd s.latW.resValue s } s

/-- STORE `rs1, rs2, #imm` (R151). -/
def execStore (f : Fields) (s : State) : StepOutcome State :=
  perform (.store f)
    { decode := resolveTwo .memclass f
      execute := fun s => .ok (setAddress (baseImmediate s.latE.rs2Value f.imm) s)
      memory := storeWord .store } s

/-- LDR `rd, rs1, rs2` (R152). -/
def execLdr (f : Fields) (s : State) : StepOutcome State :=
  perform (.ldr f)
    { decode := fun s => markPending f.rd (resolveTwo .memclass f s)
      execute := fun s => .ok (setAddress (baseIndex s.latE.rs1Value s.latE.rs2Value) s)
      memory := loadWord .ldr f.rd
      writeback := fun s => commit f.rd s.latW.resValue s } s

/-- STR `rs1, rs2, rs3` (R153). -/
def execStr (f : Fields) (s : State) : StepOutcome State :=
  perform (.str f)
    { decode := resolveThree .memclass f
      execute := fun s => .ok (setAddress (baseIndex s.latE.rs2Value s.latE.rs3Value) s)
      memory := storeWord .str } s

end Sys2Proof.Machine
end

