-- ==== Sys2Proof/Machine/Engine.lean ====
section
/-! DEFINITION. The Pipeline Engine: the stage functions around `exec`, the tick, the run loop and reset
(spec/40_pipeline_stages.md R90 to R102; spec/70_reset_and_hazards.md R200; spec/60_exceptions.md R180 to R187). -/

namespace Sys2Proof.Machine

/-- The latch a stage function processes (spec/00_scope.md R10). -/
def State.latchOf (s : State) : Stage → Latch
  | .wb => s.latW
  | .mem => s.latM
  | .ex => s.latE
  | .dec => s.latD
  | .fetch => s.latF

/-- Enter a stage function. -/
def enterStage (st : Stage) (s : State) : State := { s with stage := st }

/-- WB, MEM, EX or DEC: a valid latch's instruction performs its action in that stage; an invalid latch does
nothing at all (spec/10_state.md R34; R93 to R96). -/
def runStage (st : Stage) (s : State) : StepOutcome State :=
  if (s.latchOf st).valid then exec (s.latchOf st).instr (enterStage st s) else .next (enterStage st s)

/-- The record at `pc` enters the pipeline, or FETCH raises FetchAddressError (R100; spec/60_exceptions.md R184). -/
def fetchRecord (s : State) : StepOutcome State :=
  match iFetch s s.pc with
  | none => .next (stopWith .fetchAddressError (.fetch s.pc) s)
  | some w =>
    match decode w with
    | .ok i => exec i s
    | .error _ => .refused .illFormedRecord

/-- FETCH (R100), with redirect suppression (R101) and fetch stop at HALT (R102). -/
def fetchStage (s : State) : StepOutcome State :=
  let s := enterStage .fetch s
  if s.redirectPending then .next { s with redirectPending := false }
  else if s.haltFetched then .next s
  else fetchRecord s

/-- The next stage function runs unless an error abandoned the tick (R187). -/
def thenStage (o : StepOutcome State) (k : State → StepOutcome State) : StepOutcome State :=
  match o with
  | .next s =>
    match s.engineState with
    | .running => k s
    | .halted => .next s
  | .fault r => .fault r
  | .refused r => .refused r

/-- WB, MEM, EX and DEC, in that order (R91). -/
def beforeFetch (s : State) : StepOutcome State :=
  thenStage (thenStage (thenStage (runStage .wb { s with haltRetired := false }) (runStage .mem)) (runStage .ex))
    (runStage .dec)

/-- The end of a tick (R91): a retired HALT stops the engine, else the clock advances. -/
def endTick (s : State) : StepOutcome State :=
  if s.haltRetired then .next (stopWith .halt .none s) else .next { s with clock := s.clock + 1 }

/-- Back at a tick boundary, no stage function is being evaluated (log 1). -/
def atBoundary (o : StepOutcome State) : StepOutcome State :=
  match o with
  | .next s => .next (enterStage .fetch s)
  | .fault r => .fault r
  | .refused r => .refused r

/-- One tick (R91). -/
def tick (s : State) : StepOutcome State :=
  atBoundary (thenStage (thenStage (beforeFetch s) fetchStage) endTick)

/-- One iteration of the run loop (R90): abort, then budget, then a tick. -/
def iteration (s : State) : StepOutcome State :=
  if s.pins.abort then .next (stopWith .userAbort .none s)
  else if s.maxCycles ≤ s.clock then .next (stopWith .resourceExhaustion .none s)
  else tick s

/-- Whether the run mode lets an iteration happen in this clock cycle (spec/10_state.md R42). -/
def Pins.iterates (p : Pins) : Bool :=
  match p.runMode with
  | .batch => true
  | .singleStep => p.step

/-! ## Reset -/

/-- The index of the first record that is not well-formed (spec/30_encoding.md R77; spec/60_exceptions.md R181). -/
def firstIllFormed (nregs : Nat) : List PackedWord → Option Nat
  | [] => none
  | w :: ws => if PackedWord.wellFormed nregs w then (firstIllFormed nregs ws).map (· + 1) else some 0

/-- The Register File of R45. -/
def initialRf (c : Config) : List Reg :=
  (List.range c.nregs).map (fun i => { val := c.rfInit.getD i 0, avail := true })

/-- The state R45 gives a machine that samples the configuration `c`, before the configuration check. -/
def initialState (c : Config) (p : Pins) : State :=
  { rf := initialRf c
    dmem := Memory.ofInit c.dmemWords c.dmemInit
    pc := (c.codeBase : Int)
    zero := false
    clock := 0
    completed := 0
    redirectPending := false
    haltFetched := false
    haltRetired := false
    engineState := .running
    termReason := .none
    faultInfo := .none
    latF := Latch.reset
    latD := Latch.reset
    latE := Latch.reset
    latM := Latch.reset
    latW := Latch.reset
    istore := c.program
    maxCycles := c.maxCycles
    dmemWords := c.dmemWords
    codeBase := c.codeBase
    instrWidth := c.instrWidth
    pins := p
    stage := .fetch }

/-- The configuration check of spec/60_exceptions.md R181. -/
def checkConfiguration (c : Config) (s : State) : State :=
  match c.program with
  | [] => stopWith .configurationError .none s
  | _ :: _ =>
    match firstIllFormed c.nregs c.program with
    | none => s
    | some k => stopWith .configurationError (.record k) s

/-- Reset (spec/70_reset_and_hazards.md R200): sample the configuration pins, give every piece of state its
value, check the configuration. Parameters outside spec/00_scope.md R7 have no meaning (log 6). -/
def applyReset (s : State) : StepOutcome State :=
  if s.pins.config.Legal then .next (checkConfiguration s.pins.config (initialState s.pins.config s.pins))
  else .fault .illegalParameters

/-- One clock cycle: a reset; nothing while HALTED (spec/60_exceptions.md R191) or while SINGLE_STEP waits for
`step`; else one iteration of the run loop. -/
def cycle (s : State) : StepOutcome State :=
  if s.pins.reset then applyReset s
  else
    match s.engineState with
    | .halted => .next s
    | .running => if s.pins.iterates then iteration s else .next s

/-! ## Placing an instruction to be fetched next -/

/-- All that stands between a state and a fetch at its `pc` set aside: the engine runs, the budget allows a tick,
fetch is neither stopped nor suppressed, no reset or abort is asserted. -/
def readyToFetch (s : State) : State :=
  { s with
    engineState := .running
    termReason := .none
    faultInfo := .none
    redirectPending := false
    haltFetched := false
    maxCycles := max s.maxCycles (s.clock + 1)
    pins := { s.pins with reset := false, abort := false, runMode := .batch } }

/-- The pipeline emptied, as at the entry point (spec/70_reset_and_hazards.md R201). -/
def drained (s : State) : State :=
  { s with
    latD := s.latD.cleared
    latE := s.latE.cleared
    latM := s.latM.cleared
    latW := s.latW.cleared }

/-- Whether the instructions in flight let this tick fetch at the present `pc` (no error, no taken branch). -/
def fetchesThisTick (s : State) : Bool :=
  match beforeFetch s with
  | .next t => decide (t.engineState = .running) && !t.redirectPending && !t.haltFetched
  | .fault _ => false
  | .refused _ => false

/-- The record `w` stored where the next fetch reads, the store padded with NOP records up to it (log 2). A `pc`
that is no record address of any store becomes CODE_BASE. -/
def storeAtPc (w : PackedWord) (s : State) : State :=
  let off := s.pc - (s.codeBase : Int)
  let onGrid := decide (0 ≤ off ∧ off % (s.instrWidth : Int) = 0)
  let k := if onGrid then (off / (s.instrWidth : Int)).toNat else 0
  let padding := List.replicate (k - s.istore.length) (encode Latch.reset.instr)
  { s with
    pc := if onGrid then s.pc else (s.codeBase : Int)
    istore := s.istore.take k ++ padding ++ w :: s.istore.drop (k + 1) }

/-- `s` with the instruction placed so that the very next tick fetches it (log 2). -/
def placeFetchWord (nbits w : Nat) (s : State) : State :=
  let t := storeAtPc (BitVec.ofNat 64 (w % 2 ^ nbits)) (readyToFetch s)
  if fetchesThisTick t then t else drained t

end Sys2Proof.Machine
end

