-- ==== Sys2Proof/Machine/Step.lean ====
section
/-! DEFINITION. One step of the machine: one clock cycle. -/

namespace Sys2Proof.Machine

/-- One clock cycle of the pipeline controller. -/
def step (s : State) : Host.Outcome State Fault Refusal := cycle s

/-- `s` with an instruction stored where `step` fetches its next one (log 2). -/
def State.withFetchWord (s : State) (nbits w : Nat) : State := placeFetchWord nbits w s

end Sys2Proof.Machine
end

