-- ==== Sys2Proof/Machine/Observer.lean ====
section
/-! DEFINITION. What the host reads: the numeric codes of spec/60_exceptions.md R180, the status outputs and the
read-only observer of spec/10_state.md R42 and R43, and the assembler spelling of spec/30_encoding.md R79. Reading
changes nothing: these are functions of the state. -/

namespace Sys2Proof.Machine

/-- The numeric codes of R180. -/
def TermReason.code : TermReason → Nat
  | .none => 0
  | .halt => 1
  | .resourceExhaustion => 2
  | .userAbort => 3
  | .configurationError => 4
  | .arithmeticError => 5
  | .addressingError => 6
  | .fetchAddressError => 7

/-- The mnemonic of an opcode (R71). -/
def mnemonicOf : Opcode → String
  | .add => "ADD"
  | .sub => "SUB"
  | .mul => "MUL"
  | .div => "DIV"
  | .and => "AND"
  | .or => "OR"
  | .xor => "XOR"
  | .addl => "ADDL"
  | .subl => "SUBL"
  | .movc => "MOVC"
  | .load => "LOAD"
  | .store => "STORE"
  | .ldr => "LDR"
  | .str => "STR"
  | .cmp => "CMP"
  | .bz => "BZ"
  | .bnz => "BNZ"
  | .halt => "HALT"
  | .nop => "NOP"

/-- A register operand as R79 writes it. -/
def regText (r : RegIdx) : String := "R" ++ toString r.toNat

/-- An immediate operand as R79 writes it. -/
def immText (v : Word) : String := "#" ++ toString v.toInt

/-- The operands of a record in the order of R79. -/
def operandTexts (i : Instr) : List String :=
  let f := i.fields
  match i.opcode.format with
  | .r3 => [regText f.rd, regText f.rs1, regText f.rs2]
  | .ri => [regText f.rd, regText f.rs1, immText f.imm]
  | .di => [regText f.rd, immText f.imm]
  | .li => [regText f.rd, regText f.rs1, immText f.imm]
  | .lr => [regText f.rd, regText f.rs1, regText f.rs2]
  | .si => [regText f.rs1, regText f.rs2, immText f.imm]
  | .sr => [regText f.rs1, regText f.rs2, regText f.rs3]
  | .cr => [regText f.rs1, regText f.rs2]
  | .bi => [immText f.imm]
  | .z => []

/-- The text of a record (R79). -/
def instrText (i : Instr) : String :=
  match operandTexts i with
  | [] => mnemonicOf i.opcode
  | ops => mnemonicOf i.opcode ++ " " ++ String.intercalate "," ops

/-- A latch as the trace layer sees it (R43). -/
structure LatchView where
  valid : Bool
  text : String
  latch : Latch
deriving DecidableEq, Repr

/-- A snapshot of a latch. -/
def Latch.view (l : Latch) : LatchView := { valid := l.valid, text := instrText l.instr, latch := l }

/-- What the observer and the status outputs show (R42, R43). -/
structure Observation where
  engineState : EngineState
  termCode : Nat
  faultInfo : FaultInfo
  latches : List LatchView
  registers : List Reg
  /-- The words of Data Memory, address 0 first. -/
  memory : List Word
  pc : Int
  zero : Bool
  clock : Nat
  completed : Nat
deriving DecidableEq, Repr

/-- The observer (R43). -/
def State.observe (s : State) : Observation :=
  { engineState := s.engineState
    termCode := s.termReason.code
    faultInfo := s.faultInfo
    latches := [s.latF.view, s.latD.view, s.latE.view, s.latM.view, s.latW.view]
    registers := s.rf
    memory := (List.range s.dmemWords).map s.dmemWord
    pc := s.pc
    zero := s.zero
    clock := s.clock
    completed := s.completed }

end Sys2Proof.Machine
end

