-- ==== Sys2Proof/Safety.lean ====
section
/-! DEFINITION. What claims are stated in: when a step is a tick, the invariants of the pipeline, and the sequential
semantics the spec compares the pipeline with (spec/00_scope.md glossary; the "Sequential effect" lines of spec/41 to
spec/45). Nothing here is used by the machine. -/

namespace Sys2Proof.Machine

/-! ## Steps that are ticks -/

/-- The step at `s` evaluates a tick: no reset asserted, engine RUNNING, run mode lets it iterate, no abort, budget
not reached (spec/40_pipeline_stages.md R90; spec/10_state.md R42). -/
abbrev State.Ticks (s : State) : Prop :=
  s.pins.reset = false ∧ s.engineState = .running ∧ s.pins.iterates = true ∧ s.pins.abort = false ∧
    s.clock < s.maxCycles

/-- The three reasons an error inside a tick leaves (spec/60_exceptions.md R187). -/
def TermReason.isTickError : TermReason → Bool
  | .none => false
  | .halt => false
  | .resourceExhaustion => false
  | .userAbort => false
  | .configurationError => false
  | .arithmeticError => true
  | .addressingError => true
  | .fetchAddressError => true

/-- A branch in EX whose condition holds (spec/44_compare_and_branch.md R161, R162). -/
def takesBranch (s : State) : Bool :=
  s.latE.valid &&
    match s.latE.instr.opcode with
    | .bz => s.zero
    | .bnz => !s.zero
    | _ => false

/-- The stage function `st`, entered at `s`, ends in `t` without an error: the latch's instruction has run through
`exec`, or the latch was empty. -/
def StageRuns (st : Stage) (s t : State) : Prop :=
  if (s.latchOf st).valid = true then
    exec (s.latchOf st).instr { s with stage := st } = .next t ∧ t.engineState = .running
  else t = { s with stage := st }

/-- DEC, EX, MEM and WB have nothing to do (spec/70_reset_and_hazards.md R201). -/
abbrev State.PipelineEmpty (s : State) : Prop :=
  s.latD.valid = false ∧ s.latE.valid = false ∧ s.latM.valid = false ∧ s.latW.valid = false

/-! ## Writers in flight -/

/-- A valid latch whose instruction will commit to `r`. -/
def Latch.writes (l : Latch) (r : RegIdx) : Bool :=
  l.valid && l.instr.opcode.resultProducing && decide (l.instr.fields.rd = r)

/-- LOAD and LDR. -/
def isLoad : Opcode → Bool
  | .load => true
  | .ldr => true
  | _ => false

/-- STORE and STR. -/
def isStore : Opcode → Bool
  | .store => true
  | .str => true
  | _ => false

/-- MEM raises AddressingError in this tick (spec/60_exceptions.md R183). -/
abbrev State.RaisesAddressing (s : State) : Prop :=
  s.latM.valid = true ∧ (isLoad s.latM.instr.opcode = true ∨ isStore s.latM.instr.opcode = true) ∧
    ¬ s.addressOk s.latM.memAddress

/-- `E` holds a DIV that EX raises ArithmeticError for, unless MEM has abandoned the tick (spec/60_exceptions.md R182,
R188). -/
abbrev State.RaisesArithmetic (s : State) : Prop :=
  s.latE.valid = true ∧ s.latE.instr.opcode = .div ∧
    (s.latE.rs2Value = 0 ∨ (s.latE.rs1Value.toInt = -2147483648 ∧ s.latE.rs2Value.toInt = -1))

/-- `M` as MEM copies it to `W` when it raises no error: a load has written its descriptor
(spec/40_pipeline_stages.md R94). -/
def Latch.loaded (l : Latch) (s : State) : Latch :=
  if isLoad l.instr.opcode then
    { l with resTag := some l.instr.fields.rd, resValue := s.dmemWord l.memAddress.toNat }
  else l

/-- The class column of spec/30_encoding.md R72. -/
def classOf (o : Opcode) : Option OperandClass :=
  match o.format with
  | .r3 => some .arith
  | .ri => some .arith
  | .di => none
  | .li => some .memclass
  | .lr => some .memclass
  | .si => some .memclass
  | .sr => some .memclass
  | .cr => some .memclass
  | .bi => none
  | .z => none

/-! ## Invariants -/

/-- Between ticks no redirect is pending, `F` is empty (R29, R38) and no stage is being evaluated (log 1). -/
abbrev State.AtBoundary (s : State) : Prop :=
  s.redirectPending = false ∧ s.latF.valid = false ∧ s.stage = .fetch

/-- R31: the reason is NONE exactly while RUNNING; no fault is reported while RUNNING. -/
abbrev State.EngineConsistent (s : State) : Prop :=
  (s.engineState = .running ↔ s.termReason = .none) ∧ (s.engineState = .running → s.faultInfo = .none)

/-- A running engine has a checked store: not empty, every record well-formed (spec/60_exceptions.md R181). -/
abbrev State.StoreChecked (s : State) : Prop :=
  s.engineState = .running → s.istore ≠ [] ∧ ∀ w ∈ s.istore, PackedWord.wellFormed s.nregs w = true

/-- Every valid latch holds a well-formed record (spec/30_encoding.md R77). -/
abbrev State.LatchesChecked (s : State) : Prop :=
  ∀ l ∈ [s.latD, s.latE, s.latM, s.latW], l.valid = true → l.instr.wellFormed s.nregs = true

/-- The invariant under which no step stops without a next state. -/
abbrev State.Sound (s : State) : Prop :=
  s.AtBoundary ∧ s.EngineConsistent ∧ s.StoreChecked ∧ s.LatchesChecked ∧ s.dmem.wf

/-- A pending register has a writer in `E`, `M` or `W` (spec/40_pipeline_stages.md R99: "no register stays pending
forever"). -/
abbrev State.PendingHasWriter (s : State) : Prop :=
  ∀ r : RegIdx, s.avail r = false → s.latE.writes r = true ∨ s.latM.writes r = true ∨ s.latW.writes r = true

/-- A valid latch that holds HALT. -/
def Latch.halts (l : Latch) : Bool := l.valid && decide (l.instr.opcode = .halt)

/-- Nothing younger than a HALT is in the pipeline (spec/40_pipeline_stages.md R102, R108). -/
abbrev State.HaltIsYoungest (s : State) : Prop :=
  (s.latD.halts = true → s.haltFetched = true) ∧
  (s.latE.halts = true → s.haltFetched = true ∧ s.latD.valid = false) ∧
  (s.latM.halts = true → s.haltFetched = true ∧ s.latD.valid = false ∧ s.latE.valid = false) ∧
  (s.latW.halts = true →
    s.haltFetched = true ∧ s.latD.valid = false ∧ s.latE.valid = false ∧ s.latM.valid = false)

/-- The tag R37 gives an instruction that has passed EX but not MEM. -/
def tagAfterEx (i : Instr) : Option RegIdx :=
  if i.opcode.resultProducing && !isLoad i.opcode then some i.fields.rd else none

/-- The tag R37 gives an instruction that has passed MEM. -/
def tagAfterMem (i : Instr) : Option RegIdx :=
  if i.opcode.resultProducing then some i.fields.rd else none

/-- The reset values of spec/10_state.md R45 for the configuration on the pins, less the engine's outputs: registers,
Data Memory, program counter, zero flag, counters, control flags, latches, and the sampled configuration (R200). -/
def State.HasResetValues (t : State) (p : Pins) : Prop :=
  let c := p.config
  t.nregs = c.nregs ∧
  (∀ r : RegIdx, r.toNat < c.nregs → t.x r = c.rfInit.getD r.toNat 0 ∧ t.avail r = true) ∧
  ((c.dmemInit.map Prod.fst).Nodup →
    (∀ q ∈ c.dmemInit, q.1 < c.dmemWords → t.dmemWord q.1 = q.2) ∧
    (∀ a, a ∉ c.dmemInit.map Prod.fst → t.dmemWord a = 0)) ∧
  t.pc = (c.codeBase : Int) ∧ t.zero = false ∧ t.clock = 0 ∧ t.completed = 0 ∧ t.redirectPending = false ∧
  t.haltFetched = false ∧
  t.latF = Latch.reset ∧ t.latD = Latch.reset ∧ t.latE = Latch.reset ∧ t.latM = Latch.reset ∧ t.latW = Latch.reset ∧
  t.istore = c.program ∧ t.maxCycles = c.maxCycles ∧ t.dmemWords = c.dmemWords ∧ t.codeBase = c.codeBase ∧
  t.instrWidth = c.instrWidth ∧ t.pins = p

/-- Every valid latch carries the descriptor tag that R37 gives its instruction there. -/
abbrev State.TagsConsistent (s : State) : Prop :=
  (s.latD.valid = true → s.latD.resTag = none) ∧
  (s.latE.valid = true → s.latE.resTag = none) ∧
  (s.latM.valid = true → s.latM.resTag = tagAfterEx s.latM.instr) ∧
  (s.latW.valid = true → s.latW.resTag = tagAfterMem s.latW.instr)

/-- A valid latch whose instruction has no destination. -/
abbrev Latch.resultFree (l : Latch) : Prop := l.valid = true → l.instr.opcode.resultProducing = false

/-- No stale descriptor can match in a running engine (spec/70_reset_and_hazards.md R213): what stands before a bubble is
a taken branch or a HALT, so the descriptor of an invalid latch is NONE; and the destination of the instruction in `E`,
decoded in the tick before, is still pending. -/
abbrev State.DescriptorsFresh (s : State) : Prop :=
  s.TagsConsistent ∧
  (s.engineState = .running →
    s.redirectPending = false ∧
    (s.haltFetched = true → s.latD.valid = true → s.latD.instr.opcode = .halt) ∧
    (s.latD.valid = false → s.latE.resultFree) ∧
    (s.latE.valid = false → s.latE.resTag = none ∧ s.latM.resultFree) ∧
    (s.latM.valid = false → s.latM.resTag = none ∧ s.latW.resultFree) ∧
    (s.latW.valid = false → s.latW.resTag = none) ∧
    ∀ r : RegIdx, s.latE.writes r = true → s.avail r = false)

/-- How early an instruction can be where it is (spec/40_pipeline_stages.md R105): one latch per tick, so nothing
retires in the first four ticks. A stopped engine may have evaluated one tick more than `clock` counts. -/
abbrev State.LatencyBound (s : State) : Prop :=
  s.completed ≤ s.clock - 3 ∧
  (s.engineState = .running →
    s.completed ≤ s.clock - 4 ∧ (s.latD.valid = true → 1 ≤ s.clock) ∧ (s.latE.valid = true → 2 ≤ s.clock) ∧
      (s.latM.valid = true → 3 ≤ s.clock) ∧ (s.latW.valid = true → 4 ≤ s.clock))

/-! ## Unused fields -/

/-- A packed word with its unused fields at 0; a word that is no record stays as it is (spec/30_encoding.md R73, R76). -/
def canonicalWord (w : PackedWord) : PackedWord :=
  match decode w with
  | .ok i => pack i
  | .error _ => w

/-- A latch with the unused fields of its record at 0. -/
def Latch.canonical (l : Latch) : Latch := { l with instr := l.instr.canonical }

/-- A state with every unused field, in the store and in the latches, at 0. -/
def State.canonical (s : State) : State :=
  { s with
    istore := s.istore.map canonicalWord
    latF := s.latF.canonical
    latD := s.latD.canonical
    latE := s.latE.canonical
    latM := s.latM.canonical
    latW := s.latW.canonical }

/-- An outcome with its next state changed. -/
def mapNext (g : State → State) (o : StepOutcome State) : StepOutcome State :=
  match o with
  | .next s => .next (g s)
  | .fault r => .fault r
  | .refused r => .refused r

/-! ## Sequential semantics -/

/-- What a sequential execution of the records reads and writes: registers, Data Memory, zero flag. -/
structure Arch where
  x : RegIdx → Word
  mem : Nat → Word
  zero : Bool

/-- The registers with one written. -/
def Arch.setReg (a : Arch) (rd : RegIdx) (v : Word) : Arch := { a with x := fun r => if r = rd then v else a.x r }

/-- Data Memory with one word written. -/
def Arch.setMem (a : Arch) (addr : Int) (v : Word) : Arch :=
  { a with mem := fun k => if k = addr.toNat then v else a.mem k }

/-- The effect of an instruction whose operand values are `v1`, `v2`, `v3` (the "Sequential effect" lines of
spec/41_arithmetic.md to spec/45_halt_nop.md, less the program counter). Where the rule raises an error the effect is
not used by any claim. -/
def Arch.effect (i : Instr) (v1 v2 v3 : Word) (a : Arch) : Arch :=
  match i with
  | .add f => a.setReg f.rd (wrap (v1.toInt + v2.toInt))
  | .sub f => a.setReg f.rd (wrap (v1.toInt - v2.toInt))
  | .mul f => a.setReg f.rd (wrap (v1.toInt * v2.toInt))
  | .div f => a.setReg f.rd (wrap (v1.toInt.tdiv v2.toInt))
  | .and f => a.setReg f.rd (v1 &&& v2)
  | .or f => a.setReg f.rd (v1 ||| v2)
  | .xor f => a.setReg f.rd (v1 ^^^ v2)
  | .addl f => a.setReg f.rd (wrap (v1.toInt + f.imm.toInt))
  | .subl f => a.setReg f.rd (wrap (v1.toInt - f.imm.toInt))
  | .movc f => { a.setReg f.rd f.imm with zero := decide (f.imm = 0) }
  | .load f => a.setReg f.rd (a.mem (v1.toInt + f.imm.toInt).toNat)
  | .store f => a.setMem (v2.toInt + f.imm.toInt) v1
  | .ldr f => a.setReg f.rd (a.mem (v1.toInt + v2.toInt).toNat)
  | .str _ => a.setMem (v2.toInt + v3.toInt) v1
  | .cmp _ => { a with zero := decide (v1 = v2) }
  | .bz _ => a
  | .bnz _ => a
  | .halt _ => a
  | .nop _ => a

/-- One record executed sequentially: its operands are the registers as all earlier records left them. -/
def Arch.exec (i : Instr) (a : Arch) : Arch :=
  a.effect i (a.x i.fields.rs1) (a.x i.fields.rs2) (a.x i.fields.rs3)

/-- The committed state. -/
def State.arch (s : State) : Arch := { x := s.x, mem := s.dmemWord, zero := s.zero }

/-- What an instruction in `W` has still to do. -/
def finishWriteback (l : Latch) (a : Arch) : Arch :=
  if l.valid && l.instr.opcode.resultProducing then a.setReg l.instr.fields.rd l.resValue else a

/-- What an instruction in `M` has still to do: its memory access and its commit. -/
def finishMemory (l : Latch) (a : Arch) : Arch :=
  if l.valid then
    if isLoad l.instr.opcode then a.setReg l.instr.fields.rd (a.mem l.memAddress.toNat)
    else if isStore l.instr.opcode then a.setMem l.memAddress l.rs1Value
    else if l.instr.opcode.resultProducing then a.setReg l.instr.fields.rd l.resValue
    else a
  else a

/-- What an instruction in `E` has still to do: everything, with the operands DEC resolved. -/
def finishExecute (l : Latch) (a : Arch) : Arch :=
  if l.valid then a.effect l.instr l.rs1Value l.rs2Value l.rs3Value else a

/-- The state the decoded instructions in flight will have left, oldest first. -/
def State.drain (s : State) : Arch :=
  finishExecute s.latE (finishMemory s.latM (finishWriteback s.latW s.arch))

/-- DEC resolved the sources of `i` to the values `a` has for them. -/
def OperandsAre (i : Instr) (l : Latch) (a : Arch) : Prop :=
  (i.opcode.format.usesRs1 = true → l.rs1Value = a.x i.fields.rs1) ∧
  (i.opcode.format.usesRs2 = true → l.rs2Value = a.x i.fields.rs2) ∧
  (i.opcode.format.usesRs3 = true → l.rs3Value = a.x i.fields.rs3)

/-- Every source of `i` that is register `r` was resolved to `v`. -/
def ReadsAs (i : Instr) (l : Latch) (r : RegIdx) (v : Word) : Prop :=
  (i.opcode.format.usesRs1 = true → i.fields.rs1 = r → l.rs1Value = v) ∧
  (i.opcode.format.usesRs2 = true → i.fields.rs2 = r → l.rs2Value = v) ∧
  (i.opcode.format.usesRs3 = true → i.fields.rs3 = r → l.rs3Value = v)

/-- The condition of spec/70_reset_and_hazards.md R205 for a read of `r` by the instruction in `D`, told from the
state at the start of the tick that decodes it. Distances 1, 2, 3 are `E`, `M`, `W`, and in the row k = 2 "none at
distance 4" is that the register is still pending. The three cases are R205's first two rows, its row k = 2 and its row
k = 1. -/
def ReadIsSafe (cls : OperandClass) (r : RegIdx) (s : State) : Prop :=
  (s.latE.writes r = false ∧ s.latM.writes r = false) ∨
  (s.latE.writes r = false ∧ s.latM.writes r = true ∧ cls = .arith ∧ s.latW.writes r = false ∧ s.avail r = false) ∨
  (s.latE.writes r = true ∧ isLoad s.latE.instr.opcode = false ∧ s.latW.writes r = false ∧
    (cls = .arith → s.latM.writes r = false))

end Sys2Proof.Machine
end

