-- ==== Sys2Proof/Certificates/Slice0/Obligations.lean ====
section
/-! DEFINITION. The statements for the provers. Each docstring names the rules of spec/ it formalises. -/

open Sys2Proof Sys2Proof.Machine

/-! ## Encoding (spec/30_encoding.md R71 to R77) -/

/-- Decoding an encoded record gives the record back, every field at every value (R73 to R75). -/
def Obligations.DecodeOfEncode : Prop :=
  ∀ i : Instr, decode (encode i) = .ok i

/-- A word that decodes is the encoding of what it decodes to: no bit is dropped (R73). -/
def Obligations.EncodeOfDecode : Prop :=
  ∀ (w : PackedWord) (i : Instr), decode w = .ok i → encode i = w

/-- The decoder accepts exactly the words with reserved bits 0 and a tag from 0 to 18 (R71, R77). -/
def Obligations.DecodeAcceptsExactlyTheTags : Prop :=
  ∀ w : PackedWord, (∃ i, decode w = .ok i) ↔ w.extractLsb' 24 3 = 0 ∧ (w.extractLsb' 27 5).toNat ≤ 18

/-- Words of spec/95_test_vectors.md section 2.1 decode to the records written beside them. -/
def Obligations.WordsOfTheSpecDecode : Prop :=
  decode 0x00000000000C1080 = .ok (.add { rd := 3, rs1 := 1, rs2 := 2, rs3 := 0, imm := 0 }) ∧
  decode 0x0000000140041000 = .ok (.subl { rd := 1, rs1 := 1, rs2 := 0, rs3 := 0, imm := 1 }) ∧
  decode 0x0000000358001080 = .ok (.store { rd := 0, rs1 := 1, rs2 := 2, rs3 := 0, imm := 3 }) ∧
  decode 0x000000006800F38D = .ok (.str { rd := 0, rs1 := 15, rs2 := 14, rs3 := 13, imm := 0 }) ∧
  decode 0xFFFFFFF480000000 = .ok (.bnz { rd := 0, rs1 := 0, rs2 := 0, rs3 := 0, imm := BitVec.ofInt 32 (-12) }) ∧
  decode 0x0000000098000000 = .error (.reservedTag 19) ∧
  decode 0x0000000001000000 = .error (.reservedBits 1)

/-- A field that an opcode's format does not use never affects any state: setting every unused field, in the store and
in the latches, to 0 before a step or after it gives the same (R76). -/
def Obligations.UnusedFieldsNeverMatter : Prop :=
  ∀ s : State, s.pins.reset = false → step s.canonical = mapNext State.canonical (step s)

/-- An ill-formed record is never executed, in any stage (R77; the refusal is the model's form of it, log 8). -/
def Obligations.IllFormedIsNeverExecuted : Prop :=
  ∀ (i : Instr) (s : State), i.wellFormed s.nregs = false → exec i s = .refused .illFormedRecord

/-! ## What each instruction does in each stage -/

/-- FETCH of every record (R100): `F` filled and cleared, copied to `D`, `pc` advanced; HALT stops fetching (R102). -/
def Obligations.FetchOfEveryInstruction : Prop :=
  ∀ (i : Instr) (s : State), i.wellFormed s.nregs = true → s.stage = .fetch →
    exec i s = .next
      { s with
        pc := s.pc + (s.instrWidth : Int)
        haltFetched := s.haltFetched || decide (i.opcode = .halt)
        latF := { valid := false, instr := i, pc := s.pc, rs1Value := 0, rs2Value := 0, rs3Value := 0, memAddress := 0,
                  resTag := none, resValue := 0 }
        latD := { valid := true, instr := i, pc := s.pc, rs1Value := 0, rs2Value := 0, rs3Value := 0, memAddress := 0,
                  resTag := none, resValue := 0 } }

/-- ADD, SUB, MUL, AND, OR, XOR in DEC, EX, MEM and WB (spec/41_arithmetic.md R131 to R133, R135 to R137). Each is a
whole next state, so everything it does not name is unchanged. -/
def Obligations.RegisterArithmetic : Prop :=
  ∀ (f : Fields) (s : State) (i : Instr) (v : Word),
    (i, v) ∈ [(Instr.add f, wrap (s.latE.rs1Value.toInt + s.latE.rs2Value.toInt)),
              (Instr.sub f, wrap (s.latE.rs1Value.toInt - s.latE.rs2Value.toInt)),
              (Instr.mul f, wrap (s.latE.rs1Value.toInt * s.latE.rs2Value.toInt)),
              (Instr.and f, s.latE.rs1Value &&& s.latE.rs2Value),
              (Instr.or f, s.latE.rs1Value ||| s.latE.rs2Value),
              (Instr.xor f, s.latE.rs1Value ^^^ s.latE.rs2Value)] →
    i.wellFormed s.nregs = true →
    exec i { s with stage := .dec } = .next
      { s with
        stage := .dec
        rf := s.rf.modify f.rd.toNat (fun c => { c with avail := false })
        latE := { s.latD with rs1Value := resolve .arith f.rs1 s, rs2Value := resolve .arith f.rs2 s }
        latD := { s.latD with
                  valid := false, rs1Value := resolve .arith f.rs1 s, rs2Value := resolve .arith f.rs2 s } } ∧
    exec i { s with stage := .ex } = .next
      { s with
        stage := .ex
        latM := { s.latE with resTag := some f.rd, resValue := v }
        latE := { s.latE with valid := false, resTag := some f.rd, resValue := v } } ∧
    exec i { s with stage := .mem } = .next
      { s with stage := .mem, latW := s.latM, latM := { s.latM with valid := false } } ∧
    exec i { s with stage := .wb } = .next
      { s with
        stage := .wb
        rf := s.rf.modify f.rd.toNat (fun _ => { val := s.latW.resValue, avail := true })
        completed := s.completed + 1
        latW := { s.latW with valid := false } }

/-- DIV in DEC, EX, MEM and WB where R134 gives a quotient: divisor not 0, and not `-2^31` by `-1`. -/
def Obligations.DivCompletes : Prop :=
  ∀ (f : Fields) (s : State), (Instr.div f).wellFormed s.nregs = true →
    exec (.div f) { s with stage := .dec } = .next
      { s with
        stage := .dec
        rf := s.rf.modify f.rd.toNat (fun c => { c with avail := false })
        latE := { s.latD with rs1Value := resolve .arith f.rs1 s, rs2Value := resolve .arith f.rs2 s }
        latD := { s.latD with
                  valid := false, rs1Value := resolve .arith f.rs1 s, rs2Value := resolve .arith f.rs2 s } } ∧
    (s.latE.rs2Value ≠ 0 → ¬ (s.latE.rs1Value.toInt = -2147483648 ∧ s.latE.rs2Value.toInt = -1) →
      ∃ q : Word,
        q.toInt = s.latE.rs1Value.toInt.sign * s.latE.rs2Value.toInt.sign *
          ((s.latE.rs1Value.toInt.natAbs / s.latE.rs2Value.toInt.natAbs : Nat) : Int) ∧
        exec (.div f) { s with stage := .ex } = .next
          { s with
            stage := .ex
            latM := { s.latE with resTag := some f.rd, resValue := q }
            latE := { s.latE with valid := false, resTag := some f.rd, resValue := q } }) ∧
    exec (.div f) { s with stage := .mem } = .next
      { s with stage := .mem, latW := s.latM, latM := { s.latM with valid := false } } ∧
    exec (.div f) { s with stage := .wb } = .next
      { s with
        stage := .wb
        rf := s.rf.modify f.rd.toNat (fun _ => { val := s.latW.resValue, avail := true })
        completed := s.completed + 1
        latW := { s.latW with valid := false } }

/-- DIV in EX where R134 raises ArithmeticError: only the engine state, reason and fault information change (R182, R187). -/
def Obligations.DivTraps : Prop :=
  ∀ (f : Fields) (s : State), (Instr.div f).wellFormed s.nregs = true →
    (s.latE.rs2Value = 0 ∨ (s.latE.rs1Value.toInt = -2147483648 ∧ s.latE.rs2Value.toInt = -1)) →
    exec (.div f) { s with stage := .ex } = .next
      { s with
        stage := .ex
        engineState := .halted
        termReason := .arithmeticError
        faultInfo := .arithmetic s.latE.pc .div }

/-- ADDL and SUBL in DEC, EX, MEM and WB (spec/42_immediate_and_move.md R140, R141). -/
def Obligations.ImmediateArithmetic : Prop :=
  ∀ (f : Fields) (s : State) (i : Instr) (v : Word),
    (i, v) ∈ [(Instr.addl f, wrap (s.latE.rs1Value.toInt + f.imm.toInt)),
              (Instr.subl f, wrap (s.latE.rs1Value.toInt - f.imm.toInt))] →
    i.wellFormed s.nregs = true →
    exec i { s with stage := .dec } = .next
      { s with
        stage := .dec
        rf := s.rf.modify f.rd.toNat (fun c => { c with avail := false })
        latE := { s.latD with rs1Value := resolve .arith f.rs1 s }
        latD := { s.latD with valid := false, rs1Value := resolve .arith f.rs1 s } } ∧
    exec i { s with stage := .ex } = .next
      { s with
        stage := .ex
        latM := { s.latE with resTag := some f.rd, resValue := v }
        latE := { s.latE with valid := false, resTag := some f.rd, resValue := v } } ∧
    exec i { s with stage := .mem } = .next
      { s with stage := .mem, latW := s.latM, latM := { s.latM with valid := false } } ∧
    exec i { s with stage := .wb } = .next
      { s with
        stage := .wb
        rf := s.rf.modify f.rd.toNat (fun _ => { val := s.latW.resValue, avail := true })
        completed := s.completed + 1
        latW := { s.latW with valid := false } }

/-- MOVC in DEC, EX, MEM and WB: no operand resolved, the zero flag written in EX (R142). -/
def Obligations.MoveImmediate : Prop :=
  ∀ (f : Fields) (s : State), (Instr.movc f).wellFormed s.nregs = true →
    exec (.movc f) { s with stage := .dec } = .next
      { s with
        stage := .dec
        rf := s.rf.modify f.rd.toNat (fun c => { c with avail := false })
        latE := s.latD
        latD := { s.latD with valid := false } } ∧
    exec (.movc f) { s with stage := .ex } = .next
      { s with
        stage := .ex
        zero := decide (f.imm = 0)
        latM := { s.latE with resTag := some f.rd, resValue := f.imm }
        latE := { s.latE with valid := false, resTag := some f.rd, resValue := f.imm } } ∧
    exec (.movc f) { s with stage := .mem } = .next
      { s with stage := .mem, latW := s.latM, latM := { s.latM with valid := false } } ∧
    exec (.movc f) { s with stage := .wb } = .next
      { s with
        stage := .wb
        rf := s.rf.modify f.rd.toNat (fun _ => { val := s.latW.resValue, avail := true })
        completed := s.completed + 1
        latW := { s.latW with valid := false } }

/-- LOAD in DEC, EX, MEM (address in range) and WB (spec/43_load_store.md R150, R154). -/
def Obligations.LoadCompletes : Prop :=
  ∀ (f : Fields) (s : State), (Instr.load f).wellFormed s.nregs = true →
    exec (.load f) { s with stage := .dec } = .next
      { s with
        stage := .dec
        rf := s.rf.modify f.rd.toNat (fun c => { c with avail := false })
        latE := { s.latD with rs1Value := resolve .memclass f.rs1 s }
        latD := { s.latD with valid := false, rs1Value := resolve .memclass f.rs1 s } } ∧
    exec (.load f) { s with stage := .ex } = .next
      { s with
        stage := .ex
        latM := { s.latE with memAddress := s.latE.rs1Value.toInt + f.imm.toInt }
        latE := { s.latE with valid := false, memAddress := s.latE.rs1Value.toInt + f.imm.toInt } } ∧
    (0 ≤ s.latM.memAddress → s.latM.memAddress < (s.dmemWords : Int) →
      exec (.load f) { s with stage := .mem } = .next
        { s with
          stage := .mem
          latW := { s.latM with resTag := some f.rd, resValue := s.dmemWord s.latM.memAddress.toNat }
          latM := { s.latM with
                    valid := false, resTag := some f.rd, resValue := s.dmemWord s.latM.memAddress.toNat } }) ∧
    exec (.load f) { s with stage := .wb } = .next
      { s with
        stage := .wb
        rf := s.rf.modify f.rd.toNat (fun _ => { val := s.latW.resValue, avail := true })
        completed := s.completed + 1
        latW := { s.latW with valid := false } }

/-- LDR in DEC, EX, MEM (address in range) and WB (spec/43_load_store.md R152, R154). -/
def Obligations.LdrCompletes : Prop :=
  ∀ (f : Fields) (s : State), (Instr.ldr f).wellFormed s.nregs = true →
    exec (.ldr f) { s with stage := .dec } = .next
      { s with
        stage := .dec
        rf := s.rf.modify f.rd.toNat (fun c => { c with avail := false })
        latE := { s.latD with rs1Value := resolve .memclass f.rs1 s, rs2Value := resolve .memclass f.rs2 s }
        latD := { s.latD with
                  valid := false, rs1Value := resolve .memclass f.rs1 s, rs2Value := resolve .memclass f.rs2 s } } ∧
    exec (.ldr f) { s with stage := .ex } = .next
      { s with
        stage := .ex
        latM := { s.latE with memAddress := s.latE.rs1Value.toInt + s.latE.rs2Value.toInt }
        latE := { s.latE with valid := false, memAddress := s.latE.rs1Value.toInt + s.latE.rs2Value.toInt } } ∧
    (0 ≤ s.latM.memAddress → s.latM.memAddress < (s.dmemWords : Int) →
      exec (.ldr f) { s with stage := .mem } = .next
        { s with
          stage := .mem
          latW := { s.latM with resTag := some f.rd, resValue := s.dmemWord s.latM.memAddress.toNat }
          latM := { s.latM with
                    valid := false, resTag := some f.rd, resValue := s.dmemWord s.latM.memAddress.toNat } }) ∧
    exec (.ldr f) { s with stage := .wb } = .next
      { s with
        stage := .wb
        rf := s.rf.modify f.rd.toNat (fun _ => { val := s.latW.resValue, avail := true })
        completed := s.completed + 1
        latW := { s.latW with valid := false } }

/-- STORE and STR in DEC, EX and WB: value and base (and index) resolved, no availability bit touched, no descriptor
written (R151, R153, R154). -/
def Obligations.StoresOutsideMem : Prop :=
  ∀ (f : Fields) (s : State),
    ((Instr.store f).wellFormed s.nregs = true →
      exec (.store f) { s with stage := .dec } = .next
        { s with
          stage := .dec
          latE := { s.latD with rs1Value := resolve .memclass f.rs1 s, rs2Value := resolve .memclass f.rs2 s }
          latD := { s.latD with
                    valid := false, rs1Value := resolve .memclass f.rs1 s, rs2Value := resolve .memclass f.rs2 s } } ∧
      exec (.store f) { s with stage := .ex } = .next
        { s with
          stage := .ex
          latM := { s.latE with memAddress := s.latE.rs2Value.toInt + f.imm.toInt }
          latE := { s.latE with valid := false, memAddress := s.latE.rs2Value.toInt + f.imm.toInt } } ∧
      exec (.store f) { s with stage := .wb } = .next
        { s with stage := .wb, completed := s.completed + 1, latW := { s.latW with valid := false } }) ∧
    ((Instr.str f).wellFormed s.nregs = true →
      exec (.str f) { s with stage := .dec } = .next
        { s with
          stage := .dec
          latE := { s.latD with
                    rs1Value := resolve .memclass f.rs1 s
                    rs2Value := resolve .memclass f.rs2 s
                    rs3Value := resolve .memclass f.rs3 s }
          latD := { s.latD with
                    valid := false
                    rs1Value := resolve .memclass f.rs1 s
                    rs2Value := resolve .memclass f.rs2 s
                    rs3Value := resolve .memclass f.rs3 s } } ∧
      exec (.str f) { s with stage := .ex } = .next
        { s with
          stage := .ex
          latM := { s.latE with memAddress := s.latE.rs2Value.toInt + s.latE.rs3Value.toInt }
          latE := { s.latE with valid := false, memAddress := s.latE.rs2Value.toInt + s.latE.rs3Value.toInt } } ∧
      exec (.str f) { s with stage := .wb } = .next
        { s with stage := .wb, completed := s.completed + 1, latW := { s.latW with valid := false } })

/-- STORE and STR in MEM with the address in range: the word at `M.mem_address` becomes `M.rs1_value`, every other byte
of memory and everything else but the latch copy is unchanged (R94, R151, R153). -/
def Obligations.StoresWriteOneWord : Prop :=
  ∀ (f : Fields) (s : State) (i : Instr), i ∈ [Instr.store f, Instr.str f] → i.wellFormed s.nregs = true →
    0 ≤ s.latM.memAddress → s.latM.memAddress < (s.dmemWords : Int) →
    ∃ t, exec i { s with stage := .mem } = .next t ∧
      t.dmemWord s.latM.memAddress.toNat = s.latM.rs1Value ∧
      (∀ b : Nat, (b < 4 * s.latM.memAddress.toNat ∨ 4 * s.latM.memAddress.toNat + 3 < b) →
        Memory.readByte t.dmem b = Memory.readByte s.dmem b) ∧
      t = { s with
            stage := .mem
            dmem := t.dmem
            latW := s.latM
            latM := { s.latM with valid := false } }

/-- LOAD, LDR, STORE and STR in MEM with the address out of range raise AddressingError: only the engine state, reason
and fault information change (R51, R183, R187). -/
def Obligations.MemoryOpcodesTrap : Prop :=
  ∀ (f : Fields) (s : State) (i : Instr),
    i ∈ [Instr.load f, Instr.ldr f, Instr.store f, Instr.str f] → i.wellFormed s.nregs = true →
    (s.latM.memAddress < 0 ∨ (s.dmemWords : Int) ≤ s.latM.memAddress) →
    exec i { s with stage := .mem } = .next
      { s with
        stage := .mem
        engineState := .halted
        termReason := .addressingError
        faultInfo := .addressing s.latM.pc i.opcode s.latM.memAddress }

/-- CMP in DEC, EX, MEM and WB (spec/44_compare_and_branch.md R160). -/
def Obligations.CompareSetsZero : Prop :=
  ∀ (f : Fields) (s : State), (Instr.cmp f).wellFormed s.nregs = true →
    exec (.cmp f) { s with stage := .dec } = .next
      { s with
        stage := .dec
        latE := { s.latD with rs1Value := resolve .memclass f.rs1 s, rs2Value := resolve .memclass f.rs2 s }
        latD := { s.latD with
                  valid := false, rs1Value := resolve .memclass f.rs1 s, rs2Value := resolve .memclass f.rs2 s } } ∧
    exec (.cmp f) { s with stage := .ex } = .next
      { s with
        stage := .ex
        zero := decide (s.latE.rs1Value = s.latE.rs2Value)
        latM := s.latE
        latE := { s.latE with valid := false } } ∧
    exec (.cmp f) { s with stage := .mem } = .next
      { s with stage := .mem, latW := s.latM, latM := { s.latM with valid := false } } ∧
    exec (.cmp f) { s with stage := .wb } = .next
      { s with stage := .wb, completed := s.completed + 1, latW := { s.latW with valid := false } }

/-- BZ and BNZ in EX: taken when the zero flag matches (the procedure of R103), else nothing but the latch copy; and in
DEC, MEM and WB (R161, R162). -/
def Obligations.BranchesRedirect : Prop :=
  ∀ (f : Fields) (s : State) (i : Instr) (taken : Bool),
    (i, taken) ∈ [(Instr.bz f, s.zero), (Instr.bnz f, !s.zero)] →
    exec i { s with stage := .dec } = .next
      { s with stage := .dec, latE := s.latD, latD := { s.latD with valid := false } } ∧
    (taken = true → exec i { s with stage := .ex } = .next
      { s with
        stage := .ex
        pc := s.latE.pc + f.imm.toInt
        latD := { s.latD with valid := false }
        redirectPending := true
        haltFetched := false
        latM := s.latE
        latE := { s.latE with valid := false } }) ∧
    (taken = false → exec i { s with stage := .ex } = .next
      { s with stage := .ex, latM := s.latE, latE := { s.latE with valid := false } }) ∧
    exec i { s with stage := .mem } = .next
      { s with stage := .mem, latW := s.latM, latM := { s.latM with valid := false } } ∧
    exec i { s with stage := .wb } = .next
      { s with stage := .wb, completed := s.completed + 1, latW := { s.latW with valid := false } }

/-- HALT and NOP in DEC, EX, MEM and WB: only the latch copies, the count and, for HALT, the signal (R170, R171). -/
def Obligations.HaltAndNop : Prop :=
  ∀ (f : Fields) (s : State) (i : Instr) (signal : Bool),
    (i, signal) ∈ [(Instr.halt f, true), (Instr.nop f, s.haltRetired)] →
    exec i { s with stage := .dec } = .next
      { s with stage := .dec, latE := s.latD, latD := { s.latD with valid := false } } ∧
    exec i { s with stage := .ex } = .next
      { s with stage := .ex, latM := s.latE, latE := { s.latE with valid := false } } ∧
    exec i { s with stage := .mem } = .next
      { s with stage := .mem, latW := s.latM, latM := { s.latM with valid := false } } ∧
    exec i { s with stage := .wb } = .next
      { s with
        stage := .wb
        haltRetired := signal
        completed := s.completed + 1
        latW := { s.latW with valid := false } }

/-! ## The primitives the instructions use -/

/-- `wrap(v)` is the unique word congruent to `v` modulo 2^32 (spec/00_scope.md R8). -/
def Obligations.WrapIsTheCongruentWord : Prop :=
  ∀ (v : Int) (w : Word), w = wrap v ↔ (4294967296 : Int) ∣ w.toInt - v

/-- The resolver (spec/40_pipeline_stages.md R98): Register File if available; else ARITH consults `W` then `E`,
MEMCLASS `M` then `E`, whatever the latches' valid flags; else the Register File word. -/
def Obligations.ResolverPolicy : Prop :=
  ∀ (cls : OperandClass) (r : RegIdx) (s : State),
    resolve cls r s =
      if s.avail r = true then s.x r
      else if cls = .arith ∧ s.latW.resTag = some r then s.latW.resValue
      else if cls = .memclass ∧ s.latM.resTag = some r then s.latM.resValue
      else if s.latE.resTag = some r then s.latE.resValue
      else s.x r

/-- `MemRead` and `MemWrite` (spec/20_memory.md R51): a write in range is what a later read of the word gives, and no
other word changes; out of range both fail. -/
def Obligations.MemoryPrimitives : Prop :=
  ∀ (s : State) (a : Int) (v : Word),
    (0 ≤ a ∧ a < (s.dmemWords : Int) →
      ∃ t, memWrite s a v = some t ∧ t = { s with dmem := t.dmem } ∧
        ∀ b : Int, memRead t b = if b = a then some v else memRead s b) ∧
    (¬ (0 ≤ a ∧ a < (s.dmemWords : Int)) → memWrite s a v = none ∧ memRead s a = none)

/-- `IFetch` (spec/20_memory.md R61): the record at index `k` is what an address `CODE_BASE + k * INSTR_WIDTH` fetches,
and no other address fetches anything. -/
def Obligations.InstructionFetch : Prop :=
  ∀ (s : State) (pc : Int) (w : PackedWord), 1 ≤ s.instrWidth →
    (iFetch s pc = some w ↔
      ∃ k : Nat, pc = (s.codeBase : Int) + (k : Int) * (s.instrWidth : Int) ∧ s.istore[k]? = some w)

/-! ## A step -/

/-- A step runs the decoded instructions: with WB, MEM, EX and DEC having run their latches' instructions through `exec`
(or having nothing to do) and a record decoded at the program counter, the step is `exec` of that record, then the end of
the tick (R91, R100). The clock advances, or a HALT that WB retired stops the engine. -/
def Obligations.StepRunsTheDecodedInstruction : Prop :=
  ∀ (s s1 s2 s3 s4 : State) (w : PackedWord) (i : Instr),
    s.Ticks →
    StageRuns .wb { s with haltRetired := false } s1 → StageRuns .mem s1 s2 → StageRuns .ex s2 s3 → StageRuns .dec s3 s4 →
    s4.redirectPending = false → s4.haltFetched = false → iFetch s4 s4.pc = some w → decode w = .ok i →
    i.wellFormed s4.nregs = true →
    ∃ t, exec i { s4 with stage := .fetch } = .next t ∧
      step s = .next (if t.haltRetired = true then { t with engineState := .halted, termReason := .halt, faultInfo := .none }
                      else { t with clock := t.clock + 1 })

/-- The word `withFetchWord` places is what the next step decodes and puts in `D`, from the reset state (log 2). -/
def Obligations.PlacedWordIsFetchedNext : Prop :=
  ∀ (w : PackedWord) (i : Instr), decode w = .ok i → i.wellFormed 16 = true →
    ∃ t, step (State.reset.withFetchWord 64 w.toNat) = .next t ∧ t.latD = Latch.fetched i 4000 ∧ t.pc = 4004 ∧
      t.engineState = .running ∧ t.clock = 1

/-- Validity at a tick boundary (spec/40_pipeline_stages.md R106), for a tick that raises no error. -/
def Obligations.ValidityAdvancesOneLatch : Prop :=
  ∀ s t : State, s.Ticks → step s = .next t → t.termReason.isTickError = false →
    t.latW.valid = s.latM.valid ∧
    t.latM.valid = s.latE.valid ∧
    t.latE.valid = (s.latD.valid && !takesBranch s) ∧
    t.latD.valid = (!takesBranch s && !s.redirectPending && !s.haltFetched) ∧
    (s.latF.valid = false → t.latF.valid = false)

/-- What DEC gives the instruction in `D` for each source it uses (R96 to R98, R107): the resolver applied to the Register
File after WB, `W` after MEM, and `M` and the descriptor of `E` after EX. It covers the ticks that FETCH abandons. -/
def Obligations.DecodeResolvesOperands : Prop :=
  ∀ (s t : State) (cls : OperandClass), s.Ticks → step s = .next t → ¬ s.RaisesAddressing → ¬ s.RaisesArithmetic →
    s.latD.valid = true → takesBranch s = false → classOf s.latD.instr.opcode = some cls →
    let available := fun r => s.avail r || s.latW.writes r
    let eTag := if s.latE.valid = true then t.latM.resTag else s.latE.resTag
    let eValue := if s.latE.valid = true then t.latM.resValue else s.latE.resValue
    let first := match cls with
      | .arith => t.latW
      | .memclass => t.latM
    let operand := fun r =>
      if available r = true then t.x r
      else if first.resTag = some r then first.resValue
      else if eTag = some r then eValue
      else t.x r
    let i := s.latD.instr
    t.latE.valid = true ∧ t.latE.instr = i ∧ t.latE.pc = s.latD.pc ∧
    (i.opcode.format.usesRs1 = true → t.latE.rs1Value = operand i.fields.rs1) ∧
    (i.opcode.format.usesRs2 = true → t.latE.rs2Value = operand i.fields.rs2) ∧
    (i.opcode.format.usesRs3 = true → t.latE.rs3Value = operand i.fields.rs3)

/-- Oldest wins in the ARITH class (spec/70_reset_and_hazards.md R208): with both predecessors writing `r`, an ARITH
consumer gets the result of the older one, which is in `M` at the start of the tick. -/
def Obligations.OldestProducerWinsInArith : Prop :=
  ∀ (s t : State) (r : RegIdx), s.Ticks → s.TagsConsistent → step s = .next t →
    ¬ s.RaisesAddressing → ¬ s.RaisesArithmetic →
    s.latD.valid = true → classOf s.latD.instr.opcode = some .arith →
    s.latM.writes r = true → s.latE.writes r = true → s.latW.writes r = false → s.avail r = false →
    ReadsAs s.latD.instr t.latE r
      (if isLoad s.latM.instr.opcode = true then s.dmemWord s.latM.memAddress.toNat else s.latM.resValue)

/-- Load-use at distance 1 (R206): the consumer of a LOAD or LDR directly before it gets the stale Register File word,
when no other writer of the register is in flight. Where `M` is a bubble (the load is the first record, or the first at a
branch target) the descriptor left in `W` must be none that matches: R213, the invariant of StepKeepsDescriptorsFresh. -/
def Obligations.LoadUseReadsStale : Prop :=
  ∀ (s t : State) (r : RegIdx), s.Ticks → s.TagsConsistent → (s.latM.valid = false → s.DescriptorsFresh) →
    step s = .next t → ¬ s.RaisesAddressing → ¬ s.RaisesArithmetic →
    s.latD.valid = true → s.latE.writes r = true → isLoad s.latE.instr.opcode = true →
    s.latM.writes r = false → s.latW.writes r = false → s.avail r = false →
    ReadsAs s.latD.instr t.latE r (s.x r)

/-- The MEMCLASS gap at distance 2 (R207): a MEMCLASS consumer of the result in `M` gets the stale Register File word,
whatever the producer, when the instruction between does not write the register. -/
def Obligations.MemclassGapReadsStale : Prop :=
  ∀ (s t : State) (r : RegIdx), s.Ticks → s.TagsConsistent → step s = .next t →
    ¬ s.RaisesAddressing → ¬ s.RaisesArithmetic →
    s.latD.valid = true → classOf s.latD.instr.opcode = some .memclass → takesBranch s = false →
    s.latM.writes r = true → s.latE.valid = true → s.latE.writes r = false → s.latW.writes r = false →
    s.avail r = false →
    ReadsAs s.latD.instr t.latE r (s.x r)

/-- A taken branch (R103, R101, R59): redirect, the instruction in `D` discarded without effect, no fetch in this tick. -/
def Obligations.TakenBranchFlushesOne : Prop :=
  ∀ s : State, s.Ticks → s.LatchesChecked → takesBranch s = true → ¬ s.RaisesAddressing →
    ∃ t, step s = .next t ∧ t.engineState = (if s.latW.halts = true then .halted else .running) ∧
      t.pc = s.latE.pc + s.latE.instr.fields.imm.toInt ∧
      t.latD.valid = false ∧ t.latE.valid = false ∧
      t.redirectPending = false ∧ t.haltFetched = false ∧ t.zero = s.zero ∧
      t.latM = s.latE ∧
      ∀ r, t.avail r = (s.avail r || s.latW.writes r)

/-- AddressingError inside a tick (R183, R187, R188, R192): WB has run, nothing else changes but the engine's outputs;
in particular an instruction in `E` that would raise ArithmeticError is not executed. -/
def Obligations.AddressingErrorStopsTheTick : Prop :=
  ∀ s : State, s.Ticks → s.LatchesChecked → s.RaisesAddressing →
    ∃ t, step s = .next t ∧
      t.engineState = .halted ∧ t.termReason = .addressingError ∧
      t.faultInfo = .addressing s.latM.pc s.latM.instr.opcode s.latM.memAddress ∧
      t.dmem = s.dmem ∧ t.zero = s.zero ∧ t.pc = s.pc ∧ t.clock = s.clock ∧
      t.haltFetched = s.haltFetched ∧ t.redirectPending = s.redirectPending ∧ t.latF = s.latF ∧
      t.latM = s.latM ∧ t.latE = s.latE ∧ t.latD = s.latD ∧ t.latW.valid = false ∧
      t.completed = s.completed + (if s.latW.valid = true then 1 else 0) ∧
      (∀ r, t.x r = if s.latW.writes r = true then s.latW.resValue else s.x r) ∧
      ∀ r, t.avail r = (s.avail r || s.latW.writes r)

/-- ArithmeticError inside a tick (R182, R187, R192): WB and MEM have run, so a store in `M` has written its word and a
load has read its own; the DIV stays in `E`, and its predecessor is in `W` with its result, uncommitted. -/
def Obligations.ArithmeticErrorStopsTheTick : Prop :=
  ∀ s : State, s.Ticks → s.LatchesChecked → ¬ s.RaisesAddressing → s.RaisesArithmetic →
    ∃ t, step s = .next t ∧
      t.engineState = .halted ∧ t.termReason = .arithmeticError ∧ t.faultInfo = .arithmetic s.latE.pc .div ∧
      t.zero = s.zero ∧ t.pc = s.pc ∧ t.clock = s.clock ∧
      t.haltFetched = s.haltFetched ∧ t.redirectPending = s.redirectPending ∧ t.latF = s.latF ∧
      t.latE = s.latE ∧ t.latD = s.latD ∧ t.latM.valid = false ∧
      t.latW.valid = s.latM.valid ∧ (s.latM.valid = true → t.latW = s.latM.loaded s) ∧
      (∀ a : Nat, t.dmemWord a =
        if s.latM.valid = true ∧ isStore s.latM.instr.opcode = true ∧ s.latM.memAddress = (a : Int) then s.latM.rs1Value
        else s.dmemWord a) ∧
      t.completed = s.completed + (if s.latW.valid = true then 1 else 0) ∧
      (∀ r, t.x r = if s.latW.writes r = true then s.latW.resValue else s.x r) ∧
      ∀ r, t.avail r = (s.avail r || s.latW.writes r)

/-- FetchAddressError inside a tick (R184, R187, R62): WB, MEM, EX and DEC have run and all they wrote stands, so the
records of `D`, `E` and `M` are one latch further with what these stages gave them (the operands of the record now in `E`
are those of DecodeResolvesOperands); nothing is fetched. -/
def Obligations.FetchAddressErrorStopsTheTick : Prop :=
  ∀ s : State, s.Ticks → s.LatchesChecked → ¬ s.RaisesAddressing → ¬ s.RaisesArithmetic → takesBranch s = false →
    s.redirectPending = false → s.haltFetched = false → iFetch s s.pc = none →
    ∃ t, step s = .next t ∧
      t.engineState = .halted ∧ t.termReason = .fetchAddressError ∧ t.faultInfo = .fetch s.pc ∧
      t.pc = s.pc ∧ t.clock = s.clock ∧ t.haltFetched = false ∧ t.redirectPending = false ∧
      t.latF = s.latF ∧ t.latD.valid = false ∧
      t.latE.valid = s.latD.valid ∧
      (s.latD.valid = true → t.latE.instr = s.latD.instr ∧ t.latE.pc = s.latD.pc) ∧
      t.latM.valid = s.latE.valid ∧
      (s.latE.valid = true → ∃ u, exec s.latE.instr { s with stage := .ex } = .next u ∧ t.latM = u.latM) ∧
      t.latW.valid = s.latM.valid ∧ (s.latM.valid = true → t.latW = s.latM.loaded s) ∧
      t.zero =
        (if s.latE.valid = true ∧ s.latE.instr.opcode = .movc then decide (s.latE.instr.fields.imm = 0)
         else if s.latE.valid = true ∧ s.latE.instr.opcode = .cmp then decide (s.latE.rs1Value = s.latE.rs2Value)
         else s.zero) ∧
      (∀ a : Nat, t.dmemWord a =
        if s.latM.valid = true ∧ isStore s.latM.instr.opcode = true ∧ s.latM.memAddress = (a : Int) then s.latM.rs1Value
        else s.dmemWord a) ∧
      t.completed = s.completed + (if s.latW.valid = true then 1 else 0) ∧
      (∀ r, t.x r = if s.latW.writes r = true then s.latW.resValue else s.x r) ∧
      ∀ r, t.avail r = (!s.latD.writes r && (s.avail r || s.latW.writes r))

/-- Between ticks: abort before budget, and neither changes anything but the engine's outputs (R90, R185, R186). -/
def Obligations.AbortThenBudget : Prop :=
  ∀ s : State, s.pins.reset = false → s.engineState = .running → s.pins.iterates = true →
    (s.pins.abort = true →
      step s = .next { s with engineState := .halted, termReason := .userAbort, faultInfo := .none }) ∧
    (s.pins.abort = false → s.maxCycles ≤ s.clock →
      step s = .next { s with engineState := .halted, termReason := .resourceExhaustion, faultInfo := .none })

/-- A HALTED engine evaluates no tick until reset, and SINGLE_STEP waits for `step` (R191, R195, R42). -/
def Obligations.HaltedAndWaitingDoNothing : Prop :=
  ∀ s : State, s.pins.reset = false →
    (s.engineState = .halted ∨ (s.pins.runMode = .singleStep ∧ s.pins.step = false)) → step s = .next s

/-- The two run modes produce the same states: a SINGLE_STEP cycle with `step` is a BATCH cycle (R42). -/
def Obligations.SingleStepIsBatch : Prop :=
  ∀ (s t : State), s.pins.runMode = .batch → s.pins.reset = false → step s = .next t →
    step { s with pins := { s.pins with runMode := .singleStep, step := true } } =
      .next { t with pins := { s.pins with runMode := .singleStep, step := true } }

/-- The tick that retires HALT (R91, R170): the engine stops with reason HALT, the clock is not incremented, the HALT is
counted. -/
def Obligations.RetiringHaltStopsTheEngine : Prop :=
  ∀ s : State, s.Ticks → s.HaltIsYoungest → s.latW.halts = true →
    ∃ t, step s = .next t ∧ t.engineState = .halted ∧ t.termReason = .halt ∧ t.clock = s.clock ∧
      t.completed = s.completed + 1 ∧ t.pc = s.pc ∧ t.zero = s.zero ∧ t.dmem = s.dmem ∧ t.rf = s.rf ∧
      t.latD.valid = false ∧ t.latE.valid = false ∧ t.latM.valid = false ∧ t.latW.valid = false

/-! ## Reset -/

/-- Reset with a non-empty store of well-formed records starts a run: every piece of state has the value of R45,
whatever the state before (R200, R201). -/
def Obligations.ResetStartsARun : Prop :=
  ∀ (s : State), s.pins.reset = true → s.pins.config.Legal → s.pins.config.program ≠ [] →
    (∀ w ∈ s.pins.config.program, PackedWord.wellFormed s.pins.config.nregs w = true) →
    ∃ t, step s = .next t ∧ t.HasResetValues s.pins ∧
      t.engineState = .running ∧ t.termReason = .none ∧ t.faultInfo = .none

/-- ConfigurationError (R181): an empty store, or a first ill-formed record at index `k`, halts the engine at reset; all
other state has its reset value. -/
def Obligations.ConfigurationErrorAtReset : Prop :=
  ∀ (s : State), s.pins.reset = true → s.pins.config.Legal →
    (s.pins.config.program = [] →
      ∃ t, step s = .next t ∧ t.HasResetValues s.pins ∧
        t.engineState = .halted ∧ t.termReason = .configurationError ∧ t.faultInfo = .none) ∧
    (∀ (k : Nat) (w : PackedWord), s.pins.config.program[k]? = some w →
      PackedWord.wellFormed s.pins.config.nregs w = false →
      (∀ j v, j < k → s.pins.config.program[j]? = some v → PackedWord.wellFormed s.pins.config.nregs v = true) →
      ∃ t, step s = .next t ∧ t.HasResetValues s.pins ∧
        t.engineState = .halted ∧ t.termReason = .configurationError ∧ t.faultInfo = .record k)

/-- The model's choice of log 6: a reset that samples parameters outside spec/00_scope.md R7 stops by a fault. -/
def Obligations.IllegalParametersFault : Prop :=
  ∀ s : State, s.pins.reset = true → ¬ s.pins.config.Legal → step s = .fault .illegalParameters

/-! ## Who writes what (spec/10_state.md R44) -/

/-- Only reset changes the sampled configuration (R200, R40). That no step changes the pins is the model's choice
(notes/assumptions/3.md), not a rule of the spec. -/
def Obligations.OnlyResetChangesTheConfiguration : Prop :=
  ∀ s t : State, step s = .next t →
    t.pins = s.pins ∧
    (s.pins.reset = false →
      t.istore = s.istore ∧ t.maxCycles = s.maxCycles ∧ t.dmemWords = s.dmemWords ∧ t.codeBase = s.codeBase ∧
      t.instrWidth = s.instrWidth ∧ t.nregs = s.nregs)

/-- Data Memory changes only in the MEM stage of a STORE or STR, and only at the word it addresses (R39, R56). -/
def Obligations.OnlyStoresChangeDataMemory : Prop :=
  ∀ (s t : State) (a : Nat), s.pins.reset = false → step s = .next t → t.dmemWord a ≠ s.dmemWord a →
    s.latM.valid = true ∧ isStore s.latM.instr.opcode = true ∧ s.latM.memAddress = (a : Int) ∧ a < s.dmemWords ∧
    t.dmemWord a = s.latM.rs1Value

/-- The words of the Register File are written only by WB, at `W.rd`, with `W.res_value` (R22, R93). -/
def Obligations.OnlyWritebackWritesRegisters : Prop :=
  ∀ (s t : State) (r : RegIdx), s.Ticks → step s = .next t →
    t.x r = if s.latW.writes r = true then s.latW.resValue else s.x r

/-- An availability bit is set pending by DEC for the destination of a result-producing opcode, and set available by WB;
DEC runs later and wins (R21, R44, R99). DEC runs unless MEM or EX abandons the tick by an error (R187). -/
def Obligations.AvailabilityBitWriters : Prop :=
  ∀ (s t : State) (r : RegIdx), s.Ticks → step s = .next t →
    t.avail r =
      if ¬ s.RaisesAddressing ∧ ¬ s.RaisesArithmetic ∧ takesBranch s = false ∧ s.latD.writes r = true then false
      else if s.latW.writes r = true then true
      else s.avail r

/-- The zero flag is written by EX when it executes MOVC or CMP, and by nothing else (R26), in every tick: EX runs unless
MEM abandons the tick by an error (R187). -/
def Obligations.OnlyMovcAndCmpWriteZero : Prop :=
  ∀ s t : State, s.Ticks → step s = .next t →
    t.zero =
      if s.RaisesAddressing then s.zero
      else if s.latE.valid = true ∧ s.latE.instr.opcode = .movc then decide (s.latE.instr.fields.imm = 0)
      else if s.latE.valid = true ∧ s.latE.instr.opcode = .cmp then decide (s.latE.rs1Value = s.latE.rs2Value)
      else s.zero

/-- The program counter is written by EX on a taken branch or by FETCH, never both (R25). -/
def Obligations.ProgramCounterWriters : Prop :=
  ∀ s t : State, s.Ticks → step s = .next t → t.termReason.isTickError = false →
    t.pc =
      if takesBranch s = true then s.latE.pc + s.latE.instr.fields.imm.toInt
      else if s.redirectPending = true ∨ s.haltFetched = true then s.pc
      else s.pc + (s.instrWidth : Int)

/-- The counters: `completed` counts every retiring instruction; `clock` advances exactly in a tick that neither retires
HALT nor raises an error (R27, R28). -/
def Obligations.CountersCount : Prop :=
  ∀ s t : State, s.Ticks → s.EngineConsistent → step s = .next t →
    t.completed = s.completed + (if s.latW.valid = true then 1 else 0) ∧
    t.clock = s.clock + (if t.engineState = .running then 1 else 0) ∧
    (t.engineState = .halted ↔ s.latW.halts = true ∨ t.termReason.isTickError = true)

/-! ## Invariants -/

/-- The state after reset has every invariant below. -/
def Obligations.ResetStateIsSound : Prop :=
  State.reset.Sound ∧ State.reset.PendingHasWriter ∧ State.reset.HaltIsYoungest ∧ State.reset.TagsConsistent ∧
    State.reset.DescriptorsFresh ∧ State.reset.LatencyBound

/-- Every step keeps: the tick boundary (R29, R38), the engine outputs' consistency (R31), the checked store (R181),
well-formed records in the latches (R77), memory's canonical form. -/
def Obligations.StepKeepsSound : Prop :=
  ∀ s t : State, s.Sound → step s = .next t → t.Sound

/-- From a sound state a step always has a next state: it never faults and never refuses, unless a reset samples
parameters outside R7. -/
def Obligations.SoundStatesNeverStop : Prop :=
  ∀ s : State, s.Sound → (s.pins.reset = true → s.pins.config.Legal) → ∃ t, step s = .next t

/-- Every step keeps: a pending register has a writer in flight (R99). -/
def Obligations.StepKeepsPendingHasWriter : Prop :=
  ∀ s t : State, s.PendingHasWriter → step s = .next t → t.PendingHasWriter

/-- Every step keeps: nothing younger than a HALT is in the pipeline (R102, R104, R108). -/
def Obligations.StepKeepsHaltYoungest : Prop :=
  ∀ s t : State, s.HaltIsYoungest → step s = .next t → t.HaltIsYoungest

/-- Every step keeps: every valid latch carries the descriptor tag of R37. -/
def Obligations.StepKeepsTagsConsistent : Prop :=
  ∀ s t : State, s.TagsConsistent → step s = .next t → t.TagsConsistent

/-- Every step keeps: no stale descriptor can match (spec/70_reset_and_hazards.md R213). -/
def Obligations.StepKeepsDescriptorsFresh : Prop :=
  ∀ s t : State, s.DescriptorsFresh → step s = .next t → t.DescriptorsFresh

/-- Every step keeps the latency bound (R105): nothing retires in the first four ticks. -/
def Obligations.StepKeepsLatencyBound : Prop :=
  ∀ s t : State, s.LatencyBound → step s = .next t → t.LatencyBound

/-- A run that stops by HALT ends with all latches invalid and all availability bits true (R108). -/
def Obligations.HaltLeavesPipelineDrained : Prop :=
  ∀ s t : State, s.Sound → s.HaltIsYoungest → s.PendingHasWriter → s.engineState = .running → s.pins.reset = false →
    step s = .next t → t.termReason = .halt →
    t.latF.valid = false ∧ t.latD.valid = false ∧ t.latE.valid = false ∧ t.latM.valid = false ∧ t.latW.valid = false ∧
    ∀ r, t.avail r = true

/-! ## The pipeline and sequential execution (spec/70_reset_and_hazards.md R204, R205) -/

/-- Every tick without an error is one step of sequential execution, of the instruction it decodes, or none: in terms of
the state the instructions in flight will have left, it executes the record in `D` when the operands DEC resolved are the
sequential ones, and changes nothing when `D` is empty or flushed. -/
def Obligations.TickRefinesSequentialExecution : Prop :=
  ∀ s t : State, s.Ticks → step s = .next t → t.termReason.isTickError = false →
    ((s.latD.valid = false ∨ takesBranch s = true) → t.drain = s.drain) ∧
    (s.latD.valid = true → takesBranch s = false → OperandsAre s.latD.instr t.latE s.drain →
      t.drain = s.drain.exec s.latD.instr)

/-- The hazard condition (R205, the 'if' direction), for each source by itself: a read that meets it gets the sequential
value, whether or not the instruction's other reads meet it. -/
def Obligations.SafeReadsAreSequential : Prop :=
  ∀ (s t : State) (cls : OperandClass), s.Ticks → s.DescriptorsFresh → s.PendingHasWriter → step s = .next t →
    ¬ s.RaisesAddressing → ¬ s.RaisesArithmetic → s.latD.valid = true → takesBranch s = false →
    classOf s.latD.instr.opcode = some cls →
    let i := s.latD.instr
    (i.opcode.format.usesRs1 = true → ReadIsSafe cls i.fields.rs1 s → t.latE.rs1Value = s.drain.x i.fields.rs1) ∧
    (i.opcode.format.usesRs2 = true → ReadIsSafe cls i.fields.rs2 s → t.latE.rs2Value = s.drain.x i.fields.rs2) ∧
    (i.opcode.format.usesRs3 = true → ReadIsSafe cls i.fields.rs3 s → t.latE.rs3Value = s.drain.x i.fields.rs3)
end

