-- ==== Sys2Proof/Laws/Memory.lean ====
section
/-! SUPPORT. The laws of Data Memory: what a write changes, and that every memory operation keeps the canonical form. -/

namespace Sys2Proof.Machine

theorem Memory.readByte_filter_ne (m : Memory) {a b : Nat} (h : b ≠ a) :
    Memory.readByte (m.filter (fun c => c.1 != a)) b = Memory.readByte m b := by
  induction m with
  | nil => rfl
  | cons c m ih =>
    obtain ⟨k, v⟩ := c
    by_cases hk : k = a
    · subst hk
      simp [Memory.readByte, ih, Ne.symm h]
    · simp [Memory.readByte, ih, hk]

theorem Memory.readByte_filter_self (m : Memory) (a : Nat) :
    Memory.readByte (m.filter (fun c => c.1 != a)) a = unlistedByte := by
  induction m with
  | nil => rfl
  | cons c m ih =>
    obtain ⟨k, v⟩ := c
    by_cases hk : k = a
    · simp [hk, ih]
    · simp [Memory.readByte, ih, hk]

theorem Memory.readByte_insert_self {m : Memory} {a : Nat} (h : ∀ c ∈ m, c.1 ≠ a) (v : Byte) :
    Memory.readByte (Memory.insert m a v) a = v := by
  induction m with
  | nil => simp [Memory.insert, Memory.readByte]
  | cons c m ih =>
    obtain ⟨k, w⟩ := c
    have hk : k ≠ a := h (k, w) (by simp)
    by_cases hlt : a < k
    · simp [Memory.insert, Memory.readByte, hlt]
    · simpa [Memory.insert, Memory.readByte, hlt, hk] using ih (fun c hc => h c (by simp [hc]))

theorem Memory.readByte_insert_ne (m : Memory) {a b : Nat} (h : b ≠ a) (v : Byte) :
    Memory.readByte (Memory.insert m a v) b = Memory.readByte m b := by
  induction m with
  | nil => simp [Memory.insert, Memory.readByte, Ne.symm h]
  | cons c m ih =>
    obtain ⟨k, w⟩ := c
    by_cases hlt : a < k
    · simp [Memory.insert, Memory.readByte, hlt, Ne.symm h]
    · simp [Memory.insert, Memory.readByte, hlt, ih]

/-- A byte written reads back; every other byte reads as before. -/
theorem Memory.readByte_writeByte (m : Memory) (a b : Nat) (v : Byte) :
    Memory.readByte (Memory.writeByte m a v) b = if b = a then v else Memory.readByte m b := by
  by_cases hb : b = a
  · subst hb
    by_cases hv : v = unlistedByte
    · simp [Memory.writeByte, hv, Memory.readByte_filter_self]
    · simpa [Memory.writeByte, hv] using
        Memory.readByte_insert_self (m := m.filter (fun c => c.1 != b)) (fun c hc => by simpa using (List.mem_filter.mp hc).2) v
  · by_cases hv : v = unlistedByte
    · simp [Memory.writeByte, hv, hb, Memory.readByte_filter_ne m hb]
    · simp [Memory.writeByte, hv, hb, Memory.readByte_insert_ne _ hb, Memory.readByte_filter_ne m hb]

theorem bytes_of_word (v : Word) :
    v.extractLsb' 24 8 ++ v.extractLsb' 16 8 ++ v.extractLsb' 8 8 ++ v.extractLsb' 0 8 = v := by
  ext i hi
  simp only [BitVec.getElem_append, BitVec.getElem_extractLsb']
  split
  · simp [BitVec.getLsbD_eq_getElem (show i < 32 by omega)]
  · split
    · rw [BitVec.getLsbD_eq_getElem (by omega)]; congr 1; omega
    · split
      · rw [BitVec.getLsbD_eq_getElem (by omega)]; congr 1; omega
      · rw [BitVec.getLsbD_eq_getElem (by omega)]; congr 1; omega

/-- A word written reads back; every other word reads as before. -/
theorem Memory.readWord_writeWord (m : Memory) (a b : Nat) (v : Word) :
    Memory.readWord (Memory.writeWord m a v) b = if b = a then v else Memory.readWord m b := by
  by_cases h : b = a
  · subst h
    have := bytes_of_word v
    simpa [Memory.readWord, Memory.writeWord, Memory.readByte_writeByte] using this
  · simp only [Memory.readWord, Memory.writeWord, Memory.readByte_writeByte, if_neg h]
    have h1 : ∀ i j, i < 4 → j < 4 → 4 * b + i ≠ 4 * a + j := by omega
    have h0 : ∀ j, j < 4 → 4 * b ≠ 4 * a + j := by omega
    have h2 : ∀ i, i < 4 → 4 * b + i ≠ 4 * a := by omega
    have h3 : 4 * b ≠ 4 * a := by omega
    simp [h1, h0, h2, h3]

theorem Memory.mem_insert {m : Memory} {a : Nat} {v : Byte} {c : Host.Cell} :
    c ∈ Memory.insert m a v ↔ c = (a, v) ∨ c ∈ m := by
  induction m with
  | nil => simp [Memory.insert]
  | cons d m ih =>
    obtain ⟨k, w⟩ := d
    by_cases hlt : a < k
    · simp [Memory.insert, hlt]
    · simp [Memory.insert, hlt, ih]
      tauto

theorem Memory.pairwise_insert {m : Memory} {a : Nat} (v : Byte) (hm : m.Pairwise (fun x y => x.1 < y.1))
    (ha : ∀ c ∈ m, c.1 ≠ a) : (Memory.insert m a v).Pairwise (fun x y => x.1 < y.1) := by
  induction m with
  | nil => simp [Memory.insert]
  | cons d m ih =>
    obtain ⟨k, w⟩ := d
    rw [List.pairwise_cons] at hm
    by_cases hlt : a < k
    · simp only [Memory.insert, hlt, if_true, List.pairwise_cons]
      refine ⟨fun c hc => ?_, hm⟩
      rcases List.mem_cons.mp hc with rfl | hc
      · exact hlt
      · exact hlt.trans (hm.1 c hc)
    · have hka : k ≠ a := ha (k, w) (by simp)
      simp only [Memory.insert, hlt, if_false, List.pairwise_cons]
      refine ⟨fun c hc => ?_, ih hm.2 (fun c hc => ha c (by simp [hc]))⟩
      rcases Memory.mem_insert.mp hc with rfl | hc
      · simp only; omega
      · exact hm.1 c hc

/-- Writing a byte keeps the canonical form. -/
theorem Memory.wf_writeByte {m : Memory} (h : m.wf) (a : Nat) (v : Byte) : (Memory.writeByte m a v).wf := by
  have hp : (m.filter (fun c => c.1 != a)).Pairwise (fun x y => x.1 < y.1) := h.1.filter _
  have hu : ∀ c ∈ m.filter (fun c => c.1 != a), c.2 ≠ unlistedByte := fun c hc => h.2 c (List.mem_filter.mp hc).1
  by_cases hv : v = unlistedByte
  · rw [Memory.writeByte, if_pos hv]
    exact ⟨hp, hu⟩
  · simp only [Memory.writeByte, hv, if_false]
    refine ⟨Memory.pairwise_insert v hp (fun c hc => by simpa using (List.mem_filter.mp hc).2), fun c hc => ?_⟩
    rcases Memory.mem_insert.mp hc with rfl | hc
    · exact hv
    · exact hu c hc

/-- Writing a word keeps the canonical form. -/
theorem Memory.wf_writeWord {m : Memory} (h : m.wf) (a : Nat) (v : Word) : (Memory.writeWord m a v).wf :=
  Memory.wf_writeByte (Memory.wf_writeByte (Memory.wf_writeByte (Memory.wf_writeByte h _ _) _ _) _ _) _ _

/-- Initial memory is in canonical form. -/
theorem Memory.wf_ofInit (words : Nat) (init : List (Nat × Word)) : (Memory.ofInit words init).wf := by
  suffices h : ∀ (l : List (Nat × Word)) (m : Memory), m.wf →
      (l.foldl (fun m p => if p.1 < words then Memory.writeWord m p.1 p.2 else m) m).wf from
    h init [] (by decide)
  intro l
  induction l with
  | nil => exact fun m h => h
  | cons p l ih =>
    intro m h
    refine ih _ ?_
    dsimp only
    split
    · exact Memory.wf_writeWord h _ _
    · exact h

/-- `MemWrite` keeps the canonical form. -/
theorem memWrite_wf {s t : State} {a : Int} {v : Word} (h : memWrite s a v = some t) (hw : s.dmem.wf) : t.dmem.wf := by
  unfold memWrite at h
  split at h
  · cases h
    exact Memory.wf_writeWord hw _ _
  · cases h

/-- The memory after reset is in canonical form. -/
theorem reset_dmem_wf : State.reset.dmem.wf := by decide

end Sys2Proof.Machine
end

