-- ==== Sys2Proof/Laws/State.lean ====
section
/-! SUPPORT. One lemma per field per named update of the state, true by rfl, so that no later proof unfolds a
record update. -/

namespace Sys2Proof.Machine

/-! ### commit -/

@[simp] theorem commit_rf (r : RegIdx) (v : Word) (s : State) : (commit r v s).rf = s.rf.modify r.toNat (fun _ => { val := v, avail := true }) := rfl
@[simp] theorem commit_dmem (r : RegIdx) (v : Word) (s : State) : (commit r v s).dmem = s.dmem := rfl
@[simp] theorem commit_pc (r : RegIdx) (v : Word) (s : State) : (commit r v s).pc = s.pc := rfl
@[simp] theorem commit_zero (r : RegIdx) (v : Word) (s : State) : (commit r v s).zero = s.zero := rfl
@[simp] theorem commit_clock (r : RegIdx) (v : Word) (s : State) : (commit r v s).clock = s.clock := rfl
@[simp] theorem commit_completed (r : RegIdx) (v : Word) (s : State) : (commit r v s).completed = s.completed := rfl
@[simp] theorem commit_redirectPending (r : RegIdx) (v : Word) (s : State) : (commit r v s).redirectPending = s.redirectPending := rfl
@[simp] theorem commit_haltFetched (r : RegIdx) (v : Word) (s : State) : (commit r v s).haltFetched = s.haltFetched := rfl
@[simp] theorem commit_haltRetired (r : RegIdx) (v : Word) (s : State) : (commit r v s).haltRetired = s.haltRetired := rfl
@[simp] theorem commit_engineState (r : RegIdx) (v : Word) (s : State) : (commit r v s).engineState = s.engineState := rfl
@[simp] theorem commit_termReason (r : RegIdx) (v : Word) (s : State) : (commit r v s).termReason = s.termReason := rfl
@[simp] theorem commit_faultInfo (r : RegIdx) (v : Word) (s : State) : (commit r v s).faultInfo = s.faultInfo := rfl
@[simp] theorem commit_latF (r : RegIdx) (v : Word) (s : State) : (commit r v s).latF = s.latF := rfl
@[simp] theorem commit_latD (r : RegIdx) (v : Word) (s : State) : (commit r v s).latD = s.latD := rfl
@[simp] theorem commit_latE (r : RegIdx) (v : Word) (s : State) : (commit r v s).latE = s.latE := rfl
@[simp] theorem commit_latM (r : RegIdx) (v : Word) (s : State) : (commit r v s).latM = s.latM := rfl
@[simp] theorem commit_latW (r : RegIdx) (v : Word) (s : State) : (commit r v s).latW = s.latW := rfl
@[simp] theorem commit_istore (r : RegIdx) (v : Word) (s : State) : (commit r v s).istore = s.istore := rfl
@[simp] theorem commit_maxCycles (r : RegIdx) (v : Word) (s : State) : (commit r v s).maxCycles = s.maxCycles := rfl
@[simp] theorem commit_dmemWords (r : RegIdx) (v : Word) (s : State) : (commit r v s).dmemWords = s.dmemWords := rfl
@[simp] theorem commit_codeBase (r : RegIdx) (v : Word) (s : State) : (commit r v s).codeBase = s.codeBase := rfl
@[simp] theorem commit_instrWidth (r : RegIdx) (v : Word) (s : State) : (commit r v s).instrWidth = s.instrWidth := rfl
@[simp] theorem commit_pins (r : RegIdx) (v : Word) (s : State) : (commit r v s).pins = s.pins := rfl
@[simp] theorem commit_stage (r : RegIdx) (v : Word) (s : State) : (commit r v s).stage = s.stage := rfl

/-! ### markPending -/

@[simp] theorem markPending_rf (r : RegIdx) (s : State) : (markPending r s).rf = s.rf.modify r.toNat (fun c => { c with avail := false }) := rfl
@[simp] theorem markPending_dmem (r : RegIdx) (s : State) : (markPending r s).dmem = s.dmem := rfl
@[simp] theorem markPending_pc (r : RegIdx) (s : State) : (markPending r s).pc = s.pc := rfl
@[simp] theorem markPending_zero (r : RegIdx) (s : State) : (markPending r s).zero = s.zero := rfl
@[simp] theorem markPending_clock (r : RegIdx) (s : State) : (markPending r s).clock = s.clock := rfl
@[simp] theorem markPending_completed (r : RegIdx) (s : State) : (markPending r s).completed = s.completed := rfl
@[simp] theorem markPending_redirectPending (r : RegIdx) (s : State) : (markPending r s).redirectPending = s.redirectPending := rfl
@[simp] theorem markPending_haltFetched (r : RegIdx) (s : State) : (markPending r s).haltFetched = s.haltFetched := rfl
@[simp] theorem markPending_haltRetired (r : RegIdx) (s : State) : (markPending r s).haltRetired = s.haltRetired := rfl
@[simp] theorem markPending_engineState (r : RegIdx) (s : State) : (markPending r s).engineState = s.engineState := rfl
@[simp] theorem markPending_termReason (r : RegIdx) (s : State) : (markPending r s).termReason = s.termReason := rfl
@[simp] theorem markPending_faultInfo (r : RegIdx) (s : State) : (markPending r s).faultInfo = s.faultInfo := rfl
@[simp] theorem markPending_latF (r : RegIdx) (s : State) : (markPending r s).latF = s.latF := rfl
@[simp] theorem markPending_latD (r : RegIdx) (s : State) : (markPending r s).latD = s.latD := rfl
@[simp] theorem markPending_latE (r : RegIdx) (s : State) : (markPending r s).latE = s.latE := rfl
@[simp] theorem markPending_latM (r : RegIdx) (s : State) : (markPending r s).latM = s.latM := rfl
@[simp] theorem markPending_latW (r : RegIdx) (s : State) : (markPending r s).latW = s.latW := rfl
@[simp] theorem markPending_istore (r : RegIdx) (s : State) : (markPending r s).istore = s.istore := rfl
@[simp] theorem markPending_maxCycles (r : RegIdx) (s : State) : (markPending r s).maxCycles = s.maxCycles := rfl
@[simp] theorem markPending_dmemWords (r : RegIdx) (s : State) : (markPending r s).dmemWords = s.dmemWords := rfl
@[simp] theorem markPending_codeBase (r : RegIdx) (s : State) : (markPending r s).codeBase = s.codeBase := rfl
@[simp] theorem markPending_instrWidth (r : RegIdx) (s : State) : (markPending r s).instrWidth = s.instrWidth := rfl
@[simp] theorem markPending_pins (r : RegIdx) (s : State) : (markPending r s).pins = s.pins := rfl
@[simp] theorem markPending_stage (r : RegIdx) (s : State) : (markPending r s).stage = s.stage := rfl

/-! ### stopWith -/

@[simp] theorem stopWith_rf (reason : TermReason) (info : FaultInfo) (s : State) : (stopWith reason info s).rf = s.rf := rfl
@[simp] theorem stopWith_dmem (reason : TermReason) (info : FaultInfo) (s : State) : (stopWith reason info s).dmem = s.dmem := rfl
@[simp] theorem stopWith_pc (reason : TermReason) (info : FaultInfo) (s : State) : (stopWith reason info s).pc = s.pc := rfl
@[simp] theorem stopWith_zero (reason : TermReason) (info : FaultInfo) (s : State) : (stopWith reason info s).zero = s.zero := rfl
@[simp] theorem stopWith_clock (reason : TermReason) (info : FaultInfo) (s : State) : (stopWith reason info s).clock = s.clock := rfl
@[simp] theorem stopWith_completed (reason : TermReason) (info : FaultInfo) (s : State) : (stopWith reason info s).completed = s.completed := rfl
@[simp] theorem stopWith_redirectPending (reason : TermReason) (info : FaultInfo) (s : State) : (stopWith reason info s).redirectPending = s.redirectPending := rfl
@[simp] theorem stopWith_haltFetched (reason : TermReason) (info : FaultInfo) (s : State) : (stopWith reason info s).haltFetched = s.haltFetched := rfl
@[simp] theorem stopWith_haltRetired (reason : TermReason) (info : FaultInfo) (s : State) : (stopWith reason info s).haltRetired = s.haltRetired := rfl
@[simp] theorem stopWith_engineState (reason : TermReason) (info : FaultInfo) (s : State) : (stopWith reason info s).engineState = .halted := rfl
@[simp] theorem stopWith_termReason (reason : TermReason) (info : FaultInfo) (s : State) : (stopWith reason info s).termReason = reason := rfl
@[simp] theorem stopWith_faultInfo (reason : TermReason) (info : FaultInfo) (s : State) : (stopWith reason info s).faultInfo = info := rfl
@[simp] theorem stopWith_latF (reason : TermReason) (info : FaultInfo) (s : State) : (stopWith reason info s).latF = s.latF := rfl
@[simp] theorem stopWith_latD (reason : TermReason) (info : FaultInfo) (s : State) : (stopWith reason info s).latD = s.latD := rfl
@[simp] theorem stopWith_latE (reason : TermReason) (info : FaultInfo) (s : State) : (stopWith reason info s).latE = s.latE := rfl
@[simp] theorem stopWith_latM (reason : TermReason) (info : FaultInfo) (s : State) : (stopWith reason info s).latM = s.latM := rfl
@[simp] theorem stopWith_latW (reason : TermReason) (info : FaultInfo) (s : State) : (stopWith reason info s).latW = s.latW := rfl
@[simp] theorem stopWith_istore (reason : TermReason) (info : FaultInfo) (s : State) : (stopWith reason info s).istore = s.istore := rfl
@[simp] theorem stopWith_maxCycles (reason : TermReason) (info : FaultInfo) (s : State) : (stopWith reason info s).maxCycles = s.maxCycles := rfl
@[simp] theorem stopWith_dmemWords (reason : TermReason) (info : FaultInfo) (s : State) : (stopWith reason info s).dmemWords = s.dmemWords := rfl
@[simp] theorem stopWith_codeBase (reason : TermReason) (info : FaultInfo) (s : State) : (stopWith reason info s).codeBase = s.codeBase := rfl
@[simp] theorem stopWith_instrWidth (reason : TermReason) (info : FaultInfo) (s : State) : (stopWith reason info s).instrWidth = s.instrWidth := rfl
@[simp] theorem stopWith_pins (reason : TermReason) (info : FaultInfo) (s : State) : (stopWith reason info s).pins = s.pins := rfl
@[simp] theorem stopWith_stage (reason : TermReason) (info : FaultInfo) (s : State) : (stopWith reason info s).stage = s.stage := rfl

/-! ### fillFetch -/

@[simp] theorem fillFetch_rf (i : Instr) (s : State) : (fillFetch i s).rf = s.rf := rfl
@[simp] theorem fillFetch_dmem (i : Instr) (s : State) : (fillFetch i s).dmem = s.dmem := rfl
@[simp] theorem fillFetch_pc (i : Instr) (s : State) : (fillFetch i s).pc = s.pc + (s.instrWidth : Int) := rfl
@[simp] theorem fillFetch_zero (i : Instr) (s : State) : (fillFetch i s).zero = s.zero := rfl
@[simp] theorem fillFetch_clock (i : Instr) (s : State) : (fillFetch i s).clock = s.clock := rfl
@[simp] theorem fillFetch_completed (i : Instr) (s : State) : (fillFetch i s).completed = s.completed := rfl
@[simp] theorem fillFetch_redirectPending (i : Instr) (s : State) : (fillFetch i s).redirectPending = s.redirectPending := rfl
@[simp] theorem fillFetch_haltFetched (i : Instr) (s : State) : (fillFetch i s).haltFetched = s.haltFetched := rfl
@[simp] theorem fillFetch_haltRetired (i : Instr) (s : State) : (fillFetch i s).haltRetired = s.haltRetired := rfl
@[simp] theorem fillFetch_engineState (i : Instr) (s : State) : (fillFetch i s).engineState = s.engineState := rfl
@[simp] theorem fillFetch_termReason (i : Instr) (s : State) : (fillFetch i s).termReason = s.termReason := rfl
@[simp] theorem fillFetch_faultInfo (i : Instr) (s : State) : (fillFetch i s).faultInfo = s.faultInfo := rfl
@[simp] theorem fillFetch_latF (i : Instr) (s : State) : (fillFetch i s).latF = Latch.fetched i s.pc := rfl
@[simp] theorem fillFetch_latD (i : Instr) (s : State) : (fillFetch i s).latD = s.latD := rfl
@[simp] theorem fillFetch_latE (i : Instr) (s : State) : (fillFetch i s).latE = s.latE := rfl
@[simp] theorem fillFetch_latM (i : Instr) (s : State) : (fillFetch i s).latM = s.latM := rfl
@[simp] theorem fillFetch_latW (i : Instr) (s : State) : (fillFetch i s).latW = s.latW := rfl
@[simp] theorem fillFetch_istore (i : Instr) (s : State) : (fillFetch i s).istore = s.istore := rfl
@[simp] theorem fillFetch_maxCycles (i : Instr) (s : State) : (fillFetch i s).maxCycles = s.maxCycles := rfl
@[simp] theorem fillFetch_dmemWords (i : Instr) (s : State) : (fillFetch i s).dmemWords = s.dmemWords := rfl
@[simp] theorem fillFetch_codeBase (i : Instr) (s : State) : (fillFetch i s).codeBase = s.codeBase := rfl
@[simp] theorem fillFetch_instrWidth (i : Instr) (s : State) : (fillFetch i s).instrWidth = s.instrWidth := rfl
@[simp] theorem fillFetch_pins (i : Instr) (s : State) : (fillFetch i s).pins = s.pins := rfl
@[simp] theorem fillFetch_stage (i : Instr) (s : State) : (fillFetch i s).stage = s.stage := rfl

/-! ### fetchToDecode -/

@[simp] theorem fetchToDecode_rf (s : State) : (fetchToDecode s).rf = s.rf := rfl
@[simp] theorem fetchToDecode_dmem (s : State) : (fetchToDecode s).dmem = s.dmem := rfl
@[simp] theorem fetchToDecode_pc (s : State) : (fetchToDecode s).pc = s.pc := rfl
@[simp] theorem fetchToDecode_zero (s : State) : (fetchToDecode s).zero = s.zero := rfl
@[simp] theorem fetchToDecode_clock (s : State) : (fetchToDecode s).clock = s.clock := rfl
@[simp] theorem fetchToDecode_completed (s : State) : (fetchToDecode s).completed = s.completed := rfl
@[simp] theorem fetchToDecode_redirectPending (s : State) : (fetchToDecode s).redirectPending = s.redirectPending := rfl
@[simp] theorem fetchToDecode_haltFetched (s : State) : (fetchToDecode s).haltFetched = s.haltFetched := rfl
@[simp] theorem fetchToDecode_haltRetired (s : State) : (fetchToDecode s).haltRetired = s.haltRetired := rfl
@[simp] theorem fetchToDecode_engineState (s : State) : (fetchToDecode s).engineState = s.engineState := rfl
@[simp] theorem fetchToDecode_termReason (s : State) : (fetchToDecode s).termReason = s.termReason := rfl
@[simp] theorem fetchToDecode_faultInfo (s : State) : (fetchToDecode s).faultInfo = s.faultInfo := rfl
@[simp] theorem fetchToDecode_latF (s : State) : (fetchToDecode s).latF = s.latF.cleared := rfl
@[simp] theorem fetchToDecode_latD (s : State) : (fetchToDecode s).latD = s.latF := rfl
@[simp] theorem fetchToDecode_latE (s : State) : (fetchToDecode s).latE = s.latE := rfl
@[simp] theorem fetchToDecode_latM (s : State) : (fetchToDecode s).latM = s.latM := rfl
@[simp] theorem fetchToDecode_latW (s : State) : (fetchToDecode s).latW = s.latW := rfl
@[simp] theorem fetchToDecode_istore (s : State) : (fetchToDecode s).istore = s.istore := rfl
@[simp] theorem fetchToDecode_maxCycles (s : State) : (fetchToDecode s).maxCycles = s.maxCycles := rfl
@[simp] theorem fetchToDecode_dmemWords (s : State) : (fetchToDecode s).dmemWords = s.dmemWords := rfl
@[simp] theorem fetchToDecode_codeBase (s : State) : (fetchToDecode s).codeBase = s.codeBase := rfl
@[simp] theorem fetchToDecode_instrWidth (s : State) : (fetchToDecode s).instrWidth = s.instrWidth := rfl
@[simp] theorem fetchToDecode_pins (s : State) : (fetchToDecode s).pins = s.pins := rfl
@[simp] theorem fetchToDecode_stage (s : State) : (fetchToDecode s).stage = s.stage := rfl

/-! ### decodeToExecute -/

@[simp] theorem decodeToExecute_rf (s : State) : (decodeToExecute s).rf = s.rf := rfl
@[simp] theorem decodeToExecute_dmem (s : State) : (decodeToExecute s).dmem = s.dmem := rfl
@[simp] theorem decodeToExecute_pc (s : State) : (decodeToExecute s).pc = s.pc := rfl
@[simp] theorem decodeToExecute_zero (s : State) : (decodeToExecute s).zero = s.zero := rfl
@[simp] theorem decodeToExecute_clock (s : State) : (decodeToExecute s).clock = s.clock := rfl
@[simp] theorem decodeToExecute_completed (s : State) : (decodeToExecute s).completed = s.completed := rfl
@[simp] theorem decodeToExecute_redirectPending (s : State) : (decodeToExecute s).redirectPending = s.redirectPending := rfl
@[simp] theorem decodeToExecute_haltFetched (s : State) : (decodeToExecute s).haltFetched = s.haltFetched := rfl
@[simp] theorem decodeToExecute_haltRetired (s : State) : (decodeToExecute s).haltRetired = s.haltRetired := rfl
@[simp] theorem decodeToExecute_engineState (s : State) : (decodeToExecute s).engineState = s.engineState := rfl
@[simp] theorem decodeToExecute_termReason (s : State) : (decodeToExecute s).termReason = s.termReason := rfl
@[simp] theorem decodeToExecute_faultInfo (s : State) : (decodeToExecute s).faultInfo = s.faultInfo := rfl
@[simp] theorem decodeToExecute_latF (s : State) : (decodeToExecute s).latF = s.latF := rfl
@[simp] theorem decodeToExecute_latD (s : State) : (decodeToExecute s).latD = s.latD.cleared := rfl
@[simp] theorem decodeToExecute_latE (s : State) : (decodeToExecute s).latE = s.latD := rfl
@[simp] theorem decodeToExecute_latM (s : State) : (decodeToExecute s).latM = s.latM := rfl
@[simp] theorem decodeToExecute_latW (s : State) : (decodeToExecute s).latW = s.latW := rfl
@[simp] theorem decodeToExecute_istore (s : State) : (decodeToExecute s).istore = s.istore := rfl
@[simp] theorem decodeToExecute_maxCycles (s : State) : (decodeToExecute s).maxCycles = s.maxCycles := rfl
@[simp] theorem decodeToExecute_dmemWords (s : State) : (decodeToExecute s).dmemWords = s.dmemWords := rfl
@[simp] theorem decodeToExecute_codeBase (s : State) : (decodeToExecute s).codeBase = s.codeBase := rfl
@[simp] theorem decodeToExecute_instrWidth (s : State) : (decodeToExecute s).instrWidth = s.instrWidth := rfl
@[simp] theorem decodeToExecute_pins (s : State) : (decodeToExecute s).pins = s.pins := rfl
@[simp] theorem decodeToExecute_stage (s : State) : (decodeToExecute s).stage = s.stage := rfl

/-! ### executeToMemory -/

@[simp] theorem executeToMemory_rf (s : State) : (executeToMemory s).rf = s.rf := rfl
@[simp] theorem executeToMemory_dmem (s : State) : (executeToMemory s).dmem = s.dmem := rfl
@[simp] theorem executeToMemory_pc (s : State) : (executeToMemory s).pc = s.pc := rfl
@[simp] theorem executeToMemory_zero (s : State) : (executeToMemory s).zero = s.zero := rfl
@[simp] theorem executeToMemory_clock (s : State) : (executeToMemory s).clock = s.clock := rfl
@[simp] theorem executeToMemory_completed (s : State) : (executeToMemory s).completed = s.completed := rfl
@[simp] theorem executeToMemory_redirectPending (s : State) : (executeToMemory s).redirectPending = s.redirectPending := rfl
@[simp] theorem executeToMemory_haltFetched (s : State) : (executeToMemory s).haltFetched = s.haltFetched := rfl
@[simp] theorem executeToMemory_haltRetired (s : State) : (executeToMemory s).haltRetired = s.haltRetired := rfl
@[simp] theorem executeToMemory_engineState (s : State) : (executeToMemory s).engineState = s.engineState := rfl
@[simp] theorem executeToMemory_termReason (s : State) : (executeToMemory s).termReason = s.termReason := rfl
@[simp] theorem executeToMemory_faultInfo (s : State) : (executeToMemory s).faultInfo = s.faultInfo := rfl
@[simp] theorem executeToMemory_latF (s : State) : (executeToMemory s).latF = s.latF := rfl
@[simp] theorem executeToMemory_latD (s : State) : (executeToMemory s).latD = s.latD := rfl
@[simp] theorem executeToMemory_latE (s : State) : (executeToMemory s).latE = s.latE.cleared := rfl
@[simp] theorem executeToMemory_latM (s : State) : (executeToMemory s).latM = s.latE := rfl
@[simp] theorem executeToMemory_latW (s : State) : (executeToMemory s).latW = s.latW := rfl
@[simp] theorem executeToMemory_istore (s : State) : (executeToMemory s).istore = s.istore := rfl
@[simp] theorem executeToMemory_maxCycles (s : State) : (executeToMemory s).maxCycles = s.maxCycles := rfl
@[simp] theorem executeToMemory_dmemWords (s : State) : (executeToMemory s).dmemWords = s.dmemWords := rfl
@[simp] theorem executeToMemory_codeBase (s : State) : (executeToMemory s).codeBase = s.codeBase := rfl
@[simp] theorem executeToMemory_instrWidth (s : State) : (executeToMemory s).instrWidth = s.instrWidth := rfl
@[simp] theorem executeToMemory_pins (s : State) : (executeToMemory s).pins = s.pins := rfl
@[simp] theorem executeToMemory_stage (s : State) : (executeToMemory s).stage = s.stage := rfl

/-! ### memoryToWriteback -/

@[simp] theorem memoryToWriteback_rf (s : State) : (memoryToWriteback s).rf = s.rf := rfl
@[simp] theorem memoryToWriteback_dmem (s : State) : (memoryToWriteback s).dmem = s.dmem := rfl
@[simp] theorem memoryToWriteback_pc (s : State) : (memoryToWriteback s).pc = s.pc := rfl
@[simp] theorem memoryToWriteback_zero (s : State) : (memoryToWriteback s).zero = s.zero := rfl
@[simp] theorem memoryToWriteback_clock (s : State) : (memoryToWriteback s).clock = s.clock := rfl
@[simp] theorem memoryToWriteback_completed (s : State) : (memoryToWriteback s).completed = s.completed := rfl
@[simp] theorem memoryToWriteback_redirectPending (s : State) : (memoryToWriteback s).redirectPending = s.redirectPending := rfl
@[simp] theorem memoryToWriteback_haltFetched (s : State) : (memoryToWriteback s).haltFetched = s.haltFetched := rfl
@[simp] theorem memoryToWriteback_haltRetired (s : State) : (memoryToWriteback s).haltRetired = s.haltRetired := rfl
@[simp] theorem memoryToWriteback_engineState (s : State) : (memoryToWriteback s).engineState = s.engineState := rfl
@[simp] theorem memoryToWriteback_termReason (s : State) : (memoryToWriteback s).termReason = s.termReason := rfl
@[simp] theorem memoryToWriteback_faultInfo (s : State) : (memoryToWriteback s).faultInfo = s.faultInfo := rfl
@[simp] theorem memoryToWriteback_latF (s : State) : (memoryToWriteback s).latF = s.latF := rfl
@[simp] theorem memoryToWriteback_latD (s : State) : (memoryToWriteback s).latD = s.latD := rfl
@[simp] theorem memoryToWriteback_latE (s : State) : (memoryToWriteback s).latE = s.latE := rfl
@[simp] theorem memoryToWriteback_latM (s : State) : (memoryToWriteback s).latM = s.latM.cleared := rfl
@[simp] theorem memoryToWriteback_latW (s : State) : (memoryToWriteback s).latW = s.latM := rfl
@[simp] theorem memoryToWriteback_istore (s : State) : (memoryToWriteback s).istore = s.istore := rfl
@[simp] theorem memoryToWriteback_maxCycles (s : State) : (memoryToWriteback s).maxCycles = s.maxCycles := rfl
@[simp] theorem memoryToWriteback_dmemWords (s : State) : (memoryToWriteback s).dmemWords = s.dmemWords := rfl
@[simp] theorem memoryToWriteback_codeBase (s : State) : (memoryToWriteback s).codeBase = s.codeBase := rfl
@[simp] theorem memoryToWriteback_instrWidth (s : State) : (memoryToWriteback s).instrWidth = s.instrWidth := rfl
@[simp] theorem memoryToWriteback_pins (s : State) : (memoryToWriteback s).pins = s.pins := rfl
@[simp] theorem memoryToWriteback_stage (s : State) : (memoryToWriteback s).stage = s.stage := rfl

/-! ### retire -/

@[simp] theorem retire_rf (s : State) : (retire s).rf = s.rf := rfl
@[simp] theorem retire_dmem (s : State) : (retire s).dmem = s.dmem := rfl
@[simp] theorem retire_pc (s : State) : (retire s).pc = s.pc := rfl
@[simp] theorem retire_zero (s : State) : (retire s).zero = s.zero := rfl
@[simp] theorem retire_clock (s : State) : (retire s).clock = s.clock := rfl
@[simp] theorem retire_completed (s : State) : (retire s).completed = s.completed + 1 := rfl
@[simp] theorem retire_redirectPending (s : State) : (retire s).redirectPending = s.redirectPending := rfl
@[simp] theorem retire_haltFetched (s : State) : (retire s).haltFetched = s.haltFetched := rfl
@[simp] theorem retire_haltRetired (s : State) : (retire s).haltRetired = s.haltRetired := rfl
@[simp] theorem retire_engineState (s : State) : (retire s).engineState = s.engineState := rfl
@[simp] theorem retire_termReason (s : State) : (retire s).termReason = s.termReason := rfl
@[simp] theorem retire_faultInfo (s : State) : (retire s).faultInfo = s.faultInfo := rfl
@[simp] theorem retire_latF (s : State) : (retire s).latF = s.latF := rfl
@[simp] theorem retire_latD (s : State) : (retire s).latD = s.latD := rfl
@[simp] theorem retire_latE (s : State) : (retire s).latE = s.latE := rfl
@[simp] theorem retire_latM (s : State) : (retire s).latM = s.latM := rfl
@[simp] theorem retire_latW (s : State) : (retire s).latW = s.latW.cleared := rfl
@[simp] theorem retire_istore (s : State) : (retire s).istore = s.istore := rfl
@[simp] theorem retire_maxCycles (s : State) : (retire s).maxCycles = s.maxCycles := rfl
@[simp] theorem retire_dmemWords (s : State) : (retire s).dmemWords = s.dmemWords := rfl
@[simp] theorem retire_codeBase (s : State) : (retire s).codeBase = s.codeBase := rfl
@[simp] theorem retire_instrWidth (s : State) : (retire s).instrWidth = s.instrWidth := rfl
@[simp] theorem retire_pins (s : State) : (retire s).pins = s.pins := rfl
@[simp] theorem retire_stage (s : State) : (retire s).stage = s.stage := rfl

/-! ### setResult -/

@[simp] theorem setResult_rf (rd : RegIdx) (v : Word) (s : State) : (setResult rd v s).rf = s.rf := rfl
@[simp] theorem setResult_dmem (rd : RegIdx) (v : Word) (s : State) : (setResult rd v s).dmem = s.dmem := rfl
@[simp] theorem setResult_pc (rd : RegIdx) (v : Word) (s : State) : (setResult rd v s).pc = s.pc := rfl
@[simp] theorem setResult_zero (rd : RegIdx) (v : Word) (s : State) : (setResult rd v s).zero = s.zero := rfl
@[simp] theorem setResult_clock (rd : RegIdx) (v : Word) (s : State) : (setResult rd v s).clock = s.clock := rfl
@[simp] theorem setResult_completed (rd : RegIdx) (v : Word) (s : State) : (setResult rd v s).completed = s.completed := rfl
@[simp] theorem setResult_redirectPending (rd : RegIdx) (v : Word) (s : State) : (setResult rd v s).redirectPending = s.redirectPending := rfl
@[simp] theorem setResult_haltFetched (rd : RegIdx) (v : Word) (s : State) : (setResult rd v s).haltFetched = s.haltFetched := rfl
@[simp] theorem setResult_haltRetired (rd : RegIdx) (v : Word) (s : State) : (setResult rd v s).haltRetired = s.haltRetired := rfl
@[simp] theorem setResult_engineState (rd : RegIdx) (v : Word) (s : State) : (setResult rd v s).engineState = s.engineState := rfl
@[simp] theorem setResult_termReason (rd : RegIdx) (v : Word) (s : State) : (setResult rd v s).termReason = s.termReason := rfl
@[simp] theorem setResult_faultInfo (rd : RegIdx) (v : Word) (s : State) : (setResult rd v s).faultInfo = s.faultInfo := rfl
@[simp] theorem setResult_latF (rd : RegIdx) (v : Word) (s : State) : (setResult rd v s).latF = s.latF := rfl
@[simp] theorem setResult_latD (rd : RegIdx) (v : Word) (s : State) : (setResult rd v s).latD = s.latD := rfl
@[simp] theorem setResult_latE (rd : RegIdx) (v : Word) (s : State) : (setResult rd v s).latE = { s.latE with resTag := some rd, resValue := v } := rfl
@[simp] theorem setResult_latM (rd : RegIdx) (v : Word) (s : State) : (setResult rd v s).latM = s.latM := rfl
@[simp] theorem setResult_latW (rd : RegIdx) (v : Word) (s : State) : (setResult rd v s).latW = s.latW := rfl
@[simp] theorem setResult_istore (rd : RegIdx) (v : Word) (s : State) : (setResult rd v s).istore = s.istore := rfl
@[simp] theorem setResult_maxCycles (rd : RegIdx) (v : Word) (s : State) : (setResult rd v s).maxCycles = s.maxCycles := rfl
@[simp] theorem setResult_dmemWords (rd : RegIdx) (v : Word) (s : State) : (setResult rd v s).dmemWords = s.dmemWords := rfl
@[simp] theorem setResult_codeBase (rd : RegIdx) (v : Word) (s : State) : (setResult rd v s).codeBase = s.codeBase := rfl
@[simp] theorem setResult_instrWidth (rd : RegIdx) (v : Word) (s : State) : (setResult rd v s).instrWidth = s.instrWidth := rfl
@[simp] theorem setResult_pins (rd : RegIdx) (v : Word) (s : State) : (setResult rd v s).pins = s.pins := rfl
@[simp] theorem setResult_stage (rd : RegIdx) (v : Word) (s : State) : (setResult rd v s).stage = s.stage := rfl

/-! ### setAddress -/

@[simp] theorem setAddress_rf (a : Int) (s : State) : (setAddress a s).rf = s.rf := rfl
@[simp] theorem setAddress_dmem (a : Int) (s : State) : (setAddress a s).dmem = s.dmem := rfl
@[simp] theorem setAddress_pc (a : Int) (s : State) : (setAddress a s).pc = s.pc := rfl
@[simp] theorem setAddress_zero (a : Int) (s : State) : (setAddress a s).zero = s.zero := rfl
@[simp] theorem setAddress_clock (a : Int) (s : State) : (setAddress a s).clock = s.clock := rfl
@[simp] theorem setAddress_completed (a : Int) (s : State) : (setAddress a s).completed = s.completed := rfl
@[simp] theorem setAddress_redirectPending (a : Int) (s : State) : (setAddress a s).redirectPending = s.redirectPending := rfl
@[simp] theorem setAddress_haltFetched (a : Int) (s : State) : (setAddress a s).haltFetched = s.haltFetched := rfl
@[simp] theorem setAddress_haltRetired (a : Int) (s : State) : (setAddress a s).haltRetired = s.haltRetired := rfl
@[simp] theorem setAddress_engineState (a : Int) (s : State) : (setAddress a s).engineState = s.engineState := rfl
@[simp] theorem setAddress_termReason (a : Int) (s : State) : (setAddress a s).termReason = s.termReason := rfl
@[simp] theorem setAddress_faultInfo (a : Int) (s : State) : (setAddress a s).faultInfo = s.faultInfo := rfl
@[simp] theorem setAddress_latF (a : Int) (s : State) : (setAddress a s).latF = s.latF := rfl
@[simp] theorem setAddress_latD (a : Int) (s : State) : (setAddress a s).latD = s.latD := rfl
@[simp] theorem setAddress_latE (a : Int) (s : State) : (setAddress a s).latE = { s.latE with memAddress := a } := rfl
@[simp] theorem setAddress_latM (a : Int) (s : State) : (setAddress a s).latM = s.latM := rfl
@[simp] theorem setAddress_latW (a : Int) (s : State) : (setAddress a s).latW = s.latW := rfl
@[simp] theorem setAddress_istore (a : Int) (s : State) : (setAddress a s).istore = s.istore := rfl
@[simp] theorem setAddress_maxCycles (a : Int) (s : State) : (setAddress a s).maxCycles = s.maxCycles := rfl
@[simp] theorem setAddress_dmemWords (a : Int) (s : State) : (setAddress a s).dmemWords = s.dmemWords := rfl
@[simp] theorem setAddress_codeBase (a : Int) (s : State) : (setAddress a s).codeBase = s.codeBase := rfl
@[simp] theorem setAddress_instrWidth (a : Int) (s : State) : (setAddress a s).instrWidth = s.instrWidth := rfl
@[simp] theorem setAddress_pins (a : Int) (s : State) : (setAddress a s).pins = s.pins := rfl
@[simp] theorem setAddress_stage (a : Int) (s : State) : (setAddress a s).stage = s.stage := rfl

/-! ### setLoaded -/

@[simp] theorem setLoaded_rf (rd : RegIdx) (v : Word) (s : State) : (setLoaded rd v s).rf = s.rf := rfl
@[simp] theorem setLoaded_dmem (rd : RegIdx) (v : Word) (s : State) : (setLoaded rd v s).dmem = s.dmem := rfl
@[simp] theorem setLoaded_pc (rd : RegIdx) (v : Word) (s : State) : (setLoaded rd v s).pc = s.pc := rfl
@[simp] theorem setLoaded_zero (rd : RegIdx) (v : Word) (s : State) : (setLoaded rd v s).zero = s.zero := rfl
@[simp] theorem setLoaded_clock (rd : RegIdx) (v : Word) (s : State) : (setLoaded rd v s).clock = s.clock := rfl
@[simp] theorem setLoaded_completed (rd : RegIdx) (v : Word) (s : State) : (setLoaded rd v s).completed = s.completed := rfl
@[simp] theorem setLoaded_redirectPending (rd : RegIdx) (v : Word) (s : State) : (setLoaded rd v s).redirectPending = s.redirectPending := rfl
@[simp] theorem setLoaded_haltFetched (rd : RegIdx) (v : Word) (s : State) : (setLoaded rd v s).haltFetched = s.haltFetched := rfl
@[simp] theorem setLoaded_haltRetired (rd : RegIdx) (v : Word) (s : State) : (setLoaded rd v s).haltRetired = s.haltRetired := rfl
@[simp] theorem setLoaded_engineState (rd : RegIdx) (v : Word) (s : State) : (setLoaded rd v s).engineState = s.engineState := rfl
@[simp] theorem setLoaded_termReason (rd : RegIdx) (v : Word) (s : State) : (setLoaded rd v s).termReason = s.termReason := rfl
@[simp] theorem setLoaded_faultInfo (rd : RegIdx) (v : Word) (s : State) : (setLoaded rd v s).faultInfo = s.faultInfo := rfl
@[simp] theorem setLoaded_latF (rd : RegIdx) (v : Word) (s : State) : (setLoaded rd v s).latF = s.latF := rfl
@[simp] theorem setLoaded_latD (rd : RegIdx) (v : Word) (s : State) : (setLoaded rd v s).latD = s.latD := rfl
@[simp] theorem setLoaded_latE (rd : RegIdx) (v : Word) (s : State) : (setLoaded rd v s).latE = s.latE := rfl
@[simp] theorem setLoaded_latM (rd : RegIdx) (v : Word) (s : State) : (setLoaded rd v s).latM = { s.latM with resTag := some rd, resValue := v } := rfl
@[simp] theorem setLoaded_latW (rd : RegIdx) (v : Word) (s : State) : (setLoaded rd v s).latW = s.latW := rfl
@[simp] theorem setLoaded_istore (rd : RegIdx) (v : Word) (s : State) : (setLoaded rd v s).istore = s.istore := rfl
@[simp] theorem setLoaded_maxCycles (rd : RegIdx) (v : Word) (s : State) : (setLoaded rd v s).maxCycles = s.maxCycles := rfl
@[simp] theorem setLoaded_dmemWords (rd : RegIdx) (v : Word) (s : State) : (setLoaded rd v s).dmemWords = s.dmemWords := rfl
@[simp] theorem setLoaded_codeBase (rd : RegIdx) (v : Word) (s : State) : (setLoaded rd v s).codeBase = s.codeBase := rfl
@[simp] theorem setLoaded_instrWidth (rd : RegIdx) (v : Word) (s : State) : (setLoaded rd v s).instrWidth = s.instrWidth := rfl
@[simp] theorem setLoaded_pins (rd : RegIdx) (v : Word) (s : State) : (setLoaded rd v s).pins = s.pins := rfl
@[simp] theorem setLoaded_stage (rd : RegIdx) (v : Word) (s : State) : (setLoaded rd v s).stage = s.stage := rfl

/-! ### takeBranch -/

@[simp] theorem takeBranch_rf (imm : Word) (s : State) : (takeBranch imm s).rf = s.rf := rfl
@[simp] theorem takeBranch_dmem (imm : Word) (s : State) : (takeBranch imm s).dmem = s.dmem := rfl
@[simp] theorem takeBranch_pc (imm : Word) (s : State) : (takeBranch imm s).pc = s.latE.pc + imm.toInt := rfl
@[simp] theorem takeBranch_zero (imm : Word) (s : State) : (takeBranch imm s).zero = s.zero := rfl
@[simp] theorem takeBranch_clock (imm : Word) (s : State) : (takeBranch imm s).clock = s.clock := rfl
@[simp] theorem takeBranch_completed (imm : Word) (s : State) : (takeBranch imm s).completed = s.completed := rfl
@[simp] theorem takeBranch_redirectPending (imm : Word) (s : State) : (takeBranch imm s).redirectPending = true := rfl
@[simp] theorem takeBranch_haltFetched (imm : Word) (s : State) : (takeBranch imm s).haltFetched = false := rfl
@[simp] theorem takeBranch_haltRetired (imm : Word) (s : State) : (takeBranch imm s).haltRetired = s.haltRetired := rfl
@[simp] theorem takeBranch_engineState (imm : Word) (s : State) : (takeBranch imm s).engineState = s.engineState := rfl
@[simp] theorem takeBranch_termReason (imm : Word) (s : State) : (takeBranch imm s).termReason = s.termReason := rfl
@[simp] theorem takeBranch_faultInfo (imm : Word) (s : State) : (takeBranch imm s).faultInfo = s.faultInfo := rfl
@[simp] theorem takeBranch_latF (imm : Word) (s : State) : (takeBranch imm s).latF = s.latF := rfl
@[simp] theorem takeBranch_latD (imm : Word) (s : State) : (takeBranch imm s).latD = s.latD.cleared := rfl
@[simp] theorem takeBranch_latE (imm : Word) (s : State) : (takeBranch imm s).latE = s.latE := rfl
@[simp] theorem takeBranch_latM (imm : Word) (s : State) : (takeBranch imm s).latM = s.latM := rfl
@[simp] theorem takeBranch_latW (imm : Word) (s : State) : (takeBranch imm s).latW = s.latW := rfl
@[simp] theorem takeBranch_istore (imm : Word) (s : State) : (takeBranch imm s).istore = s.istore := rfl
@[simp] theorem takeBranch_maxCycles (imm : Word) (s : State) : (takeBranch imm s).maxCycles = s.maxCycles := rfl
@[simp] theorem takeBranch_dmemWords (imm : Word) (s : State) : (takeBranch imm s).dmemWords = s.dmemWords := rfl
@[simp] theorem takeBranch_codeBase (imm : Word) (s : State) : (takeBranch imm s).codeBase = s.codeBase := rfl
@[simp] theorem takeBranch_instrWidth (imm : Word) (s : State) : (takeBranch imm s).instrWidth = s.instrWidth := rfl
@[simp] theorem takeBranch_pins (imm : Word) (s : State) : (takeBranch imm s).pins = s.pins := rfl
@[simp] theorem takeBranch_stage (imm : Word) (s : State) : (takeBranch imm s).stage = s.stage := rfl

/-! ### stopFetching -/

@[simp] theorem stopFetching_rf (s : State) : (stopFetching s).rf = s.rf := rfl
@[simp] theorem stopFetching_dmem (s : State) : (stopFetching s).dmem = s.dmem := rfl
@[simp] theorem stopFetching_pc (s : State) : (stopFetching s).pc = s.pc := rfl
@[simp] theorem stopFetching_zero (s : State) : (stopFetching s).zero = s.zero := rfl
@[simp] theorem stopFetching_clock (s : State) : (stopFetching s).clock = s.clock := rfl
@[simp] theorem stopFetching_completed (s : State) : (stopFetching s).completed = s.completed := rfl
@[simp] theorem stopFetching_redirectPending (s : State) : (stopFetching s).redirectPending = s.redirectPending := rfl
@[simp] theorem stopFetching_haltFetched (s : State) : (stopFetching s).haltFetched = true := rfl
@[simp] theorem stopFetching_haltRetired (s : State) : (stopFetching s).haltRetired = s.haltRetired := rfl
@[simp] theorem stopFetching_engineState (s : State) : (stopFetching s).engineState = s.engineState := rfl
@[simp] theorem stopFetching_termReason (s : State) : (stopFetching s).termReason = s.termReason := rfl
@[simp] theorem stopFetching_faultInfo (s : State) : (stopFetching s).faultInfo = s.faultInfo := rfl
@[simp] theorem stopFetching_latF (s : State) : (stopFetching s).latF = s.latF := rfl
@[simp] theorem stopFetching_latD (s : State) : (stopFetching s).latD = s.latD := rfl
@[simp] theorem stopFetching_latE (s : State) : (stopFetching s).latE = s.latE := rfl
@[simp] theorem stopFetching_latM (s : State) : (stopFetching s).latM = s.latM := rfl
@[simp] theorem stopFetching_latW (s : State) : (stopFetching s).latW = s.latW := rfl
@[simp] theorem stopFetching_istore (s : State) : (stopFetching s).istore = s.istore := rfl
@[simp] theorem stopFetching_maxCycles (s : State) : (stopFetching s).maxCycles = s.maxCycles := rfl
@[simp] theorem stopFetching_dmemWords (s : State) : (stopFetching s).dmemWords = s.dmemWords := rfl
@[simp] theorem stopFetching_codeBase (s : State) : (stopFetching s).codeBase = s.codeBase := rfl
@[simp] theorem stopFetching_instrWidth (s : State) : (stopFetching s).instrWidth = s.instrWidth := rfl
@[simp] theorem stopFetching_pins (s : State) : (stopFetching s).pins = s.pins := rfl
@[simp] theorem stopFetching_stage (s : State) : (stopFetching s).stage = s.stage := rfl

/-! ### signalHalt -/

@[simp] theorem signalHalt_rf (s : State) : (signalHalt s).rf = s.rf := rfl
@[simp] theorem signalHalt_dmem (s : State) : (signalHalt s).dmem = s.dmem := rfl
@[simp] theorem signalHalt_pc (s : State) : (signalHalt s).pc = s.pc := rfl
@[simp] theorem signalHalt_zero (s : State) : (signalHalt s).zero = s.zero := rfl
@[simp] theorem signalHalt_clock (s : State) : (signalHalt s).clock = s.clock := rfl
@[simp] theorem signalHalt_completed (s : State) : (signalHalt s).completed = s.completed := rfl
@[simp] theorem signalHalt_redirectPending (s : State) : (signalHalt s).redirectPending = s.redirectPending := rfl
@[simp] theorem signalHalt_haltFetched (s : State) : (signalHalt s).haltFetched = s.haltFetched := rfl
@[simp] theorem signalHalt_haltRetired (s : State) : (signalHalt s).haltRetired = true := rfl
@[simp] theorem signalHalt_engineState (s : State) : (signalHalt s).engineState = s.engineState := rfl
@[simp] theorem signalHalt_termReason (s : State) : (signalHalt s).termReason = s.termReason := rfl
@[simp] theorem signalHalt_faultInfo (s : State) : (signalHalt s).faultInfo = s.faultInfo := rfl
@[simp] theorem signalHalt_latF (s : State) : (signalHalt s).latF = s.latF := rfl
@[simp] theorem signalHalt_latD (s : State) : (signalHalt s).latD = s.latD := rfl
@[simp] theorem signalHalt_latE (s : State) : (signalHalt s).latE = s.latE := rfl
@[simp] theorem signalHalt_latM (s : State) : (signalHalt s).latM = s.latM := rfl
@[simp] theorem signalHalt_latW (s : State) : (signalHalt s).latW = s.latW := rfl
@[simp] theorem signalHalt_istore (s : State) : (signalHalt s).istore = s.istore := rfl
@[simp] theorem signalHalt_maxCycles (s : State) : (signalHalt s).maxCycles = s.maxCycles := rfl
@[simp] theorem signalHalt_dmemWords (s : State) : (signalHalt s).dmemWords = s.dmemWords := rfl
@[simp] theorem signalHalt_codeBase (s : State) : (signalHalt s).codeBase = s.codeBase := rfl
@[simp] theorem signalHalt_instrWidth (s : State) : (signalHalt s).instrWidth = s.instrWidth := rfl
@[simp] theorem signalHalt_pins (s : State) : (signalHalt s).pins = s.pins := rfl
@[simp] theorem signalHalt_stage (s : State) : (signalHalt s).stage = s.stage := rfl

/-! ### resolveRs1 -/

@[simp] theorem resolveRs1_rf (c : OperandClass) (r : RegIdx) (s : State) : (resolveRs1 c r s).rf = s.rf := rfl
@[simp] theorem resolveRs1_dmem (c : OperandClass) (r : RegIdx) (s : State) : (resolveRs1 c r s).dmem = s.dmem := rfl
@[simp] theorem resolveRs1_pc (c : OperandClass) (r : RegIdx) (s : State) : (resolveRs1 c r s).pc = s.pc := rfl
@[simp] theorem resolveRs1_zero (c : OperandClass) (r : RegIdx) (s : State) : (resolveRs1 c r s).zero = s.zero := rfl
@[simp] theorem resolveRs1_clock (c : OperandClass) (r : RegIdx) (s : State) : (resolveRs1 c r s).clock = s.clock := rfl
@[simp] theorem resolveRs1_completed (c : OperandClass) (r : RegIdx) (s : State) : (resolveRs1 c r s).completed = s.completed := rfl
@[simp] theorem resolveRs1_redirectPending (c : OperandClass) (r : RegIdx) (s : State) : (resolveRs1 c r s).redirectPending = s.redirectPending := rfl
@[simp] theorem resolveRs1_haltFetched (c : OperandClass) (r : RegIdx) (s : State) : (resolveRs1 c r s).haltFetched = s.haltFetched := rfl
@[simp] theorem resolveRs1_haltRetired (c : OperandClass) (r : RegIdx) (s : State) : (resolveRs1 c r s).haltRetired = s.haltRetired := rfl
@[simp] theorem resolveRs1_engineState (c : OperandClass) (r : RegIdx) (s : State) : (resolveRs1 c r s).engineState = s.engineState := rfl
@[simp] theorem resolveRs1_termReason (c : OperandClass) (r : RegIdx) (s : State) : (resolveRs1 c r s).termReason = s.termReason := rfl
@[simp] theorem resolveRs1_faultInfo (c : OperandClass) (r : RegIdx) (s : State) : (resolveRs1 c r s).faultInfo = s.faultInfo := rfl
@[simp] theorem resolveRs1_latF (c : OperandClass) (r : RegIdx) (s : State) : (resolveRs1 c r s).latF = s.latF := rfl
@[simp] theorem resolveRs1_latD (c : OperandClass) (r : RegIdx) (s : State) : (resolveRs1 c r s).latD = { s.latD with rs1Value := resolve c r s } := rfl
@[simp] theorem resolveRs1_latE (c : OperandClass) (r : RegIdx) (s : State) : (resolveRs1 c r s).latE = s.latE := rfl
@[simp] theorem resolveRs1_latM (c : OperandClass) (r : RegIdx) (s : State) : (resolveRs1 c r s).latM = s.latM := rfl
@[simp] theorem resolveRs1_latW (c : OperandClass) (r : RegIdx) (s : State) : (resolveRs1 c r s).latW = s.latW := rfl
@[simp] theorem resolveRs1_istore (c : OperandClass) (r : RegIdx) (s : State) : (resolveRs1 c r s).istore = s.istore := rfl
@[simp] theorem resolveRs1_maxCycles (c : OperandClass) (r : RegIdx) (s : State) : (resolveRs1 c r s).maxCycles = s.maxCycles := rfl
@[simp] theorem resolveRs1_dmemWords (c : OperandClass) (r : RegIdx) (s : State) : (resolveRs1 c r s).dmemWords = s.dmemWords := rfl
@[simp] theorem resolveRs1_codeBase (c : OperandClass) (r : RegIdx) (s : State) : (resolveRs1 c r s).codeBase = s.codeBase := rfl
@[simp] theorem resolveRs1_instrWidth (c : OperandClass) (r : RegIdx) (s : State) : (resolveRs1 c r s).instrWidth = s.instrWidth := rfl
@[simp] theorem resolveRs1_pins (c : OperandClass) (r : RegIdx) (s : State) : (resolveRs1 c r s).pins = s.pins := rfl
@[simp] theorem resolveRs1_stage (c : OperandClass) (r : RegIdx) (s : State) : (resolveRs1 c r s).stage = s.stage := rfl

/-! ### resolveRs2 -/

@[simp] theorem resolveRs2_rf (c : OperandClass) (r : RegIdx) (s : State) : (resolveRs2 c r s).rf = s.rf := rfl
@[simp] theorem resolveRs2_dmem (c : OperandClass) (r : RegIdx) (s : State) : (resolveRs2 c r s).dmem = s.dmem := rfl
@[simp] theorem resolveRs2_pc (c : OperandClass) (r : RegIdx) (s : State) : (resolveRs2 c r s).pc = s.pc := rfl
@[simp] theorem resolveRs2_zero (c : OperandClass) (r : RegIdx) (s : State) : (resolveRs2 c r s).zero = s.zero := rfl
@[simp] theorem resolveRs2_clock (c : OperandClass) (r : RegIdx) (s : State) : (resolveRs2 c r s).clock = s.clock := rfl
@[simp] theorem resolveRs2_completed (c : OperandClass) (r : RegIdx) (s : State) : (resolveRs2 c r s).completed = s.completed := rfl
@[simp] theorem resolveRs2_redirectPending (c : OperandClass) (r : RegIdx) (s : State) : (resolveRs2 c r s).redirectPending = s.redirectPending := rfl
@[simp] theorem resolveRs2_haltFetched (c : OperandClass) (r : RegIdx) (s : State) : (resolveRs2 c r s).haltFetched = s.haltFetched := rfl
@[simp] theorem resolveRs2_haltRetired (c : OperandClass) (r : RegIdx) (s : State) : (resolveRs2 c r s).haltRetired = s.haltRetired := rfl
@[simp] theorem resolveRs2_engineState (c : OperandClass) (r : RegIdx) (s : State) : (resolveRs2 c r s).engineState = s.engineState := rfl
@[simp] theorem resolveRs2_termReason (c : OperandClass) (r : RegIdx) (s : State) : (resolveRs2 c r s).termReason = s.termReason := rfl
@[simp] theorem resolveRs2_faultInfo (c : OperandClass) (r : RegIdx) (s : State) : (resolveRs2 c r s).faultInfo = s.faultInfo := rfl
@[simp] theorem resolveRs2_latF (c : OperandClass) (r : RegIdx) (s : State) : (resolveRs2 c r s).latF = s.latF := rfl
@[simp] theorem resolveRs2_latD (c : OperandClass) (r : RegIdx) (s : State) : (resolveRs2 c r s).latD = { s.latD with rs2Value := resolve c r s } := rfl
@[simp] theorem resolveRs2_latE (c : OperandClass) (r : RegIdx) (s : State) : (resolveRs2 c r s).latE = s.latE := rfl
@[simp] theorem resolveRs2_latM (c : OperandClass) (r : RegIdx) (s : State) : (resolveRs2 c r s).latM = s.latM := rfl
@[simp] theorem resolveRs2_latW (c : OperandClass) (r : RegIdx) (s : State) : (resolveRs2 c r s).latW = s.latW := rfl
@[simp] theorem resolveRs2_istore (c : OperandClass) (r : RegIdx) (s : State) : (resolveRs2 c r s).istore = s.istore := rfl
@[simp] theorem resolveRs2_maxCycles (c : OperandClass) (r : RegIdx) (s : State) : (resolveRs2 c r s).maxCycles = s.maxCycles := rfl
@[simp] theorem resolveRs2_dmemWords (c : OperandClass) (r : RegIdx) (s : State) : (resolveRs2 c r s).dmemWords = s.dmemWords := rfl
@[simp] theorem resolveRs2_codeBase (c : OperandClass) (r : RegIdx) (s : State) : (resolveRs2 c r s).codeBase = s.codeBase := rfl
@[simp] theorem resolveRs2_instrWidth (c : OperandClass) (r : RegIdx) (s : State) : (resolveRs2 c r s).instrWidth = s.instrWidth := rfl
@[simp] theorem resolveRs2_pins (c : OperandClass) (r : RegIdx) (s : State) : (resolveRs2 c r s).pins = s.pins := rfl
@[simp] theorem resolveRs2_stage (c : OperandClass) (r : RegIdx) (s : State) : (resolveRs2 c r s).stage = s.stage := rfl

/-! ### resolveRs3 -/

@[simp] theorem resolveRs3_rf (c : OperandClass) (r : RegIdx) (s : State) : (resolveRs3 c r s).rf = s.rf := rfl
@[simp] theorem resolveRs3_dmem (c : OperandClass) (r : RegIdx) (s : State) : (resolveRs3 c r s).dmem = s.dmem := rfl
@[simp] theorem resolveRs3_pc (c : OperandClass) (r : RegIdx) (s : State) : (resolveRs3 c r s).pc = s.pc := rfl
@[simp] theorem resolveRs3_zero (c : OperandClass) (r : RegIdx) (s : State) : (resolveRs3 c r s).zero = s.zero := rfl
@[simp] theorem resolveRs3_clock (c : OperandClass) (r : RegIdx) (s : State) : (resolveRs3 c r s).clock = s.clock := rfl
@[simp] theorem resolveRs3_completed (c : OperandClass) (r : RegIdx) (s : State) : (resolveRs3 c r s).completed = s.completed := rfl
@[simp] theorem resolveRs3_redirectPending (c : OperandClass) (r : RegIdx) (s : State) : (resolveRs3 c r s).redirectPending = s.redirectPending := rfl
@[simp] theorem resolveRs3_haltFetched (c : OperandClass) (r : RegIdx) (s : State) : (resolveRs3 c r s).haltFetched = s.haltFetched := rfl
@[simp] theorem resolveRs3_haltRetired (c : OperandClass) (r : RegIdx) (s : State) : (resolveRs3 c r s).haltRetired = s.haltRetired := rfl
@[simp] theorem resolveRs3_engineState (c : OperandClass) (r : RegIdx) (s : State) : (resolveRs3 c r s).engineState = s.engineState := rfl
@[simp] theorem resolveRs3_termReason (c : OperandClass) (r : RegIdx) (s : State) : (resolveRs3 c r s).termReason = s.termReason := rfl
@[simp] theorem resolveRs3_faultInfo (c : OperandClass) (r : RegIdx) (s : State) : (resolveRs3 c r s).faultInfo = s.faultInfo := rfl
@[simp] theorem resolveRs3_latF (c : OperandClass) (r : RegIdx) (s : State) : (resolveRs3 c r s).latF = s.latF := rfl
@[simp] theorem resolveRs3_latD (c : OperandClass) (r : RegIdx) (s : State) : (resolveRs3 c r s).latD = { s.latD with rs3Value := resolve c r s } := rfl
@[simp] theorem resolveRs3_latE (c : OperandClass) (r : RegIdx) (s : State) : (resolveRs3 c r s).latE = s.latE := rfl
@[simp] theorem resolveRs3_latM (c : OperandClass) (r : RegIdx) (s : State) : (resolveRs3 c r s).latM = s.latM := rfl
@[simp] theorem resolveRs3_latW (c : OperandClass) (r : RegIdx) (s : State) : (resolveRs3 c r s).latW = s.latW := rfl
@[simp] theorem resolveRs3_istore (c : OperandClass) (r : RegIdx) (s : State) : (resolveRs3 c r s).istore = s.istore := rfl
@[simp] theorem resolveRs3_maxCycles (c : OperandClass) (r : RegIdx) (s : State) : (resolveRs3 c r s).maxCycles = s.maxCycles := rfl
@[simp] theorem resolveRs3_dmemWords (c : OperandClass) (r : RegIdx) (s : State) : (resolveRs3 c r s).dmemWords = s.dmemWords := rfl
@[simp] theorem resolveRs3_codeBase (c : OperandClass) (r : RegIdx) (s : State) : (resolveRs3 c r s).codeBase = s.codeBase := rfl
@[simp] theorem resolveRs3_instrWidth (c : OperandClass) (r : RegIdx) (s : State) : (resolveRs3 c r s).instrWidth = s.instrWidth := rfl
@[simp] theorem resolveRs3_pins (c : OperandClass) (r : RegIdx) (s : State) : (resolveRs3 c r s).pins = s.pins := rfl
@[simp] theorem resolveRs3_stage (c : OperandClass) (r : RegIdx) (s : State) : (resolveRs3 c r s).stage = s.stage := rfl

/-! ### resolveTwo -/

@[simp] theorem resolveTwo_rf (c : OperandClass) (f : Fields) (s : State) : (resolveTwo c f s).rf = s.rf := rfl
@[simp] theorem resolveTwo_dmem (c : OperandClass) (f : Fields) (s : State) : (resolveTwo c f s).dmem = s.dmem := rfl
@[simp] theorem resolveTwo_pc (c : OperandClass) (f : Fields) (s : State) : (resolveTwo c f s).pc = s.pc := rfl
@[simp] theorem resolveTwo_zero (c : OperandClass) (f : Fields) (s : State) : (resolveTwo c f s).zero = s.zero := rfl
@[simp] theorem resolveTwo_clock (c : OperandClass) (f : Fields) (s : State) : (resolveTwo c f s).clock = s.clock := rfl
@[simp] theorem resolveTwo_completed (c : OperandClass) (f : Fields) (s : State) : (resolveTwo c f s).completed = s.completed := rfl
@[simp] theorem resolveTwo_redirectPending (c : OperandClass) (f : Fields) (s : State) : (resolveTwo c f s).redirectPending = s.redirectPending := rfl
@[simp] theorem resolveTwo_haltFetched (c : OperandClass) (f : Fields) (s : State) : (resolveTwo c f s).haltFetched = s.haltFetched := rfl
@[simp] theorem resolveTwo_haltRetired (c : OperandClass) (f : Fields) (s : State) : (resolveTwo c f s).haltRetired = s.haltRetired := rfl
@[simp] theorem resolveTwo_engineState (c : OperandClass) (f : Fields) (s : State) : (resolveTwo c f s).engineState = s.engineState := rfl
@[simp] theorem resolveTwo_termReason (c : OperandClass) (f : Fields) (s : State) : (resolveTwo c f s).termReason = s.termReason := rfl
@[simp] theorem resolveTwo_faultInfo (c : OperandClass) (f : Fields) (s : State) : (resolveTwo c f s).faultInfo = s.faultInfo := rfl
@[simp] theorem resolveTwo_latF (c : OperandClass) (f : Fields) (s : State) : (resolveTwo c f s).latF = s.latF := rfl
@[simp] theorem resolveTwo_latD (c : OperandClass) (f : Fields) (s : State) : (resolveTwo c f s).latD = { s.latD with rs1Value := resolve c f.rs1 s, rs2Value := resolve c f.rs2 s } := rfl
@[simp] theorem resolveTwo_latE (c : OperandClass) (f : Fields) (s : State) : (resolveTwo c f s).latE = s.latE := rfl
@[simp] theorem resolveTwo_latM (c : OperandClass) (f : Fields) (s : State) : (resolveTwo c f s).latM = s.latM := rfl
@[simp] theorem resolveTwo_latW (c : OperandClass) (f : Fields) (s : State) : (resolveTwo c f s).latW = s.latW := rfl
@[simp] theorem resolveTwo_istore (c : OperandClass) (f : Fields) (s : State) : (resolveTwo c f s).istore = s.istore := rfl
@[simp] theorem resolveTwo_maxCycles (c : OperandClass) (f : Fields) (s : State) : (resolveTwo c f s).maxCycles = s.maxCycles := rfl
@[simp] theorem resolveTwo_dmemWords (c : OperandClass) (f : Fields) (s : State) : (resolveTwo c f s).dmemWords = s.dmemWords := rfl
@[simp] theorem resolveTwo_codeBase (c : OperandClass) (f : Fields) (s : State) : (resolveTwo c f s).codeBase = s.codeBase := rfl
@[simp] theorem resolveTwo_instrWidth (c : OperandClass) (f : Fields) (s : State) : (resolveTwo c f s).instrWidth = s.instrWidth := rfl
@[simp] theorem resolveTwo_pins (c : OperandClass) (f : Fields) (s : State) : (resolveTwo c f s).pins = s.pins := rfl
@[simp] theorem resolveTwo_stage (c : OperandClass) (f : Fields) (s : State) : (resolveTwo c f s).stage = s.stage := rfl

/-! ### resolveThree -/

@[simp] theorem resolveThree_rf (c : OperandClass) (f : Fields) (s : State) : (resolveThree c f s).rf = s.rf := rfl
@[simp] theorem resolveThree_dmem (c : OperandClass) (f : Fields) (s : State) : (resolveThree c f s).dmem = s.dmem := rfl
@[simp] theorem resolveThree_pc (c : OperandClass) (f : Fields) (s : State) : (resolveThree c f s).pc = s.pc := rfl
@[simp] theorem resolveThree_zero (c : OperandClass) (f : Fields) (s : State) : (resolveThree c f s).zero = s.zero := rfl
@[simp] theorem resolveThree_clock (c : OperandClass) (f : Fields) (s : State) : (resolveThree c f s).clock = s.clock := rfl
@[simp] theorem resolveThree_completed (c : OperandClass) (f : Fields) (s : State) : (resolveThree c f s).completed = s.completed := rfl
@[simp] theorem resolveThree_redirectPending (c : OperandClass) (f : Fields) (s : State) : (resolveThree c f s).redirectPending = s.redirectPending := rfl
@[simp] theorem resolveThree_haltFetched (c : OperandClass) (f : Fields) (s : State) : (resolveThree c f s).haltFetched = s.haltFetched := rfl
@[simp] theorem resolveThree_haltRetired (c : OperandClass) (f : Fields) (s : State) : (resolveThree c f s).haltRetired = s.haltRetired := rfl
@[simp] theorem resolveThree_engineState (c : OperandClass) (f : Fields) (s : State) : (resolveThree c f s).engineState = s.engineState := rfl
@[simp] theorem resolveThree_termReason (c : OperandClass) (f : Fields) (s : State) : (resolveThree c f s).termReason = s.termReason := rfl
@[simp] theorem resolveThree_faultInfo (c : OperandClass) (f : Fields) (s : State) : (resolveThree c f s).faultInfo = s.faultInfo := rfl
@[simp] theorem resolveThree_latF (c : OperandClass) (f : Fields) (s : State) : (resolveThree c f s).latF = s.latF := rfl
@[simp] theorem resolveThree_latD (c : OperandClass) (f : Fields) (s : State) : (resolveThree c f s).latD = { s.latD with rs1Value := resolve c f.rs1 s, rs2Value := resolve c f.rs2 s, rs3Value := resolve c f.rs3 s } := rfl
@[simp] theorem resolveThree_latE (c : OperandClass) (f : Fields) (s : State) : (resolveThree c f s).latE = s.latE := rfl
@[simp] theorem resolveThree_latM (c : OperandClass) (f : Fields) (s : State) : (resolveThree c f s).latM = s.latM := rfl
@[simp] theorem resolveThree_latW (c : OperandClass) (f : Fields) (s : State) : (resolveThree c f s).latW = s.latW := rfl
@[simp] theorem resolveThree_istore (c : OperandClass) (f : Fields) (s : State) : (resolveThree c f s).istore = s.istore := rfl
@[simp] theorem resolveThree_maxCycles (c : OperandClass) (f : Fields) (s : State) : (resolveThree c f s).maxCycles = s.maxCycles := rfl
@[simp] theorem resolveThree_dmemWords (c : OperandClass) (f : Fields) (s : State) : (resolveThree c f s).dmemWords = s.dmemWords := rfl
@[simp] theorem resolveThree_codeBase (c : OperandClass) (f : Fields) (s : State) : (resolveThree c f s).codeBase = s.codeBase := rfl
@[simp] theorem resolveThree_instrWidth (c : OperandClass) (f : Fields) (s : State) : (resolveThree c f s).instrWidth = s.instrWidth := rfl
@[simp] theorem resolveThree_pins (c : OperandClass) (f : Fields) (s : State) : (resolveThree c f s).pins = s.pins := rfl
@[simp] theorem resolveThree_stage (c : OperandClass) (f : Fields) (s : State) : (resolveThree c f s).stage = s.stage := rfl

/-! ### setZero -/

@[simp] theorem setZero_rf (b : Bool) (s : State) : (setZero b s).rf = s.rf := rfl
@[simp] theorem setZero_dmem (b : Bool) (s : State) : (setZero b s).dmem = s.dmem := rfl
@[simp] theorem setZero_pc (b : Bool) (s : State) : (setZero b s).pc = s.pc := rfl
@[simp] theorem setZero_zero (b : Bool) (s : State) : (setZero b s).zero = b := rfl
@[simp] theorem setZero_clock (b : Bool) (s : State) : (setZero b s).clock = s.clock := rfl
@[simp] theorem setZero_completed (b : Bool) (s : State) : (setZero b s).completed = s.completed := rfl
@[simp] theorem setZero_redirectPending (b : Bool) (s : State) : (setZero b s).redirectPending = s.redirectPending := rfl
@[simp] theorem setZero_haltFetched (b : Bool) (s : State) : (setZero b s).haltFetched = s.haltFetched := rfl
@[simp] theorem setZero_haltRetired (b : Bool) (s : State) : (setZero b s).haltRetired = s.haltRetired := rfl
@[simp] theorem setZero_engineState (b : Bool) (s : State) : (setZero b s).engineState = s.engineState := rfl
@[simp] theorem setZero_termReason (b : Bool) (s : State) : (setZero b s).termReason = s.termReason := rfl
@[simp] theorem setZero_faultInfo (b : Bool) (s : State) : (setZero b s).faultInfo = s.faultInfo := rfl
@[simp] theorem setZero_latF (b : Bool) (s : State) : (setZero b s).latF = s.latF := rfl
@[simp] theorem setZero_latD (b : Bool) (s : State) : (setZero b s).latD = s.latD := rfl
@[simp] theorem setZero_latE (b : Bool) (s : State) : (setZero b s).latE = s.latE := rfl
@[simp] theorem setZero_latM (b : Bool) (s : State) : (setZero b s).latM = s.latM := rfl
@[simp] theorem setZero_latW (b : Bool) (s : State) : (setZero b s).latW = s.latW := rfl
@[simp] theorem setZero_istore (b : Bool) (s : State) : (setZero b s).istore = s.istore := rfl
@[simp] theorem setZero_maxCycles (b : Bool) (s : State) : (setZero b s).maxCycles = s.maxCycles := rfl
@[simp] theorem setZero_dmemWords (b : Bool) (s : State) : (setZero b s).dmemWords = s.dmemWords := rfl
@[simp] theorem setZero_codeBase (b : Bool) (s : State) : (setZero b s).codeBase = s.codeBase := rfl
@[simp] theorem setZero_instrWidth (b : Bool) (s : State) : (setZero b s).instrWidth = s.instrWidth := rfl
@[simp] theorem setZero_pins (b : Bool) (s : State) : (setZero b s).pins = s.pins := rfl
@[simp] theorem setZero_stage (b : Bool) (s : State) : (setZero b s).stage = s.stage := rfl

/-! ### enterStage -/

@[simp] theorem enterStage_rf (st : Stage) (s : State) : (enterStage st s).rf = s.rf := rfl
@[simp] theorem enterStage_dmem (st : Stage) (s : State) : (enterStage st s).dmem = s.dmem := rfl
@[simp] theorem enterStage_pc (st : Stage) (s : State) : (enterStage st s).pc = s.pc := rfl
@[simp] theorem enterStage_zero (st : Stage) (s : State) : (enterStage st s).zero = s.zero := rfl
@[simp] theorem enterStage_clock (st : Stage) (s : State) : (enterStage st s).clock = s.clock := rfl
@[simp] theorem enterStage_completed (st : Stage) (s : State) : (enterStage st s).completed = s.completed := rfl
@[simp] theorem enterStage_redirectPending (st : Stage) (s : State) : (enterStage st s).redirectPending = s.redirectPending := rfl
@[simp] theorem enterStage_haltFetched (st : Stage) (s : State) : (enterStage st s).haltFetched = s.haltFetched := rfl
@[simp] theorem enterStage_haltRetired (st : Stage) (s : State) : (enterStage st s).haltRetired = s.haltRetired := rfl
@[simp] theorem enterStage_engineState (st : Stage) (s : State) : (enterStage st s).engineState = s.engineState := rfl
@[simp] theorem enterStage_termReason (st : Stage) (s : State) : (enterStage st s).termReason = s.termReason := rfl
@[simp] theorem enterStage_faultInfo (st : Stage) (s : State) : (enterStage st s).faultInfo = s.faultInfo := rfl
@[simp] theorem enterStage_latF (st : Stage) (s : State) : (enterStage st s).latF = s.latF := rfl
@[simp] theorem enterStage_latD (st : Stage) (s : State) : (enterStage st s).latD = s.latD := rfl
@[simp] theorem enterStage_latE (st : Stage) (s : State) : (enterStage st s).latE = s.latE := rfl
@[simp] theorem enterStage_latM (st : Stage) (s : State) : (enterStage st s).latM = s.latM := rfl
@[simp] theorem enterStage_latW (st : Stage) (s : State) : (enterStage st s).latW = s.latW := rfl
@[simp] theorem enterStage_istore (st : Stage) (s : State) : (enterStage st s).istore = s.istore := rfl
@[simp] theorem enterStage_maxCycles (st : Stage) (s : State) : (enterStage st s).maxCycles = s.maxCycles := rfl
@[simp] theorem enterStage_dmemWords (st : Stage) (s : State) : (enterStage st s).dmemWords = s.dmemWords := rfl
@[simp] theorem enterStage_codeBase (st : Stage) (s : State) : (enterStage st s).codeBase = s.codeBase := rfl
@[simp] theorem enterStage_instrWidth (st : Stage) (s : State) : (enterStage st s).instrWidth = s.instrWidth := rfl
@[simp] theorem enterStage_pins (st : Stage) (s : State) : (enterStage st s).pins = s.pins := rfl
@[simp] theorem enterStage_stage (st : Stage) (s : State) : (enterStage st s).stage = st := rfl

/-! ### Latches -/

@[simp] theorem Latch.cleared_valid (l : Latch) : l.cleared.valid = false := rfl
@[simp] theorem Latch.cleared_instr (l : Latch) : l.cleared.instr = l.instr := rfl
@[simp] theorem Latch.cleared_pc (l : Latch) : l.cleared.pc = l.pc := rfl
@[simp] theorem Latch.cleared_rs1Value (l : Latch) : l.cleared.rs1Value = l.rs1Value := rfl
@[simp] theorem Latch.cleared_rs2Value (l : Latch) : l.cleared.rs2Value = l.rs2Value := rfl
@[simp] theorem Latch.cleared_rs3Value (l : Latch) : l.cleared.rs3Value = l.rs3Value := rfl
@[simp] theorem Latch.cleared_memAddress (l : Latch) : l.cleared.memAddress = l.memAddress := rfl
@[simp] theorem Latch.cleared_resTag (l : Latch) : l.cleared.resTag = l.resTag := rfl
@[simp] theorem Latch.cleared_resValue (l : Latch) : l.cleared.resValue = l.resValue := rfl
@[simp] theorem Latch.fetched_valid (i : Instr) (pc : Int) : (Latch.fetched i pc).valid = true := rfl
@[simp] theorem Latch.fetched_instr (i : Instr) (pc : Int) : (Latch.fetched i pc).instr = i := rfl
@[simp] theorem Latch.fetched_pc (i : Instr) (pc : Int) : (Latch.fetched i pc).pc = pc := rfl
@[simp] theorem Latch.fetched_rs1Value (i : Instr) (pc : Int) : (Latch.fetched i pc).rs1Value = 0 := rfl
@[simp] theorem Latch.fetched_rs2Value (i : Instr) (pc : Int) : (Latch.fetched i pc).rs2Value = 0 := rfl
@[simp] theorem Latch.fetched_rs3Value (i : Instr) (pc : Int) : (Latch.fetched i pc).rs3Value = 0 := rfl
@[simp] theorem Latch.fetched_memAddress (i : Instr) (pc : Int) : (Latch.fetched i pc).memAddress = 0 := rfl
@[simp] theorem Latch.fetched_resTag (i : Instr) (pc : Int) : (Latch.fetched i pc).resTag = none := rfl
@[simp] theorem Latch.fetched_resValue (i : Instr) (pc : Int) : (Latch.fetched i pc).resValue = 0 := rfl

end Sys2Proof.Machine
end

