-- ==== Sys2Proof/Laws/Ops.lean ====
section
/-! SUPPORT. What each shared operation can do, said once: register access, the memory primitives and the frame of the
stage functions. -/

namespace Sys2Proof.Machine

/-! ## Register File -/

theorem getD_modify {α : Type} (l : List α) (i j : Nat) (g : α → α) (d : α) :
    (l.modify i g).getD j d = if i = j ∧ j < l.length then g (l.getD j d) else l.getD j d := by
  by_cases hj : j < l.length
  · by_cases hi : i = j
    · subst hi; simp [List.getD, hj]
    · simp [List.getD, hj, hi]
  · simp [List.getD, hj]

theorem x_commit (r q : RegIdx) (v : Word) (s : State) :
    (commit r v s).x q = if r = q ∧ q.toNat < s.nregs then v else s.x q := by
  simp only [State.x, commit_rf, getD_modify, State.nregs, BitVec.toNat_inj]
  exact apply_ite Reg.val _ _ _

theorem avail_commit (r q : RegIdx) (v : Word) (s : State) :
    (commit r v s).avail q = if r = q ∧ q.toNat < s.nregs then true else s.avail q := by
  simp only [State.avail, commit_rf, getD_modify, State.nregs, BitVec.toNat_inj]
  exact apply_ite Reg.avail _ _ _

@[simp] theorem x_markPending (r q : RegIdx) (s : State) : (markPending r s).x q = s.x q := by
  simp only [State.x, markPending_rf, getD_modify]
  split <;> rfl

theorem avail_markPending (r q : RegIdx) (s : State) :
    (markPending r s).avail q = if r = q ∧ q.toNat < s.nregs then false else s.avail q := by
  simp only [State.avail, markPending_rf, getD_modify, State.nregs, BitVec.toNat_inj]
  exact apply_ite Reg.avail _ _ _

@[simp] theorem nregs_commit (r : RegIdx) (v : Word) (s : State) : (commit r v s).nregs = s.nregs := by
  simp [State.nregs]

@[simp] theorem nregs_markPending (r : RegIdx) (s : State) : (markPending r s).nregs = s.nregs := by
  simp [State.nregs]

/-! ## Memory primitives -/

/-- A read in range gives the word (R51). -/
theorem memRead_eq_some {s : State} {a : Int} {v : Word} :
    memRead s a = some v ↔ s.addressOk a ∧ v = s.dmemWord a.toNat := by
  by_cases h : s.addressOk a
  · rw [memRead, if_pos h, Option.some_inj]
    exact ⟨fun e => ⟨h, e.symm⟩, fun e => e.2.symm⟩
  · rw [memRead, if_neg h]
    exact ⟨fun e => (nomatch e), fun e => absurd e.1 h⟩

/-- A read fails exactly out of range (R51). -/
theorem memRead_eq_none {s : State} {a : Int} : memRead s a = none ↔ ¬ s.addressOk a := by
  by_cases h : s.addressOk a
  · rw [memRead, if_pos h]
    exact ⟨fun e => (nomatch e), fun e => absurd h e⟩
  · rw [memRead, if_neg h]
    exact ⟨fun _ => h, fun _ => rfl⟩

/-- A write in range changes Data Memory alone (R51). -/
theorem memWrite_eq_some {s t : State} {a : Int} {v : Word} :
    memWrite s a v = some t ↔ s.addressOk a ∧ t = { s with dmem := Memory.writeWord s.dmem a.toNat v } := by
  by_cases h : s.addressOk a
  · rw [memWrite, if_pos h, Option.some_inj]
    exact ⟨fun e => ⟨h, e.symm⟩, fun e => e.2.symm⟩
  · rw [memWrite, if_neg h]
    exact ⟨fun e => (nomatch e), fun e => absurd e.1 h⟩

/-- A write fails exactly out of range (R51). -/
theorem memWrite_eq_none {s : State} {a : Int} {v : Word} : memWrite s a v = none ↔ ¬ s.addressOk a := by
  by_cases h : s.addressOk a
  · rw [memWrite, if_pos h]
    exact ⟨fun e => (nomatch e), fun e => absurd h e⟩
  · rw [memWrite, if_neg h]
    exact ⟨fun _ => h, fun _ => rfl⟩

/-- The word written is read back, every other word is as before. -/
theorem dmemWord_writeWord (s : State) (a b : Nat) (v : Word) :
    ({ s with dmem := Memory.writeWord s.dmem a v } : State).dmemWord b = if b = a then v else s.dmemWord b :=
  Memory.readWord_writeWord s.dmem a b v

/-- LOAD and LDR in MEM: the word read goes into the descriptor, or the tick stops with AddressingError. -/
theorem loadWord_cases (op : Opcode) (rd : RegIdx) (s : State) :
    (s.addressOk s.latM.memAddress ∧
      loadWord op rd s = .ok (setLoaded rd (s.dmemWord s.latM.memAddress.toNat) s)) ∨
    (¬ s.addressOk s.latM.memAddress ∧
      loadWord op rd s =
        .error (stopWith .addressingError (.addressing s.latM.pc op s.latM.memAddress) s)) := by
  by_cases h : s.addressOk s.latM.memAddress
  · exact .inl ⟨h, by rw [loadWord, memRead, if_pos h]⟩
  · exact .inr ⟨h, by rw [loadWord, memRead, if_neg h]; rfl⟩

/-- STORE and STR in MEM: one word of Data Memory changes, or the tick stops with AddressingError. -/
theorem storeWord_cases (op : Opcode) (s : State) :
    (s.addressOk s.latM.memAddress ∧
      storeWord op s =
        .ok { s with dmem := Memory.writeWord s.dmem s.latM.memAddress.toNat s.latM.rs1Value }) ∨
    (¬ s.addressOk s.latM.memAddress ∧
      storeWord op s = .error (stopWith .addressingError (.addressing s.latM.pc op s.latM.memAddress) s)) := by
  by_cases h : s.addressOk s.latM.memAddress
  · exact .inl ⟨h, by rw [storeWord, memWrite, if_pos h]⟩
  · exact .inr ⟨h, by rw [storeWord, memWrite, if_neg h]; rfl⟩

/-- EX of DIV: a quotient into the descriptor, or the tick stops with ArithmeticError. -/
theorem divide_cases (rd : RegIdx) (s : State) :
    (∃ q, quotient s.latE.rs1Value s.latE.rs2Value = some q ∧ divide rd s = .ok (setResult rd q s)) ∨
    (quotient s.latE.rs1Value s.latE.rs2Value = none ∧
      divide rd s = .error (stopWith .arithmeticError (.arithmetic s.latE.pc .div) s)) := by
  unfold divide raise
  split <;> simp_all

/-! ## The frame of the stage functions -/

/-- What each opcode does in each stage, as one table. -/
def actionsOf : Instr → StageActions
  | .add f =>
    { decode := fun s => markPending f.rd (resolveTwo .arith f s)
      execute := fun s => .ok (setResult f.rd (wrap (s.latE.rs1Value.toInt + s.latE.rs2Value.toInt)) s)
      writeback := fun s => commit f.rd s.latW.resValue s }
  | .sub f =>
    { decode := fun s => markPending f.rd (resolveTwo .arith f s)
      execute := fun s => .ok (setResult f.rd (wrap (s.latE.rs1Value.toInt - s.latE.rs2Value.toInt)) s)
      writeback := fun s => commit f.rd s.latW.resValue s }
  | .mul f =>
    { decode := fun s => markPending f.rd (resolveTwo .arith f s)
      execute := fun s => .ok (setResult f.rd (wrap (s.latE.rs1Value.toInt * s.latE.rs2Value.toInt)) s)
      writeback := fun s => commit f.rd s.latW.resValue s }
  | .div f =>
    { decode := fun s => markPending f.rd (resolveTwo .arith f s)
      execute := divide f.rd
      writeback := fun s => commit f.rd s.latW.resValue s }
  | .and f =>
    { decode := fun s => markPending f.rd (resolveTwo .arith f s)
      execute := fun s => .ok (setResult f.rd (s.latE.rs1Value &&& s.latE.rs2Value) s)
      writeback := fun s => commit f.rd s.latW.resValue s }
  | .or f =>
    { decode := fun s => markPending f.rd (resolveTwo .arith f s)
      execute := fun s => .ok (setResult f.rd (s.latE.rs1Value ||| s.latE.rs2Value) s)
      writeback := fun s => commit f.rd s.latW.resValue s }
  | .xor f =>
    { decode := fun s => markPending f.rd (resolveTwo .arith f s)
      execute := fun s => .ok (setResult f.rd (s.latE.rs1Value ^^^ s.latE.rs2Value) s)
      writeback := fun s => commit f.rd s.latW.resValue s }
  | .addl f =>
    { decode := fun s => markPending f.rd (resolveRs1 .arith f.rs1 s)
      execute := fun s => .ok (setResult f.rd (wrap (s.latE.rs1Value.toInt + f.imm.toInt)) s)
      writeback := fun s => commit f.rd s.latW.resValue s }
  | .subl f =>
    { decode := fun s => markPending f.rd (resolveRs1 .arith f.rs1 s)
      execute := fun s => .ok (setResult f.rd (wrap (s.latE.rs1Value.toInt - f.imm.toInt)) s)
      writeback := fun s => commit f.rd s.latW.resValue s }
  | .movc f =>
    { decode := markPending f.rd
      execute := fun s => .ok (setZero (zeroOfImmediate f.imm) (setResult f.rd f.imm s))
      writeback := fun s => commit f.rd s.latW.resValue s }
  | .load f =>
    { decode := fun s => markPending f.rd (resolveRs1 .memclass f.rs1 s)
      execute := fun s => .ok (setAddress (baseImmediate s.latE.rs1Value f.imm) s)
      memory := loadWord .load f.rd
      writeback := fun s => commit f.rd s.latW.resValue s }
  | .store f =>
    { decode := resolveTwo .memclass f
      execute := fun s => .ok (setAddress (baseImmediate s.latE.rs2Value f.imm) s)
      memory := storeWord .store }
  | .ldr f =>
    { decode := fun s => markPending f.rd (resolveTwo .memclass f s)
      execute := fun s => .ok (setAddress (baseIndex s.latE.rs1Value s.latE.rs2Value) s)
      memory := loadWord .ldr f.rd
      writeback := fun s => commit f.rd s.latW.resValue s }
  | .str f =>
    { decode := resolveThree .memclass f
      execute := fun s => .ok (setAddress (baseIndex s.latE.rs2Value s.latE.rs3Value) s)
      memory := storeWord .str }
  | .cmp f =>
    { decode := resolveTwo .memclass f
      execute := fun s => .ok (setZero (zeroOfCompare s.latE.rs1Value s.latE.rs2Value) s) }
  | .bz f => { execute := fun s => .ok (if branchTaken true s then takeBranch f.imm s else s) }
  | .bnz f => { execute := fun s => .ok (if branchTaken false s then takeBranch f.imm s else s) }
  | .halt _ => { fetch := stopFetching, writeback := signalHalt }
  | .nop _ => {}

/-- Every arm of `exec` is `perform` with its row of the table. -/
theorem exec_eq_perform (i : Instr) (s : State) : exec i s = perform i (actionsOf i) s := by
  cases i <;> rfl

/-- What `exec` can do: a well-formed record has a next state, an ill-formed one is refused. -/
theorem exec_eq (i : Instr) (s : State) :
    exec i s =
      if i.wellFormed s.nregs = true then .next (performed i (actionsOf i) s) else .refused .illFormedRecord := by
  rw [exec_eq_perform]; rfl

/-- The inversion of `exec`. -/
theorem exec_next {i : Instr} {s t : State} (h : exec i s = .next t) :
    i.wellFormed s.nregs = true ∧ t = performed i (actionsOf i) s := by
  rw [exec_eq] at h
  split at h
  · cases h; exact ⟨‹_›, rfl⟩
  · cases h

end Sys2Proof.Machine
end

