-- ==== Sys2Proof/Laws/Stages.lean ====
section
/-! SUPPORT. What a record does in each stage, said once for all opcodes: the state each stage function leaves. -/

namespace Sys2Proof.Machine

/-- The class a result-free or source-free opcode never uses. -/
def classOr (o : Opcode) : OperandClass := (classOf o).getD .arith

theorem performed_at_wb {i : Instr} {a : StageActions} {s : State} (h : s.stage = .wb) :
    performed i a s = retire (a.writeback s) := by
  simp only [performed, h]

theorem performed_at_mem {i : Instr} {a : StageActions} {s : State} (h : s.stage = .mem) :
    performed i a s = ActionResult.finish (a.memory s) memoryToWriteback := by
  simp only [performed, h]

theorem performed_at_ex {i : Instr} {a : StageActions} {s : State} (h : s.stage = .ex) :
    performed i a s = ActionResult.finish (a.execute s) executeToMemory := by
  simp only [performed, h]

theorem performed_at_dec {i : Instr} {a : StageActions} {s : State} (h : s.stage = .dec) :
    performed i a s = decodeToExecute (a.decode s) := by
  simp only [performed, h]

theorem performed_at_fetch {i : Instr} {a : StageActions} {s : State} (h : s.stage = .fetch) :
    performed i a s = fetchToDecode (a.fetch (fillFetch i s)) := by
  simp only [performed, h]

/-- WB of any record (R93). -/
theorem performed_wb (i : Instr) {s : State} (h : s.stage = .wb) :
    performed i (actionsOf i) s =
      { s with
        rf := if i.opcode.resultProducing then (commit i.fields.rd s.latW.resValue s).rf else s.rf
        haltRetired := if i.opcode = .halt then true else s.haltRetired
        completed := s.completed + 1
        latW := s.latW.cleared } := by
  rw [performed_at_wb h]
  cases i <;> rfl

/-- FETCH of any record (R100, R102). -/
theorem performed_fetch (i : Instr) {s : State} (h : s.stage = .fetch) :
    performed i (actionsOf i) s =
      { s with
        pc := s.pc + (s.instrWidth : Int)
        haltFetched := if i.opcode = .halt then true else s.haltFetched
        latF := (Latch.fetched i s.pc).cleared
        latD := Latch.fetched i s.pc } := by
  rw [performed_at_fetch h]
  cases i <;> rfl

/-- The latch `D` with its sources resolved (R96 to R98). -/
def resolvedLatch (i : Instr) (s : State) : Latch :=
  { s.latD with
    rs1Value := if i.opcode.format.usesRs1 then resolve (classOr i.opcode) i.fields.rs1 s else s.latD.rs1Value
    rs2Value := if i.opcode.format.usesRs2 then resolve (classOr i.opcode) i.fields.rs2 s else s.latD.rs2Value
    rs3Value := if i.opcode.format.usesRs3 then resolve (classOr i.opcode) i.fields.rs3 s else s.latD.rs3Value }

/-- DEC of any record (R96, R99). -/
theorem performed_dec (i : Instr) {s : State} (h : s.stage = .dec) :
    performed i (actionsOf i) s =
      { s with
        rf := if i.opcode.resultProducing then (markPending i.fields.rd s).rf else s.rf
        latE := resolvedLatch i s
        latD := (resolvedLatch i s).cleared } := by
  rw [performed_at_dec h]
  cases i <;> rfl

/-- MEM of any record (R94): a load, a store, or nothing; or AddressingError. -/
theorem performed_mem (i : Instr) {s : State} (h : s.stage = .mem) :
    (isLoad i.opcode = true ∧ s.addressOk s.latM.memAddress ∧
      performed i (actionsOf i) s =
        memoryToWriteback (setLoaded i.fields.rd (s.dmemWord s.latM.memAddress.toNat) s)) ∨
    (isStore i.opcode = true ∧ s.addressOk s.latM.memAddress ∧
      performed i (actionsOf i) s =
        memoryToWriteback { s with dmem := Memory.writeWord s.dmem s.latM.memAddress.toNat s.latM.rs1Value }) ∨
    ((isLoad i.opcode = true ∨ isStore i.opcode = true) ∧ ¬ s.addressOk s.latM.memAddress ∧
      performed i (actionsOf i) s =
        stopWith .addressingError (.addressing s.latM.pc i.opcode s.latM.memAddress) s) ∨
    (isLoad i.opcode = false ∧ isStore i.opcode = false ∧
      performed i (actionsOf i) s = memoryToWriteback s) := by
  rw [performed_at_mem h]
  cases i with
  | load f =>
    rcases loadWord_cases .load f.rd s with ⟨ha, e⟩ | ⟨ha, e⟩
    · exact .inl ⟨rfl, ha, by simp only [actionsOf, e]; rfl⟩
    · exact .inr (.inr (.inl ⟨.inl rfl, ha, by simp only [actionsOf, e]; rfl⟩))
  | ldr f =>
    rcases loadWord_cases .ldr f.rd s with ⟨ha, e⟩ | ⟨ha, e⟩
    · exact .inl ⟨rfl, ha, by simp only [actionsOf, e]; rfl⟩
    · exact .inr (.inr (.inl ⟨.inl rfl, ha, by simp only [actionsOf, e]; rfl⟩))
  | store f =>
    rcases storeWord_cases .store s with ⟨ha, e⟩ | ⟨ha, e⟩
    · exact .inr (.inl ⟨rfl, ha, by simp only [actionsOf, e]; rfl⟩)
    · exact .inr (.inr (.inl ⟨.inr rfl, ha, by simp only [actionsOf, e]; rfl⟩))
  | str f =>
    rcases storeWord_cases .str s with ⟨ha, e⟩ | ⟨ha, e⟩
    · exact .inr (.inl ⟨rfl, ha, by simp only [actionsOf, e]; rfl⟩)
    · exact .inr (.inr (.inl ⟨.inr rfl, ha, by simp only [actionsOf, e]; rfl⟩))
  | _ => exact .inr (.inr (.inr ⟨rfl, rfl, rfl⟩))

/-- The value EX of a result-producing record other than a load writes into the descriptor (R131 to R142). -/
def exResult (i : Instr) (l : Latch) : Word :=
  match i with
  | .add _ => wrap (l.rs1Value.toInt + l.rs2Value.toInt)
  | .sub _ => wrap (l.rs1Value.toInt - l.rs2Value.toInt)
  | .mul _ => wrap (l.rs1Value.toInt * l.rs2Value.toInt)
  | .div _ => (quotient l.rs1Value l.rs2Value).getD 0
  | .and _ => l.rs1Value &&& l.rs2Value
  | .or _ => l.rs1Value ||| l.rs2Value
  | .xor _ => l.rs1Value ^^^ l.rs2Value
  | .addl f => wrap (l.rs1Value.toInt + f.imm.toInt)
  | .subl f => wrap (l.rs1Value.toInt - f.imm.toInt)
  | .movc f => f.imm
  | .load _ => 0
  | .store _ => 0
  | .ldr _ => 0
  | .str _ => 0
  | .cmp _ => 0
  | .bz _ => 0
  | .bnz _ => 0
  | .halt _ => 0
  | .nop _ => 0

/-- The address EX of a memory opcode computes (R154). -/
def exAddress (i : Instr) (l : Latch) : Int :=
  match i with
  | .load f => baseImmediate l.rs1Value f.imm
  | .store f => baseImmediate l.rs2Value f.imm
  | .ldr _ => baseIndex l.rs1Value l.rs2Value
  | .str _ => baseIndex l.rs2Value l.rs3Value
  | .add _ => l.memAddress
  | .sub _ => l.memAddress
  | .mul _ => l.memAddress
  | .div _ => l.memAddress
  | .and _ => l.memAddress
  | .or _ => l.memAddress
  | .xor _ => l.memAddress
  | .addl _ => l.memAddress
  | .subl _ => l.memAddress
  | .movc _ => l.memAddress
  | .cmp _ => l.memAddress
  | .bz _ => l.memAddress
  | .bnz _ => l.memAddress
  | .halt _ => l.memAddress
  | .nop _ => l.memAddress

/-- The latch `E` after its EX action: descriptor and address written. -/
def executedLatch (i : Instr) (l : Latch) : Latch :=
  { l with
    resTag := if i.opcode.resultProducing && !isLoad i.opcode then some i.fields.rd else l.resTag
    resValue := if i.opcode.resultProducing && !isLoad i.opcode then exResult i l else l.resValue
    memAddress := exAddress i l }

/-- The zero flag after EX (R26). -/
def exZero (i : Instr) (l : Latch) (z : Bool) : Bool :=
  match i.opcode with
  | .movc => zeroOfImmediate i.fields.imm
  | .cmp => zeroOfCompare l.rs1Value l.rs2Value
  | _ => z

/-- A branch whose condition holds. -/
def branches (i : Instr) (z : Bool) : Bool :=
  match i.opcode with
  | .bz => z
  | .bnz => !z
  | _ => false

/-- EX raises ArithmeticError (R134). -/
def divFails (i : Instr) (l : Latch) : Bool :=
  decide (i.opcode = .div) && (quotient l.rs1Value l.rs2Value).isNone

/-- EX of any record (R95): its descriptor, address, flag or redirect, and the copy into `M`; or ArithmeticError. -/
theorem performed_ex (i : Instr) {s : State} (h : s.stage = .ex) :
    performed i (actionsOf i) s =
      if divFails i s.latE then stopWith .arithmeticError (.arithmetic s.latE.pc .div) s
      else
        { s with
          zero := exZero i s.latE s.zero
          pc := if branches i s.zero then s.latE.pc + i.fields.imm.toInt else s.pc
          latD := if branches i s.zero then s.latD.cleared else s.latD
          redirectPending := if branches i s.zero then true else s.redirectPending
          haltFetched := if branches i s.zero then false else s.haltFetched
          latM := executedLatch i s.latE
          latE := (executedLatch i s.latE).cleared } := by
  rw [performed_at_ex h]
  cases i with
  | div f =>
    rcases divide_cases f.rd s with ⟨q, hq, e⟩ | ⟨hq, e⟩
    · simp only [actionsOf, e, divFails, hq]
      simp [ActionResult.finish, executeToMemory, setResult, executedLatch, exResult, hq, branches, exZero, Instr.opcode,
        Instr.fields, Opcode.resultProducing, Opcode.format, Format.usesRd, isLoad, exAddress, Latch.cleared]
    · simp only [actionsOf, e, divFails, hq]
      rfl
  | bz f =>
    cases hz : s.zero <;>
      simp [actionsOf, branchTaken, hz, divFails, branches, Instr.opcode, ActionResult.finish, executeToMemory,
        takeBranch, exZero, Instr.fields, executedLatch, exAddress, Opcode.resultProducing, Opcode.format, Format.usesRd,
        Latch.cleared]
  | bnz f =>
    cases hz : s.zero <;>
      simp [actionsOf, branchTaken, hz, divFails, branches, Instr.opcode, ActionResult.finish, executeToMemory,
        takeBranch, exZero, Instr.fields, executedLatch, exAddress, Opcode.resultProducing, Opcode.format, Format.usesRd,
        Latch.cleared]
  | _ => rfl

end Sys2Proof.Machine
end

