-- ==== Sys2Proof/Laws/Engine.lean ====
section
/-! SUPPORT. What the engine can do, said once: the inversions of a stage, of a tick and of a step. -/

namespace Sys2Proof.Machine

/-- A stage function either has nothing to do or performs its latch's record. -/
theorem runStage_next {st : Stage} {s t : State} (h : runStage st s = .next t) :
    ((s.latchOf st).valid = true ∧ (s.latchOf st).instr.wellFormed s.nregs = true ∧
      t = performed (s.latchOf st).instr (actionsOf (s.latchOf st).instr) (enterStage st s)) ∨
    ((s.latchOf st).valid = false ∧ t = enterStage st s) := by
  unfold runStage at h
  split at h
  · have := exec_next h
    exact .inl ⟨‹_›, this.1, this.2⟩
  · rename_i hv
    cases h
    exact .inr ⟨by simpa using hv, rfl⟩

/-- After an error the tick is abandoned, else the next stage function runs (R187). -/
theorem thenStage_next {o : StepOutcome State} {k : State → StepOutcome State} {t : State}
    (h : thenStage o k = .next t) :
    ∃ s, o = .next s ∧
      ((s.engineState = .running ∧ k s = .next t) ∨ (s.engineState = .halted ∧ t = s)) := by
  unfold thenStage at h
  split at h
  · rename_i s
    refine ⟨s, rfl, ?_⟩
    split at h
    · exact .inl ⟨‹_›, h⟩
    · cases h
      exact .inr ⟨‹_›, rfl⟩
  · cases h
  · cases h

theorem thenStage_running {s : State} {k : State → StepOutcome State} (h : s.engineState = .running) :
    thenStage (.next s) k = k s := by
  simp only [thenStage, h]

theorem thenStage_halted {s : State} {k : State → StepOutcome State} (h : s.engineState = .halted) :
    thenStage (.next s) k = .next s := by
  simp only [thenStage, h]

/-- Everything FETCH can do (R100 to R102, R184). -/
theorem fetchStage_next {s t : State} (h : fetchStage s = .next t) :
    (s.redirectPending = true ∧ t = { enterStage .fetch s with redirectPending := false }) ∨
    (s.redirectPending = false ∧ s.haltFetched = true ∧ t = enterStage .fetch s) ∨
    (s.redirectPending = false ∧ s.haltFetched = false ∧ iFetch s s.pc = none ∧
      t = stopWith .fetchAddressError (.fetch s.pc) (enterStage .fetch s)) ∨
    (s.redirectPending = false ∧ s.haltFetched = false ∧
      ∃ w i, iFetch s s.pc = some w ∧ decode w = .ok i ∧ i.wellFormed s.nregs = true ∧
        t = performed i (actionsOf i) (enterStage .fetch s)) := by
  simp only [fetchStage] at h
  split at h
  · cases h
    exact .inl ⟨‹_›, rfl⟩
  · rename_i h1
    split at h
    · cases h
      exact .inr (.inl ⟨by simpa using h1, ‹_›, rfl⟩)
    · rename_i h2
      unfold fetchRecord at h
      split at h
      · rename_i h3
        cases h
        exact .inr (.inr (.inl ⟨by simpa using h1, by simpa using h2, h3, rfl⟩))
      · rename_i w h3
        split at h
        · rename_i i h4
          have := exec_next h
          exact .inr (.inr (.inr ⟨by simpa using h1, by simpa using h2, w, i, h3, h4, this.1, this.2⟩))
        · cases h

/-- The end of a tick (R91) and the return to the boundary. -/
theorem tick_next {s t : State} (h : tick s = .next t) :
    ∃ u, thenStage (beforeFetch s) fetchStage = .next u ∧
      ((u.engineState = .halted ∧ t = enterStage .fetch u) ∨
       (u.engineState = .running ∧ u.haltRetired = true ∧ t = enterStage .fetch (stopWith .halt .none u)) ∨
       (u.engineState = .running ∧ u.haltRetired = false ∧ t = enterStage .fetch { u with clock := u.clock + 1 })) := by
  unfold tick atBoundary at h
  split at h
  · rename_i v hv
    cases h
    obtain ⟨u, hu, ⟨hr, he⟩ | ⟨hh, rfl⟩⟩ := thenStage_next hv
    · refine ⟨u, hu, ?_⟩
      unfold endTick at he
      split at he
      · cases he
        exact .inr (.inl ⟨hr, ‹_›, rfl⟩)
      · rename_i hf
        cases he
        exact .inr (.inr ⟨hr, by simpa using hf, rfl⟩)
    · exact ⟨v, hu, .inl ⟨hh, rfl⟩⟩
  · cases h
  · cases h

/-- Everything a step can do: a reset, a wait, a stop between ticks, or a tick (R90, R200). -/
theorem step_cases (s : State) :
    (s.pins.reset = true ∧ step s = applyReset s) ∨
    (s.pins.reset = false ∧ (s.engineState = .halted ∨ s.pins.iterates = false) ∧ step s = .next s) ∨
    (s.pins.reset = false ∧ s.engineState = .running ∧ s.pins.iterates = true ∧ s.pins.abort = true ∧
      step s = .next (stopWith .userAbort .none s)) ∨
    (s.pins.reset = false ∧ s.engineState = .running ∧ s.pins.iterates = true ∧ s.pins.abort = false ∧
      s.maxCycles ≤ s.clock ∧ step s = .next (stopWith .resourceExhaustion .none s)) ∨
    (s.Ticks ∧ step s = tick s) := by
  cases hr : s.pins.reset
  · cases he : s.engineState
    · cases hi : s.pins.iterates
      · exact .inr (.inl ⟨rfl, .inr rfl, by simp [step, cycle, hr, he, hi]⟩)
      · cases ha : s.pins.abort
        · by_cases hc : s.maxCycles ≤ s.clock
          · exact .inr (.inr (.inr (.inl ⟨rfl, rfl, rfl, rfl, hc, by simp [step, cycle, iteration, hr, he, hi, ha, hc]⟩)))
          · exact .inr (.inr (.inr (.inr
              ⟨⟨hr, he, hi, ha, by omega⟩, by simp [step, cycle, iteration, hr, he, hi, ha, hc]⟩)))
        · exact .inr (.inr (.inl ⟨rfl, rfl, rfl, rfl, by simp [step, cycle, iteration, hr, he, hi, ha]⟩))
    · exact .inr (.inl ⟨rfl, .inl rfl, by simp [step, cycle, hr, he]⟩)
  · exact .inl ⟨rfl, by simp [step, cycle, hr]⟩

/-- A ticking state's step is its tick. -/
theorem step_of_ticks {s : State} (h : s.Ticks) : step s = tick s := by
  obtain ⟨h1, h2, h3, h4, h5⟩ := h
  rcases step_cases s with h | h | h | h | h
  · rw [h1] at h; exact absurd h.1 (by simp)
  · rcases h.2.1 with h | h
    · rw [h2] at h; exact absurd h (by simp)
    · rw [h3] at h; exact absurd h (by simp)
  · rw [h4] at h; exact absurd h.2.2.2.1 (by simp)
  · omega
  · exact h.2

end Sys2Proof.Machine
end

