-- ==== Sys2Proof/Laws/Tick.lean ====
section
/-! SUPPORT. A tick in explicit form: the state each stage function leaves, written out once, and the tick as their
composition. -/

namespace Sys2Proof.Machine

/-- WB. -/
def afterWb (s : State) : State :=
  { s with
    stage := .wb
    rf := if s.latW.valid && s.latW.instr.opcode.resultProducing then
        (commit s.latW.instr.fields.rd s.latW.resValue s).rf else s.rf
    haltRetired := s.latW.halts || s.haltRetired
    completed := s.completed + (if s.latW.valid then 1 else 0)
    latW := s.latW.cleared }

/-- MEM, without an error. -/
def afterMem (s : State) : State :=
  { s with
    stage := .mem
    dmem := if s.latM.valid && isStore s.latM.instr.opcode then
        Memory.writeWord s.dmem s.latM.memAddress.toNat s.latM.rs1Value else s.dmem
    latW := if s.latM.valid then s.latM.loaded s else s.latW
    latM := (if s.latM.valid then s.latM.loaded s else s.latM).cleared }

/-- EX, without an error. -/
def afterEx (s : State) : State :=
  { s with
    stage := .ex
    zero := if s.latE.valid then exZero s.latE.instr s.latE s.zero else s.zero
    pc := if takesBranch s then s.latE.pc + s.latE.instr.fields.imm.toInt else s.pc
    latD := if takesBranch s then s.latD.cleared else s.latD
    redirectPending := takesBranch s || s.redirectPending
    haltFetched := !takesBranch s && s.haltFetched
    latM := if s.latE.valid then executedLatch s.latE.instr s.latE else s.latM
    latE := (if s.latE.valid then executedLatch s.latE.instr s.latE else s.latE).cleared }

/-- DEC. -/
def afterDec (s : State) : State :=
  { s with
    stage := .dec
    rf := if s.latD.valid && s.latD.instr.opcode.resultProducing then
        (markPending s.latD.instr.fields.rd s).rf else s.rf
    latE := if s.latD.valid then resolvedLatch s.latD.instr s else s.latE
    latD := (if s.latD.valid then resolvedLatch s.latD.instr s else s.latD).cleared }

/-- FETCH of a record. -/
def afterFetch (i : Instr) (s : State) : State :=
  { s with
    stage := .fetch
    pc := s.pc + (s.instrWidth : Int)
    haltFetched := decide (i.opcode = .halt) || s.haltFetched
    latF := (Latch.fetched i s.pc).cleared
    latD := Latch.fetched i s.pc }

/-- MEM raises AddressingError (R183). -/
abbrev memFails (s : State) : Prop := s.RaisesAddressing

/-- EX raises ArithmeticError (R182). -/
abbrev exFails (s : State) : Prop := s.latE.valid = true ∧ divFails s.latE.instr s.latE = true

theorem Latch.cleared_eq {l : Latch} (h : l.valid = false) : l.cleared = l := by
  cases l
  simp_all [Latch.cleared]

theorem runStage_of_invalid {st : Stage} {s : State} (h : (s.latchOf st).valid = false) :
    runStage st s = .next (enterStage st s) := by
  simp [runStage, h]

theorem runStage_of_valid {st : Stage} {s : State} (h : (s.latchOf st).valid = true)
    (hw : (s.latchOf st).instr.wellFormed s.nregs = true) :
    runStage st s =
      .next (performed (s.latchOf st).instr (actionsOf (s.latchOf st).instr) (enterStage st s)) := by
  simp only [runStage, h, if_true, exec_eq]
  rw [if_pos (by simpa [State.nregs] using hw)]

/-- WB in explicit form. -/
theorem runStage_wb {s : State} (hw : s.latW.valid = true → s.latW.instr.wellFormed s.nregs = true) :
    runStage .wb s = .next (afterWb s) := by
  cases hv : s.latW.valid
  · rw [runStage_of_invalid (by exact hv)]
    simp [afterWb, Latch.cleared_eq hv, hv, Latch.halts, enterStage]
  · rw [runStage_of_valid (by exact hv) (by exact hw hv), performed_wb _ rfl]
    simp only [State.latchOf, enterStage, afterWb, hv, Latch.halts, Bool.true_and, if_true]
    congr 2
    by_cases h : s.latW.instr.opcode = .halt <;> simp [h]

/-- MEM in explicit form. -/
theorem runStage_mem {s : State} (hw : s.latM.valid = true → s.latM.instr.wellFormed s.nregs = true) :
    runStage .mem s =
      if memFails s then
        .next (stopWith .addressingError
          (.addressing s.latM.pc s.latM.instr.opcode s.latM.memAddress) (enterStage .mem s))
      else .next (afterMem s) := by
  rcases (Bool.eq_false_or_eq_true s.latM.valid).symm with hv | hv
  · rw [runStage_of_invalid (by exact hv), if_neg (by simp [memFails, hv])]
    simp [afterMem, Latch.cleared_eq hv, hv, enterStage]
  · rw [runStage_of_valid (by exact hv) (by exact hw hv)]
    have hls : isLoad s.latM.instr.opcode = true → isStore s.latM.instr.opcode = false := by
      cases s.latM.instr.opcode <;> simp [isLoad, isStore]
    rcases performed_mem s.latM.instr (s := enterStage .mem s) rfl with ⟨hl, ha, e⟩ | ⟨hs, ha, e⟩ | ⟨hls', ha, e⟩ | ⟨hl, hs, e⟩
    · rw [if_neg (fun h => h.2.2 ha)]
      refine congrArg _ (e.trans ?_)
      simp [afterMem, hv, hl, hls hl, Latch.loaded, memoryToWriteback, setLoaded, enterStage, State.dmemWord, Latch.cleared]
    · rw [if_neg (fun h => h.2.2 ha)]
      have hl : isLoad s.latM.instr.opcode = false := by
        cases h : isLoad s.latM.instr.opcode
        · rfl
        · rw [hls h] at hs; cases hs
      refine congrArg _ (e.trans ?_)
      simp [afterMem, hv, hl, hs, Latch.loaded, memoryToWriteback, enterStage]
    · rw [if_pos ⟨hv, hls', ha⟩]
      exact congrArg _ e
    · rw [if_neg (fun h => by rcases h.2.1 with h | h <;> simp_all)]
      refine congrArg _ (e.trans ?_)
      simp [afterMem, hv, hl, hs, Latch.loaded, memoryToWriteback, enterStage]

theorem takesBranch_eq (s : State) : takesBranch s = (s.latE.valid && branches s.latE.instr s.zero) := by
  unfold takesBranch branches
  cases s.latE.instr.opcode <;> rfl

/-- EX in explicit form. -/
theorem runStage_ex {s : State} (hw : s.latE.valid = true → s.latE.instr.wellFormed s.nregs = true) :
    runStage .ex s =
      if exFails s then
        .next (stopWith .arithmeticError (.arithmetic s.latE.pc .div) (enterStage .ex s))
      else .next (afterEx s) := by
  rcases (Bool.eq_false_or_eq_true s.latE.valid).symm with hv | hv
  · rw [runStage_of_invalid (by exact hv), if_neg (by simp [exFails, hv])]
    simp [afterEx, takesBranch_eq, Latch.cleared_eq hv, hv, enterStage]
  · rw [runStage_of_valid (by exact hv) (by exact hw hv), performed_ex _ rfl]
    by_cases hd : divFails s.latE.instr s.latE = true
    · have he : exFails s := ⟨hv, hd⟩
      rw [if_pos he]
      simp [State.latchOf, hd]
    · have he : ¬ exFails s := fun h => hd h.2
      rw [if_neg he]
      simp only [State.latchOf, enterStage_latE, hd, Bool.false_eq_true, if_false, afterEx, takesBranch_eq, hv,
        Bool.true_and, if_true]
      cases hb : branches s.latE.instr s.zero <;> simp [enterStage, hb]

/-- DEC in explicit form. -/
theorem runStage_dec {s : State} (hw : s.latD.valid = true → s.latD.instr.wellFormed s.nregs = true) :
    runStage .dec s = .next (afterDec s) := by
  cases hv : s.latD.valid
  · rw [runStage_of_invalid (by exact hv)]
    simp [afterDec, Latch.cleared_eq hv, hv, enterStage]
  · rw [runStage_of_valid (by exact hv) (by exact hw hv), performed_dec _ rfl]
    simp only [State.latchOf, enterStage, afterDec, hv, Bool.true_and, if_true]
    rfl

/-- A stage that answers a next state had a well-formed record or none. -/
theorem runStage_wellFormed {st : Stage} {s t : State} (h : runStage st s = .next t) :
    (s.latchOf st).valid = true → (s.latchOf st).instr.wellFormed s.nregs = true := by
  rcases runStage_next h with h | h
  · exact fun _ => h.2.1
  · intro hv; rw [h.1] at hv; cases hv

/-- FETCH of a well-formed record in explicit form. -/
theorem fetched_eq (i : Instr) (s : State) :
    performed i (actionsOf i) (enterStage .fetch s) = afterFetch i s := by
  rw [performed_fetch _ rfl]
  simp only [afterFetch, enterStage]
  by_cases h : i.opcode = .halt <;> simp [h]

/-! ## The tick -/

/-- The state WB leaves at the start of a tick. -/
def tickWb (s : State) : State := afterWb { s with haltRetired := false }

/-- The state DEC leaves in a tick without an error before it. -/
def tickDec (s : State) : State := afterDec (afterEx (afterMem (tickWb s)))

/-- The end of a tick that no error abandoned (R91). -/
def finishTick (s : State) : State :=
  enterStage .fetch (if s.haltRetired then stopWith .halt .none s else { s with clock := s.clock + 1 })

theorem finishTick_enterStage (v : State) : finishTick (enterStage .fetch v) = finishTick v := by
  unfold finishTick
  cases h : v.haltRetired <;> simp [enterStage, stopWith, h]

@[simp] theorem takesBranch_tickWb (s : State) : takesBranch (tickWb s) = takesBranch s := rfl

@[simp] theorem takesBranch_afterMem (s : State) : takesBranch (afterMem s) = takesBranch s := rfl

@[simp] theorem tickWb_engineState (s : State) : (tickWb s).engineState = s.engineState := rfl

@[simp] theorem tickDec_engineState (s : State) : (tickDec s).engineState = s.engineState := rfl

@[simp] theorem afterMem_engineState (s : State) : (afterMem s).engineState = s.engineState := rfl

@[simp] theorem afterEx_engineState (s : State) : (afterEx s).engineState = s.engineState := rfl

theorem nregs_tickWb (s : State) : (tickWb s).nregs = s.nregs := by
  simp only [tickWb, afterWb, State.nregs]
  split <;> simp

theorem nregs_afterMem (s : State) : (afterMem s).nregs = s.nregs := rfl

theorem nregs_afterEx (s : State) : (afterEx s).nregs = s.nregs := rfl

theorem nregs_afterDec (s : State) : (afterDec s).nregs = s.nregs := by
  simp only [afterDec, State.nregs]
  split <;> simp

theorem nregs_tickDec (s : State) : (tickDec s).nregs = s.nregs := by
  rw [tickDec, nregs_afterDec, nregs_afterEx, nregs_afterMem, nregs_tickWb]

/-- Everything a tick of a running engine can do (R91, R187), with the records that were executed well-formed. -/
theorem tick_cases {s t : State} (hr : s.engineState = .running) (h : tick s = .next t) :
    (s.latW.valid = true → s.latW.instr.wellFormed s.nregs = true) ∧
    (s.latM.valid = true → s.latM.instr.wellFormed s.nregs = true) ∧
    ((memFails (tickWb s) ∧
        t = enterStage .fetch (stopWith .addressingError
          (.addressing s.latM.pc s.latM.instr.opcode s.latM.memAddress) (tickWb s))) ∨
     (¬ memFails (tickWb s) ∧ (s.latE.valid = true → s.latE.instr.wellFormed s.nregs = true) ∧
       ((exFails s ∧
          t = enterStage .fetch (stopWith .arithmeticError (.arithmetic s.latE.pc .div) (afterMem (tickWb s)))) ∨
        (¬ exFails s ∧
          (takesBranch s = false → s.latD.valid = true → s.latD.instr.wellFormed s.nregs = true) ∧
          (((tickDec s).redirectPending = true ∧
              t = finishTick { tickDec s with redirectPending := false }) ∨
           ((tickDec s).redirectPending = false ∧ (tickDec s).haltFetched = true ∧ t = finishTick (tickDec s)) ∨
           ((tickDec s).redirectPending = false ∧ (tickDec s).haltFetched = false ∧
              iFetch (tickDec s) (tickDec s).pc = none ∧
              t = enterStage .fetch (stopWith .fetchAddressError (.fetch (tickDec s).pc) (tickDec s))) ∨
           ((tickDec s).redirectPending = false ∧ (tickDec s).haltFetched = false ∧
              ∃ w i, iFetch (tickDec s) (tickDec s).pc = some w ∧ decode w = .ok i ∧
                i.wellFormed s.nregs = true ∧ t = finishTick (afterFetch i (tickDec s)))))))) := by
  obtain ⟨u, hu, htu⟩ := tick_next h
  obtain ⟨s4, hb, hs4⟩ := thenStage_next hu
  obtain ⟨s3, hb3, hs3⟩ := thenStage_next hb
  obtain ⟨s2, hb2, hs2⟩ := thenStage_next hb3
  obtain ⟨s1, hb1, hs1⟩ := thenStage_next hb2
  have w1 := runStage_wellFormed hb1
  rw [runStage_wb (s := { s with haltRetired := false }) w1] at hb1
  cases hb1
  have n1 : (afterWb { s with haltRetired := false }).nregs = s.nregs := nregs_tickWb s
  obtain ⟨-, hs1⟩ | ⟨hs1, -⟩ := hs1
  swap
  · exact absurd (hr.symm.trans hs1) (by simp)
  have w2 := runStage_wellFormed hs1
  rw [runStage_mem w2] at hs1
  rw [n1] at w2
  refine ⟨w1, w2, ?_⟩
  split at hs1
  · rename_i hf
    cases hs1
    obtain ⟨hs2, -⟩ | ⟨-, rfl⟩ := hs2
    · cases hs2
    obtain ⟨hs3, -⟩ | ⟨-, rfl⟩ := hs3
    · cases hs3
    obtain ⟨hs4, -⟩ | ⟨-, rfl⟩ := hs4
    · cases hs4
    refine .inl ⟨hf, ?_⟩
    rcases htu with ⟨-, rfl⟩ | ⟨hx, -⟩ | ⟨hx, -⟩
    · rfl
    · cases hx
    · cases hx
  · rename_i hf
    cases hs1
    refine .inr ⟨hf, ?_⟩
    obtain ⟨-, hs2⟩ | ⟨hs2, -⟩ := hs2
    swap
    · exact absurd (hr.symm.trans hs2) (by simp)
    have w3 := runStage_wellFormed hs2
    rw [runStage_ex w3] at hs2
    rw [nregs_afterMem, n1] at w3
    refine ⟨w3, ?_⟩
    split at hs2
    · rename_i he
      cases hs2
      obtain ⟨hs3, -⟩ | ⟨-, rfl⟩ := hs3
      · cases hs3
      obtain ⟨hs4, -⟩ | ⟨-, rfl⟩ := hs4
      · cases hs4
      refine .inl ⟨he, ?_⟩
      rcases htu with ⟨-, rfl⟩ | ⟨hx, -⟩ | ⟨hx, -⟩
      · rfl
      · cases hx
      · cases hx
    · rename_i he
      cases hs2
      refine .inr ⟨he, ?_⟩
      obtain ⟨-, hs3⟩ | ⟨hs3, -⟩ := hs3
      swap
      · exact absurd (hr.symm.trans hs3) (by simp)
      have w4 := runStage_wellFormed hs3
      rw [runStage_dec w4] at hs3
      rw [nregs_afterEx, nregs_afterMem, n1] at w4
      cases hs3
      refine ⟨fun hb hd => ?_, ?_⟩
      · have e : (afterEx (afterMem (afterWb { s with haltRetired := false }))).latD = s.latD := by
          have : takesBranch (afterMem (afterWb { s with haltRetired := false })) = false := hb
          simp only [afterEx, this, Bool.false_eq_true, if_false]
          rfl
        simp only [State.latchOf, e] at w4
        exact w4 hd
      obtain ⟨-, hs4⟩ | ⟨hs4, -⟩ := hs4
      swap
      · exact absurd (hr.symm.trans hs4) (by simp)
      change fetchStage (tickDec s) = .next u at hs4
      have hr4 : (tickDec s).engineState = .running := hr
      have fin : ∀ v : State, v.engineState = .running → u = v → t = finishTick v := by
        rintro v hv rfl
        unfold finishTick
        rcases htu with ⟨hx, -⟩ | ⟨-, hx, rfl⟩ | ⟨-, hx, rfl⟩
        · rw [hv] at hx; cases hx
        · rw [if_pos hx]
        · rw [if_neg (by simp [hx])]
      rcases fetchStage_next hs4 with ⟨h1, e⟩ | ⟨h1, h2, e⟩ | ⟨h1, h2, h3, e⟩ | ⟨h1, h2, w, i, h3, h4, h5, e⟩
      · refine .inl ⟨h1, ?_⟩
        have := fin _ (by rw [e]; exact hr4) rfl
        rw [this, e]
        exact finishTick_enterStage { tickDec s with redirectPending := false }
      · refine .inr (.inl ⟨h1, h2, ?_⟩)
        have := fin _ (by rw [e]; exact hr4) rfl
        rw [this, e]
        exact finishTick_enterStage (tickDec s)
      · refine .inr (.inr (.inl ⟨h1, h2, h3, ?_⟩))
        rcases htu with ⟨-, rfl⟩ | ⟨hx, -⟩ | ⟨hx, -⟩
        · rw [e]; rfl
        · rw [e] at hx; cases hx
        · rw [e] at hx; cases hx
      · refine .inr (.inr (.inr ⟨h1, h2, w, i, h3, h4, ?_, ?_⟩))
        · have := nregs_tickDec s
          rw [← this]; exact h5
        · rw [fetched_eq] at e
          have := fin _ (by rw [e]; exact hr4) rfl
          rw [this, e]

/-- A tick over well-formed records up to FETCH: the first error abandons it (R187, R188). -/
theorem tick_eq {s : State} (hr : s.engineState = .running)
    (hW : s.latW.valid = true → s.latW.instr.wellFormed s.nregs = true)
    (hM : s.latM.valid = true → s.latM.instr.wellFormed s.nregs = true)
    (hE : s.latE.valid = true → s.latE.instr.wellFormed s.nregs = true)
    (hD : takesBranch s = false → s.latD.valid = true → s.latD.instr.wellFormed s.nregs = true) :
    tick s =
      if memFails (tickWb s) then
        .next (enterStage .fetch (stopWith .addressingError
          (.addressing s.latM.pc s.latM.instr.opcode s.latM.memAddress) (tickWb s)))
      else if exFails s then
        .next (enterStage .fetch (stopWith .arithmeticError (.arithmetic s.latE.pc .div) (afterMem (tickWb s))))
      else atBoundary (thenStage (fetchStage (tickDec s)) endTick) := by
  have n1 : (tickWb s).nregs = s.nregs := nregs_tickWb s
  have e1 : runStage .wb { s with haltRetired := false } = .next (tickWb s) := runStage_wb hW
  have hr1 : (tickWb s).engineState = .running := hr
  unfold tick beforeFetch
  rw [e1, thenStage_running hr1, runStage_mem (by rw [n1]; exact hM)]
  by_cases hf : memFails (tickWb s)
  · rw [if_pos hf, if_pos hf]
    rfl
  rw [if_neg hf, if_neg hf, thenStage_running (by exact hr1),
    runStage_ex (by rw [nregs_afterMem, n1]; exact hE)]
  have hx : exFails (afterMem (tickWb s)) ↔ exFails s := Iff.rfl
  by_cases he : exFails s
  · rw [if_pos (hx.mpr he), if_pos he]
    rfl
  rw [if_neg (fun h => he (hx.mp h)), if_neg he, thenStage_running (by exact hr1), runStage_dec, thenStage_running (by exact hr1)]
  · rfl
  · rw [nregs_afterEx, nregs_afterMem, n1]
    cases hb : takesBranch s
    · have : (afterEx (afterMem (tickWb s))).latD = s.latD := by
        simp only [afterEx, takesBranch_afterMem, takesBranch_tickWb, hb, Bool.false_eq_true, if_false]
        rfl
      rw [this]
      exact hD hb
    · intro hv
      simp only [afterEx, takesBranch_afterMem, takesBranch_tickWb, hb, if_true] at hv
      cases hv

end Sys2Proof.Machine
end

