-- ==== Sys2Proof/Laws/Fields.lean ====
section
/-! SUPPORT. A tick without an error, field by field: what each piece of state is after it. -/

namespace Sys2Proof.Machine

/-- A tick without an error. -/
theorem tick_completes {s t : State} (hs : s.Ticks) (h : step s = .next t) (he : t.termReason.isTickError = false) :
    (s.latW.valid = true → s.latW.instr.wellFormed s.nregs = true) ∧
    (s.latM.valid = true → s.latM.instr.wellFormed s.nregs = true) ∧
    (s.latE.valid = true → s.latE.instr.wellFormed s.nregs = true) ∧
    (takesBranch s = false → s.latD.valid = true → s.latD.instr.wellFormed s.nregs = true) ∧
    ¬ memFails (tickWb s) ∧ ¬ exFails s ∧
    (((tickDec s).redirectPending = true ∧ t = finishTick { tickDec s with redirectPending := false }) ∨
     ((tickDec s).redirectPending = false ∧ (tickDec s).haltFetched = true ∧ t = finishTick (tickDec s)) ∨
     ((tickDec s).redirectPending = false ∧ (tickDec s).haltFetched = false ∧
        ∃ w i, iFetch (tickDec s) (tickDec s).pc = some w ∧ decode w = .ok i ∧
          i.wellFormed s.nregs = true ∧ t = finishTick (afterFetch i (tickDec s)))) := by
  rw [step_of_ticks hs] at h
  obtain ⟨hW, hM, ⟨-, rfl⟩ | ⟨hm, hE, ⟨-, rfl⟩ | ⟨hx, hD, h1 | h1 | ⟨-, -, -, rfl⟩ | h1⟩⟩⟩ := tick_cases hs.2.1 h
  · cases he
  · cases he
  · exact ⟨hW, hM, hE, hD, hm, hx, .inl h1⟩
  · exact ⟨hW, hM, hE, hD, hm, hx, .inr (.inl h1)⟩
  · cases he
  · exact ⟨hW, hM, hE, hD, hm, hx, .inr (.inr h1)⟩

/-- The end of a tick writes only the clock and the engine's outputs. -/
theorem finishTick_fields (u : State) :
    (finishTick u).rf = u.rf ∧ (finishTick u).dmem = u.dmem ∧ (finishTick u).zero = u.zero ∧ (finishTick u).pc = u.pc ∧
    (finishTick u).latF = u.latF ∧ (finishTick u).latD = u.latD ∧ (finishTick u).latE = u.latE ∧
    (finishTick u).latM = u.latM ∧ (finishTick u).latW = u.latW ∧ (finishTick u).completed = u.completed ∧
    (finishTick u).redirectPending = u.redirectPending ∧ (finishTick u).haltFetched = u.haltFetched := by
  unfold finishTick
  split <;> simp [enterStage, stopWith]

/-- The end of a running tick, then the return to the boundary. -/
theorem finish_running {u : State} (hr : u.engineState = .running) :
    atBoundary (thenStage (.next u) endTick) = .next (finishTick u) := by
  rw [thenStage_running hr, endTick, finishTick]
  split <;> rfl

/-- What the end of a tick leaves of a running engine. -/
theorem finishTick_engineState {u : State} (hr : u.engineState = .running) :
    (finishTick u).engineState = if u.haltRetired = true then .halted else .running := by
  unfold finishTick
  split
  · rfl
  · exact hr

theorem finishTick_termReason (u : State) :
    (finishTick u).termReason = if u.haltRetired = true then .halt else u.termReason := by
  unfold finishTick
  split <;> rfl

theorem finishTick_clock (u : State) :
    (finishTick u).clock = if u.haltRetired = true then u.clock else u.clock + 1 := by
  unfold finishTick
  split <;> rfl

/-- A tick without an error leaves the registers, memory, flag, count and latches that DEC left. -/
theorem tick_keeps {s t : State} (hs : s.Ticks) (h : step s = .next t) (he : t.termReason.isTickError = false) :
    t.rf = (tickDec s).rf ∧ t.dmem = (tickDec s).dmem ∧ t.zero = (tickDec s).zero ∧
    t.latE = (tickDec s).latE ∧ t.latM = (tickDec s).latM ∧ t.latW = (tickDec s).latW ∧
    t.completed = (tickDec s).completed := by
  obtain ⟨-, -, -, -, -, -, ⟨-, rfl⟩ | ⟨-, -, rfl⟩ | ⟨-, -, w, i, -, -, -, rfl⟩⟩ := tick_completes hs h he
  · have := finishTick_fields { tickDec s with redirectPending := false }; tauto
  · have := finishTick_fields (tickDec s); tauto
  · have := finishTick_fields (afterFetch i (tickDec s))
    simp only [afterFetch] at this ⊢; tauto
/-! ## The state after DEC, field by field -/

theorem tickDec_zero (s : State) :
    (tickDec s).zero = if s.latE.valid then exZero s.latE.instr s.latE s.zero else s.zero := rfl

theorem tickDec_pc (s : State) :
    (tickDec s).pc = if takesBranch s then s.latE.pc + s.latE.instr.fields.imm.toInt else s.pc := rfl

theorem tickDec_redirectPending (s : State) : (tickDec s).redirectPending = (takesBranch s || s.redirectPending) := rfl

theorem tickDec_haltFetched (s : State) : (tickDec s).haltFetched = (!takesBranch s && s.haltFetched) := rfl

theorem tickDec_haltRetired (s : State) : (tickDec s).haltRetired = s.latW.halts := Bool.or_false _

theorem tickDec_completed (s : State) :
    (tickDec s).completed = s.completed + (if s.latW.valid then 1 else 0) := rfl

theorem tickDec_dmem (s : State) :
    (tickDec s).dmem = if s.latM.valid && isStore s.latM.instr.opcode then
      Memory.writeWord s.dmem s.latM.memAddress.toNat s.latM.rs1Value else s.dmem := rfl

theorem tickDec_latW (s : State) :
    (tickDec s).latW = if s.latM.valid then s.latM.loaded s else s.latW.cleared := rfl

/-- What MEM leaves in `M`. -/
theorem tickDec_latM (s : State) :
    (tickDec s).latM = if s.latE.valid then executedLatch s.latE.instr s.latE
      else (if s.latM.valid then s.latM.loaded s else s.latM).cleared := rfl

theorem tickDec_latD_valid (s : State) : (tickDec s).latD.valid = false := rfl

/-- The state DEC resolves operands in. -/
def tickEx (s : State) : State := afterEx (afterMem (tickWb s))

theorem tickEx_latD (s : State) : (tickEx s).latD = if takesBranch s then s.latD.cleared else s.latD := rfl

theorem tickEx_latE (s : State) :
    (tickEx s).latE = (if s.latE.valid then executedLatch s.latE.instr s.latE else s.latE).cleared := rfl

theorem tickEx_latM (s : State) : (tickEx s).latM = (tickDec s).latM := rfl

theorem tickEx_latW (s : State) : (tickEx s).latW = (tickDec s).latW := rfl

theorem tickEx_rf (s : State) : (tickEx s).rf = (tickWb s).rf := rfl

theorem tickDec_latE (s : State) :
    (tickDec s).latE = if takesBranch s = false ∧ s.latD.valid = true then resolvedLatch s.latD.instr (tickEx s)
      else (tickEx s).latE := by
  have e : (tickDec s).latE = if (tickEx s).latD.valid then resolvedLatch (tickEx s).latD.instr (tickEx s)
      else (tickEx s).latE := rfl
  rw [e, tickEx_latD]
  cases takesBranch s <;> simp [Latch.cleared]

theorem nregs_tickEx (s : State) : (tickEx s).nregs = s.nregs := by
  rw [tickEx, nregs_afterEx, nregs_afterMem, nregs_tickWb]

/-- The destination of a well-formed result-producing record is a register (R77). -/
theorem rd_lt_of_wellFormed {i : Instr} {n : Nat} (hw : i.wellFormed n = true)
    (hp : i.opcode.resultProducing = true) : i.fields.rd.toNat < n := by
  have hp' : i.opcode.format.usesRd = true := hp
  simp only [Instr.wellFormed, fieldOk, hp', Bool.not_true, Bool.false_or, Bool.and_eq_true, decide_eq_true_eq] at hw
  exact hw.1.1.1

theorem Latch.writes_iff (l : Latch) (r : RegIdx) :
    l.writes r = true ↔ l.valid = true ∧ l.instr.opcode.resultProducing = true ∧ l.instr.fields.rd = r := by
  simp [Latch.writes, and_assoc]

/-- WB writes the register of the instruction in `W` (R93). -/
theorem x_tickEx {s : State} (hw : s.latW.valid = true → s.latW.instr.wellFormed s.nregs = true) (r : RegIdx) :
    (tickEx s).x r = if s.latW.writes r = true then s.latW.resValue else s.x r := by
  have e : (tickEx s).x r = if s.latW.valid && s.latW.instr.opcode.resultProducing then
      (commit s.latW.instr.fields.rd s.latW.resValue s).x r else s.x r := by
    unfold State.x
    rw [tickEx_rf]
    simp only [tickWb, afterWb]
    split <;> rfl
  rw [e, x_commit]
  by_cases hv : (s.latW.valid && s.latW.instr.opcode.resultProducing) = true
  · rw [if_pos hv]
    simp only [Bool.and_eq_true] at hv
    have hlt := rd_lt_of_wellFormed (hw hv.1) hv.2
    by_cases hr : s.latW.instr.fields.rd = r
    · subst hr
      rw [if_pos ⟨rfl, hlt⟩, if_pos ((Latch.writes_iff _ _).mpr ⟨hv.1, hv.2, rfl⟩)]
    · rw [if_neg (fun h => hr h.1), if_neg (fun h => hr ((Latch.writes_iff _ _).mp h).2.2)]
  · rw [if_neg hv, if_neg]
    exact fun h => hv (by simp [((Latch.writes_iff _ _).mp h).1, ((Latch.writes_iff _ _).mp h).2.1])

/-- WB makes it available (R93). -/
theorem avail_tickEx {s : State} (hw : s.latW.valid = true → s.latW.instr.wellFormed s.nregs = true) (r : RegIdx) :
    (tickEx s).avail r = (s.avail r || s.latW.writes r) := by
  have e : (tickEx s).avail r = if s.latW.valid && s.latW.instr.opcode.resultProducing then
      (commit s.latW.instr.fields.rd s.latW.resValue s).avail r else s.avail r := by
    unfold State.avail
    rw [tickEx_rf]
    simp only [tickWb, afterWb]
    split <;> rfl
  rw [e, avail_commit]
  by_cases hv : (s.latW.valid && s.latW.instr.opcode.resultProducing) = true
  · rw [if_pos hv]
    simp only [Bool.and_eq_true] at hv
    have hlt := rd_lt_of_wellFormed (hw hv.1) hv.2
    by_cases hr : s.latW.instr.fields.rd = r
    · subst hr
      rw [if_pos ⟨rfl, hlt⟩, (Latch.writes_iff _ _).mpr ⟨hv.1, hv.2, rfl⟩, Bool.or_true]
    · have : s.latW.writes r = false := Bool.eq_false_iff.mpr fun h => hr ((Latch.writes_iff _ _).mp h).2.2
      rw [if_neg (fun h => hr h.1), this, Bool.or_false]
  · have : s.latW.writes r = false := Bool.eq_false_iff.mpr fun h =>
      hv (by simp [((Latch.writes_iff _ _).mp h).1, ((Latch.writes_iff _ _).mp h).2.1])
    rw [if_neg hv, this, Bool.or_false]

theorem tickDec_rf (s : State) :
    (tickDec s).rf = if (tickEx s).latD.valid && (tickEx s).latD.instr.opcode.resultProducing then
      (markPending (tickEx s).latD.instr.fields.rd (tickEx s)).rf else (tickEx s).rf := rfl

/-- DEC changes no register word. -/
theorem x_tickDec (s : State) (r : RegIdx) : (tickDec s).x r = (tickEx s).x r := by
  have e : (tickDec s).x r = if (tickEx s).latD.valid && (tickEx s).latD.instr.opcode.resultProducing then
      (markPending (tickEx s).latD.instr.fields.rd (tickEx s)).x r else (tickEx s).x r := by
    unfold State.x
    rw [tickDec_rf]
    split <;> rfl
  rw [e, x_markPending, ite_self]

/-- DEC marks the destination of a decoded record pending (R99). -/
theorem avail_tickDec {s : State}
    (hd : takesBranch s = false → s.latD.valid = true → s.latD.instr.wellFormed s.nregs = true) (r : RegIdx) :
    (tickDec s).avail r = if takesBranch s = false ∧ s.latD.writes r = true then false else (tickEx s).avail r := by
  have e : (tickDec s).avail r = if (tickEx s).latD.valid && (tickEx s).latD.instr.opcode.resultProducing then
      (markPending (tickEx s).latD.instr.fields.rd (tickEx s)).avail r else (tickEx s).avail r := by
    unfold State.avail
    rw [tickDec_rf]
    split <;> rfl
  rw [e, avail_markPending, nregs_tickEx, tickEx_latD]
  cases hb : takesBranch s
  · simp only [Bool.false_eq_true, if_false, true_and]
    by_cases hv : (s.latD.valid && s.latD.instr.opcode.resultProducing) = true
    · rw [if_pos hv]
      simp only [Bool.and_eq_true] at hv
      have hlt := rd_lt_of_wellFormed (hd hb hv.1) hv.2
      by_cases hr : s.latD.instr.fields.rd = r
      · subst hr
        rw [if_pos ⟨rfl, hlt⟩, if_pos ((Latch.writes_iff _ _).mpr ⟨hv.1, hv.2, rfl⟩)]
      · rw [if_neg (fun h => hr h.1), if_neg (fun h => hr ((Latch.writes_iff _ _).mp h).2.2)]
    · rw [if_neg hv, if_neg]
      exact fun h => hv (by simp [((Latch.writes_iff _ _).mp h).1, ((Latch.writes_iff _ _).mp h).2.1])
  · simp [Latch.cleared]

/-! ## Registers and latches, compared -/

theorem x_congr {s t : State} (h : s.rf = t.rf) (r : RegIdx) : s.x r = t.x r := by simp only [State.x, h]

theorem avail_congr {s t : State} (h : s.rf = t.rf) (r : RegIdx) : s.avail r = t.avail r := by
  simp only [State.avail, h]

theorem Latch.writes_congr {l m : Latch} (h1 : l.valid = m.valid) (h2 : l.valid = true → l.instr = m.instr)
    (r : RegIdx) : l.writes r = m.writes r := by
  unfold Latch.writes
  rw [← h1]
  cases h : l.valid
  · rfl
  · rw [h2 h]

theorem Latch.halts_congr {l m : Latch} (h1 : l.valid = m.valid) (h2 : l.valid = true → l.instr = m.instr) :
    l.halts = m.halts := by
  unfold Latch.halts
  rw [← h1]
  cases h : l.valid
  · rfl
  · rw [h2 h]

/-- What `E` holds after a tick: the record of `D`, unless flushed (R96). -/
theorem tickDec_latE_valid (s : State) :
    (tickDec s).latE.valid = (!takesBranch s && s.latD.valid) ∧
    ((tickDec s).latE.valid = true →
      (tickDec s).latE.instr = s.latD.instr ∧ (tickDec s).latE.resTag = s.latD.resTag) := by
  rw [tickDec_latE]
  split
  · rename_i h
    simp [resolvedLatch, tickEx_latD, h.1, h.2]
  · rename_i h
    rw [tickEx_latE]
    cases hb : takesBranch s <;> cases hd : s.latD.valid <;> simp_all [Latch.cleared]

/-- What `M` holds after a tick: the record of `E` (R95). -/
theorem tickDec_latM_valid (s : State) :
    (tickDec s).latM.valid = s.latE.valid ∧
    ((tickDec s).latM.valid = true →
      (tickDec s).latM.instr = s.latE.instr ∧ (tickDec s).latM = executedLatch s.latE.instr s.latE) := by
  rw [tickDec_latM]
  split <;> simp_all [Latch.cleared, executedLatch]

/-- What `W` holds after a tick: the record of `M` (R94). -/
theorem tickDec_latW_valid (s : State) :
    (tickDec s).latW.valid = s.latM.valid ∧
    ((tickDec s).latW.valid = true →
      (tickDec s).latW.instr = s.latM.instr ∧ (tickDec s).latW = s.latM.loaded s) := by
  rw [tickDec_latW]
  split
  · unfold Latch.loaded
    split <;> simp_all
  · simp_all [Latch.cleared]

/-- When EX raises ArithmeticError (R134). -/
theorem divFails_iff (i : Instr) (l : Latch) :
    divFails i l = true ↔
      i.opcode = .div ∧ (l.rs2Value = 0 ∨ (l.rs1Value.toInt = -2147483648 ∧ l.rs2Value.toInt = -1)) := by
  have h0 : l.rs2Value.toInt = 0 ↔ l.rs2Value = 0 := by
    rw [← BitVec.toInt_inj]
    simp
  simp only [divFails, Bool.and_eq_true, decide_eq_true_eq, quotient]
  refine and_congr_right fun _ => ?_
  split
  · simp_all
  · split <;> simp_all

/-- The two ways to say that EX raises ArithmeticError. -/
theorem exFails_iff (s : State) : exFails s ↔ s.RaisesArithmetic := and_congr_right fun _ => divFails_iff _ _

/-- A tick in which DEC has run: the state DEC left, but for what FETCH and the end of the tick write. It covers the
ticks that FETCH abandons (R184, R187). -/
theorem tick_decodes {s t : State} (hs : s.Ticks) (h : step s = .next t) (hm : ¬ s.RaisesAddressing)
    (hx : ¬ s.RaisesArithmetic) :
    (s.latW.valid = true → s.latW.instr.wellFormed s.nregs = true) ∧
    (takesBranch s = false → s.latD.valid = true → s.latD.instr.wellFormed s.nregs = true) ∧
    t.rf = (tickDec s).rf ∧ t.dmem = (tickDec s).dmem ∧ t.zero = (tickDec s).zero ∧
    t.latE = (tickDec s).latE ∧ t.latM = (tickDec s).latM ∧ t.latW = (tickDec s).latW ∧
    t.completed = (tickDec s).completed := by
  rw [step_of_ticks hs] at h
  obtain ⟨hW, -, ⟨hm', -⟩ | ⟨-, -, ⟨hx', -⟩ | ⟨-, hD, h1⟩⟩⟩ := tick_cases hs.2.1 h
  · exact absurd hm' hm
  · exact absurd ((exFails_iff s).mp hx') hx
  refine ⟨hW, hD, ?_⟩
  rcases h1 with ⟨-, rfl⟩ | ⟨-, -, rfl⟩ | ⟨-, -, -, rfl⟩ | ⟨-, -, w, i, -, -, -, rfl⟩
  · have := finishTick_fields { tickDec s with redirectPending := false }; tauto
  · have := finishTick_fields (tickDec s); tauto
  · exact ⟨rfl, rfl, rfl, rfl, rfl, rfl, rfl⟩
  · have := finishTick_fields (afterFetch i (tickDec s))
    simp only [afterFetch] at this ⊢; tauto

/-- A tick without an error is one in which DEC has run. -/
theorem not_raises_of_no_error {s t : State} (hs : s.Ticks) (h : step s = .next t)
    (he : t.termReason.isTickError = false) : ¬ s.RaisesAddressing ∧ ¬ s.RaisesArithmetic := by
  obtain ⟨-, -, -, -, hm, hx, -⟩ := tick_completes hs h he
  exact ⟨hm, fun hr => hx ((exFails_iff s).mpr hr)⟩

theorem resultProducing_of_isLoad {o : Opcode} (h : isLoad o = true) : o.resultProducing = true := by
  cases o <;> first | rfl | cases h

theorem of_isStore {o : Opcode} (h : isStore o = true) : o.resultProducing = false ∧ isLoad o = false := by
  cases o <;> first | exact ⟨rfl, rfl⟩ | cases h

/-- What FETCH leaves when it raises no error: what DEC left, and in `D` nothing or the record it fetched. -/
def TickEnd (s u : State) : Prop :=
  u.engineState = .running ∧ u.termReason = s.termReason ∧ u.faultInfo = s.faultInfo ∧
  u.rf = (tickDec s).rf ∧ u.dmem = (tickDec s).dmem ∧
  u.latE = (tickDec s).latE ∧ u.latM = (tickDec s).latM ∧ u.latW = (tickDec s).latW ∧
  u.haltRetired = s.latW.halts ∧ u.clock = s.clock ∧ u.completed = (tickDec s).completed ∧
  u.pins = s.pins ∧ u.istore = s.istore ∧
  ((u.latD.valid = false ∧ u.redirectPending = false ∧ u.latF = s.latF ∧
      u.haltFetched = (!takesBranch s && s.haltFetched) ∧
      (takesBranch s = true ∨ s.redirectPending = true ∨ s.haltFetched = true)) ∨
   (∃ w i, u.latD = Latch.fetched i (tickDec s).pc ∧ s.redirectPending = false ∧ takesBranch s = false ∧
      s.haltFetched = false ∧ decode w = .ok i ∧ i.wellFormed s.nregs = true ∧
      u.haltFetched = decide (i.opcode = .halt) ∧ u.redirectPending = false ∧
      u.latF = (Latch.fetched i (tickDec s).pc).cleared))

/-- A tick, every case in one list: an AddressingError, an ArithmeticError, a FetchAddressError, or a state `u` at the
end of which the clock advances or a retired HALT stops the engine. -/
theorem tick_result {s t : State} (hs : s.Ticks) (h : step s = .next t) :
    (s.latW.valid = true → s.latW.instr.wellFormed s.nregs = true) ∧
    (s.latM.valid = true → s.latM.instr.wellFormed s.nregs = true) ∧
    ((memFails (tickWb s) ∧
        t = enterStage .fetch (stopWith .addressingError
          (.addressing s.latM.pc s.latM.instr.opcode s.latM.memAddress) (tickWb s))) ∨
     (¬ memFails (tickWb s) ∧ (s.latE.valid = true → s.latE.instr.wellFormed s.nregs = true) ∧
       ((exFails s ∧
          t = enterStage .fetch (stopWith .arithmeticError (.arithmetic s.latE.pc .div) (afterMem (tickWb s)))) ∨
        (¬ exFails s ∧
          (takesBranch s = false → s.latD.valid = true → s.latD.instr.wellFormed s.nregs = true) ∧
          ((∃ u, t = finishTick u ∧ TickEnd s u) ∨
            (t = enterStage .fetch (stopWith .fetchAddressError (.fetch (tickDec s).pc) (tickDec s)) ∧
              takesBranch s = false ∧ s.haltFetched = false ∧ s.redirectPending = false)))))) := by
  rw [step_of_ticks hs] at h
  obtain ⟨hW, hM, hh⟩ := tick_cases hs.2.1 h
  clear h
  refine ⟨hW, hM, ?_⟩
  have hh' := tickDec_haltRetired s
  rcases hh with ⟨h, rfl⟩ | ⟨hm, hE, ⟨h, rfl⟩ |
    ⟨hx, hD, ⟨h1, rfl⟩ | ⟨h1, h2, rfl⟩ | ⟨h1, h2, -, rfl⟩ | ⟨h1, h2, w, i, h3, h4, h5, rfl⟩⟩⟩
  · exact .inl ⟨h, rfl⟩
  · exact .inr ⟨hm, hE, .inl ⟨h, rfl⟩⟩
  · refine .inr ⟨hm, hE, .inr ⟨hx, hD, .inl ⟨_, rfl, hs.2.1, rfl, rfl, rfl, rfl, rfl, rfl, rfl, hh',
      rfl, rfl, rfl, rfl, .inl ⟨rfl, rfl, rfl, rfl, ?_⟩⟩⟩⟩
    rw [tickDec_redirectPending] at h1
    cases hb : takesBranch s <;> simp_all
  · refine .inr ⟨hm, hE, .inr ⟨hx, hD, .inl ⟨_, rfl, hs.2.1, rfl, rfl, rfl, rfl, rfl, rfl, rfl, hh',
      rfl, rfl, rfl, rfl, .inl ⟨rfl, h1, rfl, rfl, ?_⟩⟩⟩⟩
    rw [tickDec_haltFetched] at h2
    cases hb : takesBranch s <;> simp_all
  · rw [tickDec_redirectPending] at h1
    rw [tickDec_haltFetched] at h2
    refine .inr ⟨hm, hE, .inr ⟨hx, hD, .inr ⟨rfl, ?_, ?_, ?_⟩⟩⟩ <;> cases hb : takesBranch s <;> simp_all
  · have h1' := h1
    have h2' := h2
    rw [tickDec_redirectPending] at h1
    rw [tickDec_haltFetched] at h2
    refine .inr ⟨hm, hE, .inr ⟨hx, hD, .inl ⟨_, rfl, hs.2.1, rfl, rfl, rfl, rfl, rfl, rfl, rfl, hh',
      rfl, rfl, rfl, rfl, .inr ⟨w, i, rfl, ?_, ?_, ?_, h4, h5, ?_, h1', rfl⟩⟩⟩⟩
    · cases hb : takesBranch s <;> simp_all
    · cases hb : takesBranch s <;> simp_all
    · cases hb : takesBranch s <;> simp_all
    · change (decide (i.opcode = .halt) || (tickDec s).haltFetched) = _
      rw [h2', Bool.or_false]

end Sys2Proof.Machine
end

