-- ==== Sys2Proof/Laws/PerInstr.lean ====
section
/-! SUPPORT. A family of facts per instruction: the canonical form of a record (spec/30_encoding.md R73, R76) has its
opcode and its well-formedness, and is its own canonical form. -/

namespace Sys2Proof.Laws.CanonicalForm

def Statement (i : Instr) : Prop :=
  i.canonical.opcode = i.opcode ∧ (∀ n, i.canonical.wellFormed n = i.wellFormed n) ∧ i.canonical.canonical = i.canonical

theorem add (f : Fields) : Statement (.add f) := ⟨rfl, fun _ => rfl, rfl⟩

theorem sub (f : Fields) : Statement (.sub f) := ⟨rfl, fun _ => rfl, rfl⟩

theorem mul (f : Fields) : Statement (.mul f) := ⟨rfl, fun _ => rfl, rfl⟩

theorem div (f : Fields) : Statement (.div f) := ⟨rfl, fun _ => rfl, rfl⟩

theorem and (f : Fields) : Statement (.and f) := ⟨rfl, fun _ => rfl, rfl⟩

theorem or (f : Fields) : Statement (.or f) := ⟨rfl, fun _ => rfl, rfl⟩

theorem xor (f : Fields) : Statement (.xor f) := ⟨rfl, fun _ => rfl, rfl⟩

theorem addl (f : Fields) : Statement (.addl f) := ⟨rfl, fun _ => rfl, rfl⟩

theorem subl (f : Fields) : Statement (.subl f) := ⟨rfl, fun _ => rfl, rfl⟩

theorem movc (f : Fields) : Statement (.movc f) := ⟨rfl, fun _ => rfl, rfl⟩

theorem load (f : Fields) : Statement (.load f) := ⟨rfl, fun _ => rfl, rfl⟩

theorem store (f : Fields) : Statement (.store f) := ⟨rfl, fun _ => rfl, rfl⟩

theorem ldr (f : Fields) : Statement (.ldr f) := ⟨rfl, fun _ => rfl, rfl⟩

theorem str (f : Fields) : Statement (.str f) := ⟨rfl, fun _ => rfl, rfl⟩

theorem cmp (f : Fields) : Statement (.cmp f) := ⟨rfl, fun _ => rfl, rfl⟩

theorem bz (f : Fields) : Statement (.bz f) := ⟨rfl, fun _ => rfl, rfl⟩

theorem bnz (f : Fields) : Statement (.bnz f) := ⟨rfl, fun _ => rfl, rfl⟩

theorem halt (f : Fields) : Statement (.halt f) := ⟨rfl, fun _ => rfl, rfl⟩

theorem nop (f : Fields) : Statement (.nop f) := ⟨rfl, fun _ => rfl, rfl⟩

end Sys2Proof.Laws.CanonicalForm
end

