-- ==== Sys2Proof/Laws/Reset.lean ====
section
/-! SUPPORT. What a reset leaves, and the configuration check, said once. -/

namespace Sys2Proof.Machine

/-- A reset answers exactly for legal parameters (R200). -/
theorem applyReset_next {s t : State} (h : applyReset s = .next t) :
    t = checkConfiguration s.pins.config (initialState s.pins.config s.pins) ∧ s.pins.config.Legal := by
  unfold applyReset at h
  split at h
  · cases h
    exact ⟨rfl, ‹_›⟩
  · cases h

/-- The configuration check changes the engine outputs alone (R181). -/
theorem checkConfiguration_cases (c : Config) (s : State) :
    checkConfiguration c s = s ∨ ∃ i, checkConfiguration c s = stopWith .configurationError i s := by
  unfold checkConfiguration
  split
  · exact .inr ⟨_, rfl⟩
  · split
    · exact .inl rfl
    · exact .inr ⟨_, rfl⟩


/-- A reset, whatever the check finds: registers available, latches empty, counters 0, memory canonical (R45). -/
theorem applyReset_fields {s t : State} (h : applyReset s = .next t) :
    (∀ r, t.avail r = true) ∧ t.latF = Latch.reset ∧ t.latD = Latch.reset ∧ t.latE = Latch.reset ∧
    t.latM = Latch.reset ∧ t.latW = Latch.reset ∧ t.completed = 0 ∧ t.clock = 0 ∧ t.redirectPending = false ∧
    t.stage = .fetch ∧ t.dmem.wf := by
  obtain ⟨rfl, hl⟩ := applyReset_next h
  have av : ∀ r, (initialState s.pins.config s.pins).avail r = true := by
    intro r
    simp only [State.avail, initialState, initialRf, List.getD]
    by_cases hr : r.toNat < s.pins.config.nregs
    · simp [hr]
    · simp [hr, absentReg]
  have wf : (initialState s.pins.config s.pins).dmem.wf := Memory.wf_ofInit _ _
  rcases checkConfiguration_cases s.pins.config (initialState s.pins.config s.pins) with e | ⟨i, e⟩ <;> rw [e]
  · exact ⟨av, rfl, rfl, rfl, rfl, rfl, rfl, rfl, rfl, rfl, wf⟩
  · exact ⟨av, rfl, rfl, rfl, rfl, rfl, rfl, rfl, rfl, rfl, wf⟩

/-- The check finds nothing exactly in a store of well-formed records (R77). -/
theorem firstIllFormed_eq_none {n : Nat} {l : List PackedWord} :
    firstIllFormed n l = none ↔ ∀ w ∈ l, PackedWord.wellFormed n w = true := by
  induction l with
  | nil => simp [firstIllFormed]
  | cons a l ih =>
    simp only [firstIllFormed]
    split
    · rename_i h
      simp [h, ih]
    · rename_i h
      simp [h]

theorem nregs_initialState (c : Config) (p : Pins) : (initialState c p).nregs = c.nregs := by
  simp [initialState, State.nregs, initialRf]

/-- The check finds the first ill-formed record (R181). -/
theorem firstIllFormed_eq_some {n : Nat} {l : List PackedWord} {k : Nat} {w : PackedWord} (hk : l[k]? = some w)
    (hw : PackedWord.wellFormed n w = false)
    (hj : ∀ j v, j < k → l[j]? = some v → PackedWord.wellFormed n v = true) : firstIllFormed n l = some k := by
  induction l generalizing k with
  | nil => simp at hk
  | cons a l ih =>
    simp only [firstIllFormed]
    cases k with
    | zero =>
      simp at hk
      subst hk
      simp [hw]
    | succ k =>
      have := hj 0 a (by omega) (by simp)
      rw [if_pos this, ih (k := k) (by simpa using hk)
        (fun j v h1 h2 => hj (j + 1) v (by omega) (by simpa using h2))]
      rfl

/-- A fetched record is a record of the store (R61). -/
theorem iFetch_mem {s : State} {pc : Int} {w : PackedWord} (h : iFetch s pc = some w) : w ∈ s.istore := by
  simp only [iFetch] at h
  split at h
  · cases h
  · exact List.mem_of_getElem? h

end Sys2Proof.Machine
end

