-- ==== Sys2Proof/Tests/Slice0.lean ====
section
/-! SUPPORT. Tests of one step or one operation each. Expected values are taken from spec/95_test_vectors.md and from the
rules of spec/ named beside them. The `hyps_` theorems show, for a statement of Certificates/Slice0/Obligations.lean, a
state and operands that meet all its hypotheses. -/

open Sys2Proof Sys2Proof.Machine

namespace Sys2Proof.Tests

/-! ## Helpers -/

def fields (rd rs1 rs2 rs3 : RegIdx) (imm : Int) : Fields := ⟨rd, rs1, rs2, rs3, BitVec.ofInt 32 imm⟩

def nop : Instr := .nop (fields 0 0 0 0 0)

/-- A running engine with four NOP records, at tick 10 of 100, its pipeline empty. -/
def running : State :=
  { State.reset with
    engineState := .running, termReason := .none, clock := 10, maxCycles := 100
    istore := List.replicate 4 0x0000000090000000 }

/-- A valid latch with a record fetched at 4000 and two operand values. -/
def held (i : Instr) (v1 v2 : Int) : Latch :=
  { Latch.fetched i 4000 with rs1Value := BitVec.ofInt 32 v1, rs2Value := BitVec.ofInt 32 v2 }

/-- A valid latch with a result descriptor. -/
def resulting (i : Instr) (v : Int) : Latch :=
  { Latch.fetched i 4000 with resTag := some i.fields.rd, resValue := BitVec.ofInt 32 v }

/-- A valid latch with an address and a value to store. -/
def addressing (i : Instr) (a v : Int) : Latch :=
  { Latch.fetched i 4000 with memAddress := a, rs1Value := BitVec.ofInt 32 v }

def pendingAt (r : Nat) (s : State) : State := { s with rf := s.rf.modify r (fun c => { c with avail := false }) }

def answered (o : StepOutcome State) : Bool :=
  match o with
  | .next _ => true
  | .fault _ => false
  | .refused _ => false

/-- The next state; the reset state where there is none. -/
def after (o : StepOutcome State) : State :=
  match o with
  | .next s => s
  | .fault _ => State.reset
  | .refused _ => State.reset

theorem ran {o : StepOutcome State} (h : answered o = true) : o = .next (after o) := by
  cases o with
  | next s => rfl
  | fault r => cases h
  | refused r => cases h

/-- The value and tag EX of `i` leaves in `M`, with operand values `a` and `b`, and the zero flag (false before). -/
def executed (i : Instr) (a b : Int) : Int × Option RegIdx × Bool :=
  let t := after (exec i { running with stage := .ex, latE := held i a b })
  (t.latM.resValue.toInt, t.latM.resTag, t.zero)

/-! ## Well-formedness (R75, R77): an ill-formed term for each check -/

theorem test_rd_too_large_is_refused : (Instr.add (fields 16 1 2 0 0)).wellFormed 16 = false := by decide
theorem test_rs1_too_large_is_refused : (Instr.addl (fields 1 16 0 0 0)).wellFormed 16 = false := by decide
theorem test_rs2_too_large_is_refused : (Instr.cmp (fields 0 1 16 0 0)).wellFormed 16 = false := by decide
theorem test_rs3_too_large_is_refused : (Instr.str (fields 0 1 2 16 0)).wellFormed 16 = false := by decide
theorem test_last_register_is_in_order : (Instr.str (fields 63 15 15 15 0)).wellFormed 16 = true := by decide
theorem test_unused_fields_are_not_checked : PackedWord.wellFormed 16 0x000000008803FFFF = true := by decide
theorem test_ill_formed_words :
    [0x0000000098000000, 0x0000000001000000, 0x0000000000400000].map (PackedWord.wellFormed 16) =
      [false, false, false] := by decide
theorem test_illegal_parameters :
    ¬ ({ nregs := 0 } : Config).Legal ∧ ¬ ({ nregs := 65 } : Config).Legal ∧ ¬ ({ dmemWords := 0 } : Config).Legal ∧
      ¬ ({ instrWidth := 0 } : Config).Legal ∧ ({} : Config).Legal := by decide

/-! ## Decoding (spec/95_test_vectors.md section 2.1) -/

theorem test_decode_add : decode 0x00000000000C1080 = .ok (.add (fields 3 1 2 0 0)) := by decide
theorem test_decode_sub : decode 0x00000000080C1080 = .ok (.sub (fields 3 1 2 0 0)) := by decide
theorem test_decode_mul : decode 0x00000000100C1080 = .ok (.mul (fields 3 1 2 0 0)) := by decide
theorem test_decode_div : decode 0x00000000180C1080 = .ok (.div (fields 3 1 2 0 0)) := by decide
theorem test_decode_and : decode 0x00000000200C1080 = .ok (.and (fields 3 1 2 0 0)) := by decide
theorem test_decode_or : decode 0x00000000280C1080 = .ok (.or (fields 3 1 2 0 0)) := by decide
theorem test_decode_xor : decode 0x00000000300C1080 = .ok (.xor (fields 3 1 2 0 0)) := by decide
theorem test_decode_addl : decode 0x0000000138103000 = .ok (.addl (fields 4 3 0 0 1)) := by decide
theorem test_decode_subl : decode 0x0000000140041000 = .ok (.subl (fields 1 1 0 0 1)) := by decide
theorem test_decode_movc : decode 0x80000000483C0000 = .ok (.movc (fields 15 0 0 0 (-2147483648))) := by decide
theorem test_decode_load : decode 0x00000003500C2000 = .ok (.load (fields 3 2 0 0 3)) := by decide
theorem test_decode_store : decode 0x0000000358001080 = .ok (.store (fields 0 1 2 0 3)) := by decide
theorem test_decode_ldr : decode 0x0000000060142040 = .ok (.ldr (fields 5 2 1 0 0)) := by decide
theorem test_decode_str : decode 0x000000006800F38D = .ok (.str (fields 0 15 14 13 0)) := by decide
theorem test_decode_cmp : decode 0x00000000700010C0 = .ok (.cmp (fields 0 1 3 0 0)) := by decide
theorem test_decode_bz : decode 0x0000000878000000 = .ok (.bz (fields 0 0 0 0 8)) := by decide
theorem test_decode_bnz : decode 0xFFFFFFF480000000 = .ok (.bnz (fields 0 0 0 0 (-12))) := by decide
theorem test_decode_halt : decode 0x0000000088000000 = .ok (.halt (fields 0 0 0 0 0)) := by decide
theorem test_decode_nop : decode 0x0000000090000000 = .ok (.nop (fields 0 0 0 0 0)) := by decide
theorem test_pack_of_a_full_record : pack (.add (fields 15 14 13 12 7)) = 0x00000000003CE340 := by decide
theorem test_reserved_tag : decode 0x0000000098000000 = .error (.reservedTag 19) := by decide
theorem test_reserved_bits : decode 0x0000000001000000 = .error (.reservedBits 1) := by decide

/-! ## One action each (spec/95_test_vectors.md sections 2.2 to 2.6) -/

theorem test_add_wraps : executed (.add (fields 3 1 2 0 0)) 2147483647 1 = (-2147483648, some 3, false) := by decide
theorem test_sub_order : executed (.sub (fields 3 1 2 0 0)) 3 10 = (-7, some 3, false) := by decide
theorem test_sub_leaves_zero_alone : executed (.sub (fields 3 1 2 0 0)) 7 7 = (0, some 3, false) := by decide
theorem test_mul_wraps : executed (.mul (fields 3 1 2 0 0)) 46341 46341 = (-2147479015, some 3, false) := by decide
theorem test_div_rounds_toward_zero : executed (.div (fields 3 1 2 0 0)) (-7) 2 = (-3, some 3, false) := by decide
theorem test_div_by_zero_stops :
    (after (exec (.div (fields 3 1 2 0 0))
      { running with stage := .ex, latE := held (.div (fields 3 1 2 0 0)) 7 0 })).faultInfo =
        .arithmetic 4000 .div := by decide
theorem test_and : executed (.and (fields 3 1 2 0 0)) (-4) 6 = (4, some 3, false) := by decide
theorem test_or : executed (.or (fields 3 1 2 0 0)) 12 10 = (14, some 3, false) := by decide
theorem test_xor : executed (.xor (fields 3 1 2 0 0)) 5 (-1) = (-6, some 3, false) := by decide
theorem test_addl_negative_immediate : executed (.addl (fields 3 1 0 0 (-3))) 10 99 = (7, some 3, false) := by decide
theorem test_subl_order : executed (.subl (fields 3 1 0 0 1)) (-2147483648) 99 = (2147483647, some 3, false) := by decide
theorem test_movc_zero : executed (.movc (fields 3 0 0 0 0)) 5 5 = (0, some 3, true) := by decide
theorem test_movc_negative : executed (.movc (fields 3 0 0 0 (-1))) 5 5 = (-1, some 3, false) := by decide

/-- M1: base 7, offset 3; EX leaves the descriptor alone (R150). -/
theorem test_load_address :
    (after (exec (.load (fields 3 2 0 0 3))
      { running with stage := .ex, latE := held (.load (fields 3 2 0 0 3)) 7 99 })).latM =
      { held (.load (fields 3 2 0 0 3)) 7 99 with memAddress := 10 } := by decide
theorem test_load_reads :
    (after (exec (.load (fields 3 2 0 0 3))
      { running with stage := .mem, dmem := Memory.writeWord [] 10 42
                     latM := addressing (.load (fields 3 2 0 0 3)) 10 0 })).latW.resValue = 42 := by decide
/-- M3: base 7, index 42, `DMEM[49] = 43`. -/
theorem test_ldr_address :
    (after (exec (.ldr (fields 5 2 1 0 0))
      { running with stage := .ex, latE := held (.ldr (fields 5 2 1 0 0)) 7 42 })).latM.memAddress = 49 := by decide
theorem test_ldr_out_of_range :
    (after (exec (.ldr (fields 5 2 1 0 0))
      { running with stage := .mem, latM := addressing (.ldr (fields 5 2 1 0 0)) (-1) 0 })).faultInfo =
        .addressing 4000 .ldr (-1) := by decide
/-- M2: value 42 to address 7 + 3; the base is `rs2`. -/
theorem test_store_address :
    (after (exec (.store (fields 0 1 2 0 3))
      { running with stage := .ex, latE := held (.store (fields 0 1 2 0 3)) 42 7 })).latM.memAddress = 10 := by decide
theorem test_store_last_word :
    (after (exec (.store (fields 0 1 1 0 0))
      { running with stage := .mem, latM := addressing (.store (fields 0 1 1 0 0)) 4095 4095 })).dmem =
        [(16380, 0xFF), (16381, 0x0F)] := by decide
/-- M4: base 7 (`rs2`) plus index 42 (`rs3`). -/
theorem test_str_address :
    (after (exec (.str (fields 0 4 2 1 0))
      { running with
        stage := .ex
        latE := { held (.str (fields 0 4 2 1 0)) 43 7 with rs3Value := 42 } })).latM.memAddress = 49 := by decide
theorem test_str_writes :
    (after (exec (.str (fields 0 4 2 1 0))
      { running with stage := .mem, latM := addressing (.str (fields 0 4 2 1 0)) 49 43 })).dmemWord 49 = 43 := by decide
theorem test_cmp_equal : executed (.cmp (fields 0 1 2 0 0)) 5 5 = (0, none, true) := by decide
theorem test_cmp_writes_no_register :
    (after (exec (.cmp (fields 3 1 2 0 0))
      { running with stage := .wb, latW := held (.cmp (fields 3 1 2 0 0)) 5 5 })).rf = running.rf := by decide
/-- BNZ #-12 at 4024 goes to 4012 (program P3); the offset counts from the branch's own address (R103). -/
theorem test_bnz_taken :
    (after (exec (.bnz (fields 0 0 0 0 (-12)))
      { running with
        stage := .ex, pc := 4036
        latE := { held (.bnz (fields 0 0 0 0 (-12))) 0 0 with pc := 4024 } })).pc = 4012 := by decide
theorem test_bz_not_taken :
    (after (exec (.bz (fields 0 0 0 0 8)) { running with stage := .ex, latE := held (.bz (fields 0 0 0 0 8)) 0 0 })) =
      { running with
        stage := .ex, latM := held (.bz (fields 0 0 0 0 8)) 0 0
        latE := { held (.bz (fields 0 0 0 0 8)) 0 0 with valid := false } } := by decide
theorem test_halt_stops_fetching :
    (after (exec (.halt (fields 0 0 0 0 0)) running)).haltFetched = true := by decide
theorem test_halt_signals :
    (after (exec (.halt (fields 0 0 0 0 0)) { running with stage := .wb, latW := held (.halt (fields 0 0 0 0 0)) 0 0 })).haltRetired =
      true := by decide
/-- The NOP's descriptor NONE overwrites what was in `M` (R171). -/
theorem test_nop_overwrites_the_descriptor :
    (after (exec nop
      { running with stage := .ex, latE := held nop 0 0
                     latM := resulting (.movc (fields 1 0 0 0 5)) 5 })).latM.resTag = none := by decide
/-- Sources are resolved before the destination is marked pending (R96). -/
theorem test_same_register_source_and_destination :
    (after (exec (.add (fields 1 1 1 0 0))
      { running with
        stage := .dec, latD := held (.add (fields 1 1 1 0 0)) 0 0
        rf := running.rf.set 1 { val := 3, avail := true } })).latE.rs1Value = 3 := by decide

/-! ## States that meet the hypotheses of the statements -/

theorem hyps_EncodeOfDecode : ∃ w i, decode w = .ok i := ⟨0x0000000548040000, .movc (fields 1 0 0 0 5), by decide⟩
theorem hyps_UnusedFieldsNeverMatter : running.pins.reset = false := by decide
theorem hyps_IllFormedIsNeverExecuted : (Instr.add (fields 16 0 0 0 0)).wellFormed running.nregs = false := by decide
theorem hyps_FetchOfEveryInstruction :
    (Instr.str (fields 63 15 15 15 0)).wellFormed running.nregs = true ∧ running.stage = .fetch := by decide
theorem hyps_RegisterArithmetic :
    (Instr.xor (fields 15 0 15 63 0), running.latE.rs1Value ^^^ running.latE.rs2Value) ∈
      [(Instr.xor (fields 15 0 15 63 0), running.latE.rs1Value ^^^ running.latE.rs2Value)] ∧
    (Instr.xor (fields 15 0 15 63 0)).wellFormed running.nregs = true := by decide

def dividing (a b : Int) : State := { running with latE := held (.div (fields 3 1 2 0 0)) a b }

theorem hyps_DivCompletes :
    (Instr.div (fields 3 1 2 0 0)).wellFormed (dividing (-2147483648) 1).nregs = true ∧
    (dividing (-2147483648) 1).latE.rs2Value ≠ 0 ∧
    ¬ ((dividing (-2147483648) 1).latE.rs1Value.toInt = -2147483648 ∧
      (dividing (-2147483648) 1).latE.rs2Value.toInt = -1) := by decide
theorem hyps_DivTraps_zero :
    (Instr.div (fields 3 1 2 0 0)).wellFormed (dividing 7 0).nregs = true ∧ (dividing 7 0).latE.rs2Value = 0 := by decide
theorem hyps_DivTraps_overflow :
    (dividing (-2147483648) (-1)).latE.rs1Value.toInt = -2147483648 ∧
    (dividing (-2147483648) (-1)).latE.rs2Value.toInt = -1 := by decide
theorem hyps_ImmediateArithmetic : (Instr.subl (fields 15 15 63 63 (-1))).wellFormed running.nregs = true := by decide
theorem hyps_MoveImmediate : (Instr.movc (fields 15 63 63 63 0)).wellFormed running.nregs = true := by decide

def accessing (a : Int) : State := { running with latM := addressing (.load (fields 3 2 0 0 3)) a 5 }

theorem hyps_LoadCompletes :
    (Instr.load (fields 15 15 63 63 3)).wellFormed (accessing 0).nregs = true ∧ 0 ≤ (accessing 0).latM.memAddress ∧
    (accessing 0).latM.memAddress < ((accessing 0).dmemWords : Int) ∧
    (accessing 4095).latM.memAddress < ((accessing 4095).dmemWords : Int) := by decide
theorem hyps_LdrCompletes :
    (Instr.ldr (fields 15 15 15 63 3)).wellFormed (accessing 4095).nregs = true ∧ 0 ≤ (accessing 4095).latM.memAddress ∧
    (accessing 4095).latM.memAddress < ((accessing 4095).dmemWords : Int) := by decide
theorem hyps_StoresOutsideMem :
    (Instr.store (fields 63 15 15 63 0)).wellFormed running.nregs = true ∧
    (Instr.str (fields 63 15 15 15 0)).wellFormed running.nregs = true := by decide
theorem hyps_StoresWriteOneWord :
    Instr.str (fields 0 1 2 3 0) ∈ [Instr.store (fields 0 1 2 3 0), Instr.str (fields 0 1 2 3 0)] ∧
    (Instr.str (fields 0 1 2 3 0)).wellFormed (accessing 4095).nregs = true ∧ 0 ≤ (accessing 4095).latM.memAddress ∧
    (accessing 4095).latM.memAddress < ((accessing 4095).dmemWords : Int) := by decide
theorem hyps_MemoryOpcodesTrap :
    (Instr.load (fields 0 1 2 3 0)).wellFormed (accessing 4096).nregs = true ∧
    (accessing (-1)).latM.memAddress < 0 ∧
    ((accessing 4096).dmemWords : Int) ≤ (accessing 4096).latM.memAddress := by decide
theorem hyps_CompareSetsZero : (Instr.cmp (fields 63 15 0 63 0)).wellFormed running.nregs = true := by decide
theorem hyps_BranchesRedirect :
    (Instr.bz (fields 0 0 0 0 8), false) ∈ [(Instr.bz (fields 0 0 0 0 8), running.zero), (Instr.bnz (fields 0 0 0 0 8), !running.zero)] ∧
    (Instr.bnz (fields 0 0 0 0 8), true) ∈ [(Instr.bz (fields 0 0 0 0 8), running.zero), (Instr.bnz (fields 0 0 0 0 8), !running.zero)] := by
  decide
theorem hyps_HaltAndNop :
    (Instr.nop (fields 0 0 0 0 0), false) ∈
      [(Instr.halt (fields 0 0 0 0 0), true), (Instr.nop (fields 0 0 0 0 0), running.haltRetired)] := by decide
theorem hyps_MemoryPrimitives :
    (0 ≤ (4095 : Int) ∧ (4095 : Int) < (running.dmemWords : Int)) ∧
    ¬ (0 ≤ (4096 : Int) ∧ (4096 : Int) < (running.dmemWords : Int)) ∧
    ¬ (0 ≤ (-1 : Int) ∧ (-1 : Int) < (running.dmemWords : Int)) := by decide
theorem hyps_InstructionFetch : 1 ≤ running.instrWidth ∧ iFetch running 4012 = some 0x0000000090000000 := by decide

/-- `State.Sound`, with the store's records checked by `List.all`. -/
theorem sound_of {s : State}
    (h : s.AtBoundary ∧ s.EngineConsistent ∧ s.LatchesChecked ∧ s.dmem.wf)
    (hs : s.engineState = .running → s.istore ≠ [] ∧ s.istore.all (PackedWord.wellFormed s.nregs) = true) : s.Sound :=
  ⟨h.1, h.2.1, fun hr => ⟨(hs hr).1, List.all_eq_true.mp (hs hr).2⟩, h.2.2.1, h.2.2.2⟩

/-- The latches of a tick in which every stage has something to do. -/
def busy : State :=
  pendingAt 1 (pendingAt 2
    { running with
      latD := held (.add (fields 3 1 2 0 0)) 0 0
      latE := held (.movc (fields 1 0 0 0 5)) 0 0
      latM := resulting (.addl (fields 2 0 0 0 6)) 6
      latW := held nop 0 0 })

theorem hyps_busy_tick :
    busy.Ticks ∧ busy.LatchesChecked ∧ busy.TagsConsistent ∧ busy.Sound ∧ busy.PendingHasWriter ∧
    step busy = .next (after (step busy)) ∧ (after (step busy)).termReason.isTickError = false ∧
    ¬ busy.RaisesAddressing ∧ ¬ busy.RaisesArithmetic ∧
    busy.latD.valid = true ∧ takesBranch busy = false ∧ classOf busy.latD.instr.opcode = some .arith :=
  ⟨by decide, by decide, by decide, sound_of (by decide) (by decide), by decide, ran (by decide), by decide, by decide,
    by decide, by decide, by decide, by decide⟩

/-- StepRunsTheDecodedInstruction: DEC has an instruction, the other stages have none. -/
def decoding : State := { running with latD := held (.add (fields 3 1 2 0 0)) 0 0 }

theorem hyps_StepRunsTheDecodedInstruction :
    decoding.Ticks ∧ StageRuns .wb { decoding with haltRetired := false } { decoding with stage := .wb } ∧
    StageRuns .mem { decoding with stage := .wb } { decoding with stage := .mem } ∧
    StageRuns .ex { decoding with stage := .mem } { decoding with stage := .ex } ∧
    StageRuns .dec { decoding with stage := .ex }
      (after (exec (.add (fields 3 1 2 0 0)) { decoding with stage := .dec })) ∧
    iFetch (after (exec (.add (fields 3 1 2 0 0)) { decoding with stage := .dec })) 4000 = some 0x0000000090000000 ∧
    decode 0x0000000090000000 = .ok nop ∧ nop.wellFormed 16 = true := by
  refine ⟨by decide, ?_, ?_, ?_, ?_, by decide, by decide, by decide⟩
  · rw [StageRuns, if_neg (by decide)]; rfl
  · rw [StageRuns, if_neg (by decide)]
  · rw [StageRuns, if_neg (by decide)]
  · rw [StageRuns, if_pos (by decide)]
    exact ⟨ran (by decide), by decide⟩
theorem hyps_PlacedWordIsFetchedNext :
    decode 0x8000000048FFFFFF = .ok (.movc (fields 63 63 63 63 (-2147483648))) ∧
    decode 0x80000000483C0000 = .ok (.movc (fields 15 0 0 0 (-2147483648))) ∧
    (Instr.movc (fields 15 0 0 0 (-2147483648))).wellFormed 16 = true := by decide

/-- Two producers of R1 in flight before an ARITH consumer (R208). -/
def twoProducers : State :=
  pendingAt 1
    { running with
      latD := held (.add (fields 3 1 1 0 0)) 0 0
      latE := held (.movc (fields 1 0 0 0 2)) 0 0
      latM := resulting (.movc (fields 1 0 0 0 1)) 1 }

theorem hyps_OldestProducerWinsInArith :
    twoProducers.Ticks ∧ twoProducers.TagsConsistent ∧ step twoProducers = .next (after (step twoProducers)) ∧
    ¬ twoProducers.RaisesAddressing ∧ ¬ twoProducers.RaisesArithmetic ∧ twoProducers.latD.valid = true ∧
    classOf twoProducers.latD.instr.opcode = some .arith ∧ twoProducers.latM.writes 1 = true ∧
    isLoad twoProducers.latM.instr.opcode = false ∧ twoProducers.latE.writes 1 = true ∧
    twoProducers.avail 1 = false ∧ twoProducers.latW.writes 1 = false :=
  ⟨by decide, by decide, ran (by decide), by decide, by decide, by decide, by decide, by decide, by decide, by decide,
    by decide, by decide⟩

/-- A LOAD of R1 directly before its consumer (R206). -/
def loadUse : State :=
  pendingAt 1
    { running with
      latD := held (.addl (fields 2 1 0 0 1)) 0 0
      latE := held (.load (fields 1 0 0 0 9)) 0 0
      latM := held nop 0 0 }

theorem hyps_LoadUseReadsStale :
    loadUse.Ticks ∧ loadUse.TagsConsistent ∧ step loadUse = .next (after (step loadUse)) ∧
    ¬ loadUse.RaisesAddressing ∧ ¬ loadUse.RaisesArithmetic ∧ loadUse.latD.valid = true ∧
    loadUse.latD.instr.opcode.format.usesRs1 = true ∧ loadUse.latE.writes 1 = true ∧
    isLoad loadUse.latE.instr.opcode = true ∧ loadUse.latM.valid = true ∧ loadUse.latM.writes 1 = false ∧
    loadUse.latW.writes 1 = false ∧ loadUse.avail 1 = false :=
  ⟨by decide, by decide, ran (by decide), by decide, by decide, by decide, by decide, by decide, by decide, by decide,
    by decide, by decide, by decide⟩

/-- Vector H3: the LOAD is the first record, so `M` and `W` are bubbles. -/
def loadUseFirst : State := { loadUse with latM := Latch.reset }

theorem hyps_LoadUseReadsStale_bubble :
    loadUseFirst.Ticks ∧ loadUseFirst.TagsConsistent ∧ loadUseFirst.latM.valid = false ∧ loadUseFirst.DescriptorsFresh ∧
    step loadUseFirst = .next (after (step loadUseFirst)) ∧ ¬ loadUseFirst.RaisesAddressing ∧
    ¬ loadUseFirst.RaisesArithmetic ∧ loadUseFirst.latD.valid = true ∧ loadUseFirst.latE.writes 1 = true ∧
    isLoad loadUseFirst.latE.instr.opcode = true ∧ loadUseFirst.latM.writes 1 = false ∧
    loadUseFirst.latW.writes 1 = false ∧ loadUseFirst.avail 1 = false :=
  ⟨by decide, by decide, by decide, by decide, ran (by decide), by decide, by decide, by decide, by decide, by decide,
    by decide, by decide, by decide⟩

/-- A producer of R1 two before a MEMCLASS consumer (R207). -/
def memclassGap : State :=
  pendingAt 1
    { running with
      latD := held (.cmp (fields 0 1 2 0 0)) 0 0
      latE := held nop 0 0
      latM := resulting (.movc (fields 1 0 0 0 5)) 5 }

theorem hyps_MemclassGapReadsStale :
    memclassGap.Ticks ∧ memclassGap.TagsConsistent ∧ step memclassGap = .next (after (step memclassGap)) ∧
    ¬ memclassGap.RaisesAddressing ∧ ¬ memclassGap.RaisesArithmetic ∧ memclassGap.latD.valid = true ∧
    classOf memclassGap.latD.instr.opcode = some .memclass ∧ takesBranch memclassGap = false ∧
    memclassGap.latM.writes 1 = true ∧ memclassGap.latE.valid = true ∧ memclassGap.latE.writes 1 = false ∧
    memclassGap.latW.writes 1 = false ∧ memclassGap.avail 1 = false :=
  ⟨by decide, by decide, ran (by decide), by decide, by decide, by decide, by decide, by decide, by decide, by decide,
    by decide, by decide, by decide⟩

/-- A BNZ that is taken, with a record behind it in `D`. -/
def branching : State :=
  { running with
    latD := held (.movc (fields 2 0 0 0 99)) 0 0
    latE := held (.bnz (fields 0 0 0 0 8)) 0 0
    latM := addressing (.store (fields 0 1 2 0 0)) 4095 7 }

theorem hyps_TakenBranchFlushesOne :
    branching.Ticks ∧ branching.LatchesChecked ∧ takesBranch branching = true ∧
    ¬ branching.RaisesAddressing ∧ branching.addressOk branching.latM.memAddress := by decide

/-- A LOAD in MEM out of range, with a DIV by 0 behind it in EX. -/
def badAddress : State :=
  { running with
    latE := held (.div (fields 3 1 2 0 0)) 7 0
    latM := addressing (.load (fields 1 0 0 0 0)) (-1) 0
    latW := resulting (.movc (fields 4 0 0 0 5)) 5 }

theorem hyps_AddressingErrorStopsTheTick :
    badAddress.Ticks ∧ badAddress.LatchesChecked ∧ badAddress.RaisesAddressing := by decide

/-- A DIV by 0 in EX, with a STORE of 5 to the word `a` before it in MEM. -/
def storeThenDiv (a : Int) : State := { dividing 7 0 with latM := addressing (.store (fields 0 1 2 0 0)) a 5 }

theorem hyps_ArithmeticErrorStopsTheTick :
    (storeThenDiv 4095).Ticks ∧ (storeThenDiv 4095).LatchesChecked ∧ ¬ (storeThenDiv 4095).RaisesAddressing ∧
    (storeThenDiv 4095).RaisesArithmetic ∧ (storeThenDiv 4096).RaisesAddressing ∧
    (dividing (-2147483648) (-1)).RaisesArithmetic ∧ ¬ (dividing (-2147483648) (-1)).RaisesAddressing := by decide

/-- Vector F7, before tick 3: BZ, the last record, is in `D`, MOVC R1,#0 in `E`, and `pc` is behind the BZ. -/
def pastTheEnd : State :=
  pendingAt 1
    { running with
      pc := 4008, istore := [0x0000000048040000, 0xFFFFFFFC78000000], clock := 2
      latD := held (.bz (fields 0 0 0 0 (-4))) 0 0
      latE := held (.movc (fields 1 0 0 0 0)) 0 0 }

theorem hyps_FetchAddressErrorStopsTheTick :
    pastTheEnd.Ticks ∧ pastTheEnd.LatchesChecked ∧ ¬ pastTheEnd.RaisesAddressing ∧ ¬ pastTheEnd.RaisesArithmetic ∧
    takesBranch pastTheEnd = false ∧ pastTheEnd.redirectPending = false ∧ pastTheEnd.haltFetched = false ∧
    iFetch pastTheEnd pastTheEnd.pc = none := by decide

def aborting : State := { running with pins := { Pins.idle with abort := true } }

theorem hyps_AbortThenBudget :
    aborting.pins.reset = false ∧ aborting.engineState = .running ∧ aborting.pins.iterates = true ∧
    aborting.pins.abort = true ∧
    ({ running with maxCycles := 10 } : State).pins.abort = false ∧
    ({ running with maxCycles := 10 } : State).maxCycles ≤ ({ running with maxCycles := 10 } : State).clock := by decide
theorem hyps_HaltedAndWaitingDoNothing :
    State.reset.pins.reset = false ∧ State.reset.engineState = .halted ∧
    ({ Pins.idle with runMode := .singleStep } : Pins).step = false := by decide
theorem hyps_SingleStepIsBatch :
    busy.pins.runMode = .batch ∧ busy.pins.reset = false ∧ step busy = .next (after (step busy)) :=
  ⟨by decide, by decide, ran (by decide)⟩

/-- A HALT about to retire. -/
def retiring : State := { running with haltFetched := true, latW := held (.halt (fields 0 0 0 0 0)) 0 0 }

theorem hyps_RetiringHaltStopsTheEngine :
    retiring.Ticks ∧ retiring.HaltIsYoungest ∧ retiring.latW.halts = true := by decide
theorem hyps_HaltLeavesPipelineDrained :
    retiring.Sound ∧ retiring.HaltIsYoungest ∧ retiring.PendingHasWriter ∧ retiring.engineState = .running ∧
    retiring.pins.reset = false ∧ step retiring = .next (after (step retiring)) ∧
    (after (step retiring)).termReason = .halt :=
  ⟨sound_of (by decide) (by decide), by decide, by decide, by decide, by decide, ran (by decide), by decide⟩

/-- A state that a reset samples the configuration `c` in. -/
def resetting (c : Config) : State := { State.reset with pins := { Pins.idle with reset := true, config := c } }

theorem hyps_ResetStartsARun :
    (resetting { nregs := 64, program := [0x90000000], dmemInit := [(0, 7), (4095, 8)] }).pins.reset = true ∧
    ({ nregs := 64, program := [0x90000000], dmemInit := [(0, 7), (4095, 8)] } : Config).Legal ∧
    PackedWord.wellFormed 64 0x90000000 = true ∧ [0, 4095].Nodup := by decide
theorem hyps_ConfigurationErrorAtReset :
    (resetting {}).pins.reset = true ∧ (resetting {}).pins.config.Legal ∧ (resetting {}).pins.config.program = [] ∧
    (resetting { program := [0x90000000, 0x98000000] }).pins.config.program[1]? = some 0x98000000 ∧
    PackedWord.wellFormed 16 0x98000000 = false ∧ PackedWord.wellFormed 16 0x90000000 = true := by decide
theorem hyps_IllegalParametersFault :
    (resetting { instrWidth := 0 }).pins.reset = true ∧ ¬ (resetting { instrWidth := 0 }).pins.config.Legal := by decide
theorem hyps_OnlyResetChangesTheConfiguration :
    busy.pins.reset = false ∧ step busy = .next (after (step busy)) := ⟨by decide, ran (by decide)⟩
theorem hyps_OnlyStoresChangeDataMemory :
    branching.pins.reset = false ∧ step branching = .next (after (step branching)) ∧
    (after (step branching)).dmemWord 4095 ≠ branching.dmemWord 4095 := ⟨by decide, ran (by decide), by decide⟩
theorem hyps_writers :
    branching.Ticks ∧ branching.EngineConsistent ∧ step branching = .next (after (step branching)) ∧
    (after (step branching)).termReason.isTickError = false := ⟨by decide, by decide, ran (by decide), by decide⟩
theorem hyps_StepKeepsSound : busy.Sound ∧ step busy = .next (after (step busy)) :=
  ⟨sound_of (by decide) (by decide), ran (by decide)⟩
theorem hyps_SoundStatesNeverStop :
    branching.Sound ∧ branching.pins.reset = false ∧
    (resetting {}).Sound ∧ (resetting {}).pins.reset = true ∧ (resetting {}).pins.config.Legal :=
  ⟨sound_of (by decide) (by decide), by decide, sound_of (by decide) (by decide), by decide, by decide⟩
theorem hyps_StepKeepsPendingHasWriter :
    busy.PendingHasWriter ∧ busy.avail 1 = false ∧ step busy = .next (after (step busy)) :=
  ⟨by decide, by decide, ran (by decide)⟩
theorem hyps_StepKeepsHaltYoungest :
    retiring.HaltIsYoungest ∧ step retiring = .next (after (step retiring)) := ⟨by decide, ran (by decide)⟩
theorem hyps_StepKeepsTagsConsistent : busy.TagsConsistent ∧ step busy = .next (after (step busy)) :=
  ⟨by decide, ran (by decide)⟩
theorem hyps_StepKeepsLatencyBound :
    ({ busy with completed := 6 } : State).LatencyBound ∧ answered (step { busy with completed := 6 }) = true := by decide

/-- TickRefinesSequentialExecution: `D` empty, `D` flushed, and operands that are the sequential ones. -/
theorem hyps_TickRefinesSequentialExecution :
    running.latD.valid = false ∧ takesBranch branching = true ∧
    OperandsAre busy.latD.instr (after (step busy)).latE busy.drain := by
  refine ⟨by decide, by decide, ?_⟩
  unfold OperandsAre
  decide

theorem hyps_StepKeepsDescriptorsFresh :
    busy.DescriptorsFresh ∧ branching.DescriptorsFresh ∧ step busy = .next (after (step busy)) :=
  ⟨by decide, by decide, ran (by decide)⟩

/-- SafeReadsAreSequential: an ARITH instruction that reads R1 (row k = 1) and R2 (row k = 2). -/
theorem hyps_SafeReadsAreSequential :
    busy.Ticks ∧ busy.DescriptorsFresh ∧ busy.PendingHasWriter ∧ step busy = .next (after (step busy)) ∧
    ¬ busy.RaisesAddressing ∧ ¬ busy.RaisesArithmetic ∧ busy.latD.valid = true ∧ takesBranch busy = false ∧
    classOf busy.latD.instr.opcode = some .arith ∧ ReadIsSafe .arith busy.latD.instr.fields.rs1 busy ∧
    ReadIsSafe .arith busy.latD.instr.fields.rs2 busy ∧ busy.latD.instr.opcode.format.usesRs3 = false := by
  refine ⟨by decide, by decide, by decide, ran (by decide), by decide, by decide, by decide, by decide, by decide, ?_, ?_,
    by decide⟩
  · unfold ReadIsSafe
    decide
  · unfold ReadIsSafe
    decide
/-- One unsafe source, R1, with writers at distance 1 and 2, and one safe source, R5, with none. -/
def mixedReads : State := { twoProducers with latD := held (.add (fields 3 1 5 0 0)) 0 0 }

theorem hyps_SafeReadsAreSequential_one_source :
    mixedReads.Ticks ∧ mixedReads.DescriptorsFresh ∧ mixedReads.PendingHasWriter ∧
    step mixedReads = .next (after (step mixedReads)) ∧ ¬ mixedReads.RaisesAddressing ∧ ¬ mixedReads.RaisesArithmetic ∧
    mixedReads.latD.valid = true ∧ takesBranch mixedReads = false ∧
    classOf mixedReads.latD.instr.opcode = some .arith ∧ ¬ ReadIsSafe .arith 1 mixedReads ∧
    ReadIsSafe .arith 5 mixedReads := by
  refine ⟨by decide, by decide, by decide, ran (by decide), by decide, by decide, by decide, by decide, by decide, ?_, ?_⟩
  · unfold ReadIsSafe
    decide
  · unfold ReadIsSafe
    decide

/-- R205, first two rows, and the row k = 1 in the MEMCLASS class, which ignores a writer at distance 2. -/
theorem hyps_SafeReads_other_rows : ReadIsSafe .memclass 3 busy ∧ ReadIsSafe .memclass 1 twoProducers := by
  unfold ReadIsSafe
  decide

/-! ## Whole ticks -/

/-- H2's rule: the older of two producers wins in the ARITH class (R208). -/
theorem test_oldest_producer_wins : (after (step twoProducers)).latE.rs1Value = 1 := by decide
/-- H1's rule: a MEMCLASS consumer at distance 2 reads the stale register (R207). -/
theorem test_memclass_gap : (after (step memclassGap)).latE.rs1Value = 0 := by decide
/-- The taken branch flushes `D` and fetches nothing in its own tick (R103). -/
theorem test_taken_branch :
    ((after (step branching)).pc, (after (step branching)).latD.valid, (after (step branching)).latE.valid) =
      (4008, false, false) := by decide
/-- AddressingError abandons the tick before the DIV by 0 behind it (R188); the MOVC in WB has committed (R192). -/
theorem test_older_error_wins :
    ((after (step badAddress)).termReason, (after (step badAddress)).x 4) = (.addressingError, 5) := by decide
/-- Vector F7: the MOVC has executed before FETCH raises; its destination is still pending. -/
theorem test_fetch_error_keeps_earlier_stages :
    ((after (step pastTheEnd)).faultInfo, (after (step pastTheEnd)).zero, (after (step pastTheEnd)).avail 1,
      (after (step pastTheEnd)).clock) = (.fetch 4008, true, false, 2) := by decide
/-- R192: the store before a trapping DIV is done. -/
theorem test_store_before_trapping_div : (after (step (storeThenDiv 4095))).dmemWord 4095 = 5 := by decide
theorem test_retired_halt :
    ((after (step retiring)).termReason, (after (step retiring)).clock, (after (step retiring)).completed) =
      (.halt, 10, 1) := by decide
theorem test_placed_word_is_fetched :
    (after (step (State.reset.withFetchWord 64 0x0000000548040000))).latD =
      Latch.fetched (.movc (fields 1 0 0 0 5)) 4000 := by decide
theorem test_table_word : decodeTableWord 64 0x0000000548040000 = some (.movc (fields 1 0 0 0 5)) := by decide
/-- R181: the index of the first ill-formed record. -/
theorem test_configuration_error :
    (after (step (resetting { program := [0x90000000, 0x98000000] }))).faultInfo = .record 1 := by decide

end Sys2Proof.Tests
end

section
/-! PROOF. The words and the parameters of spec/00_scope.md: `wrap` (R8), and a reset that samples parameters outside
R6 and R7 (log 6). -/

namespace Sys2Proof.Machine

/-! ## Words (R8) -/

/-- The signed value of `wrap v` is the balanced remainder of `v`. -/
@[simp] theorem toInt_wrap (v : Int) : (wrap v).toInt = v.bmod (2 ^ 32) := BitVec.toInt_ofInt v

/-- Settles O21: words are told apart by their signed values, and a word's signed value is its own balanced
remainder, so equality with `wrap v` is equality of balanced remainders, which is congruence. -/
theorem wrapIsTheCongruentWord : Obligations.WrapIsTheCongruentWord := by
  intro v w
  calc w = wrap v
      ↔ w.toInt = (wrap v).toInt := BitVec.toInt_inj.symm
    _ ↔ w.toInt.bmod (2 ^ 32) = v.bmod (2 ^ 32) := by rw [toInt_wrap, BitVec.toInt_bmod_cancel]
    _ ↔ (w.toInt - v).bmod (2 ^ 32) = 0 := Int.bmod_eq_bmod_iff_bmod_sub_eq_zero
    _ ↔ (4294967296 : Int) ∣ w.toInt - v := Int.dvd_iff_bmod_eq_zero.symm

/-! ## Parameters a reset samples (R6, R7) -/

/-- While reset is asserted, a clock cycle is a reset, whatever the engine was doing (R200). -/
theorem step_of_reset {s : State} (h : s.pins.reset = true) : step s = applyReset s := if_pos h

/-- A reset with illegal parameters claims no next state (log 6). -/
theorem applyReset_of_not_legal {s : State} (h : ¬ s.pins.config.Legal) :
    applyReset s = .fault .illegalParameters := if_neg h

/-- Settles O42: the cycle is a reset, and the reset refuses the parameters. -/
theorem illegalParametersFault : Obligations.IllegalParametersFault := by
  intro s hreset hillegal
  rw [step_of_reset hreset, applyReset_of_not_legal hillegal]

end Sys2Proof.Machine
end

section
/-! PROOF. Who writes the registers, Data Memory, the zero flag, the program counter and the counters
(spec/10_state.md R21 to R28, R39): every tick, with or without an error, field by field. -/

namespace Sys2Proof.Machine

/-! ## A tick, told by how far it gets -/

/-- A tick is abandoned by MEM, is abandoned by EX, or has run DEC (R187, R188). -/
theorem tick_stops_or_decodes {s t : State} (hs : s.Ticks) (h : step s = .next t) :
    (s.RaisesAddressing ∧
      t = enterStage .fetch (stopWith .addressingError
        (.addressing s.latM.pc s.latM.instr.opcode s.latM.memAddress) (tickWb s))) ∨
    (¬ s.RaisesAddressing ∧ s.RaisesArithmetic ∧
      t = enterStage .fetch (stopWith .arithmeticError (.arithmetic s.latE.pc .div) (afterMem (tickWb s)))) ∨
    (¬ s.RaisesAddressing ∧ ¬ s.RaisesArithmetic ∧
      (takesBranch s = false → s.latD.valid = true → s.latD.instr.wellFormed s.nregs = true) ∧
      t.rf = (tickDec s).rf ∧ t.dmem = (tickDec s).dmem ∧ t.zero = (tickDec s).zero) := by
  obtain ⟨-, -, ⟨hm, e⟩ | ⟨hm, -, ⟨hx, e⟩ | ⟨hx, -⟩⟩⟩ := tick_result hs h
  · exact .inl ⟨hm, e⟩
  · exact .inr (.inl ⟨hm, (exFails_iff s).mp hx, e⟩)
  · have hx' : ¬ s.RaisesArithmetic := fun hr => hx ((exFails_iff s).mpr hr)
    obtain ⟨-, hD, hrf, hdmem, hzero, -⟩ := tick_decodes hs h hm hx'
    exact .inr (.inr ⟨hm, hx', hD, hrf, hdmem, hzero⟩)

/-- A tick that answers has executed a well-formed record in WB, or none. -/
theorem tick_latW_wellFormed {s t : State} (hs : s.Ticks) (h : step s = .next t) :
    s.latW.valid = true → s.latW.instr.wellFormed s.nregs = true :=
  (tick_result hs h).1

/-! ## Registers (R21, R22) -/

/-- Settles O45: no stage after WB changes a register word. -/
theorem onlyWritebackWritesRegisters : Obligations.OnlyWritebackWritesRegisters := by
  intro s t r hs h
  rw [← x_tickEx (tick_latW_wellFormed hs h) r]
  obtain ⟨-, rfl⟩ | ⟨-, -, rfl⟩ | ⟨-, -, -, hrf, -⟩ := tick_stops_or_decodes hs h
  · rfl
  · rfl
  · rw [x_congr hrf, x_tickDec]

/-- Settles O46: WB makes its destination available in every tick, and DEC, when it runs, marks its own pending. -/
theorem availabilityBitWriters : Obligations.AvailabilityBitWriters := by
  intro s t r hs h
  have hwb : (tickEx s).avail r = if s.latW.writes r = true then true else s.avail r := by
    rw [avail_tickEx (tick_latW_wellFormed hs h)]
    cases s.latW.writes r <;> simp
  rw [← hwb]
  obtain ⟨hm, rfl⟩ | ⟨-, hx, rfl⟩ | ⟨hm, hx, hD, hrf, -⟩ := tick_stops_or_decodes hs h
  · rw [if_neg fun hd => hd.1 hm]
    rfl
  · rw [if_neg fun hd => hd.2.1 hx]
    rfl
  · simp only [avail_congr hrf, avail_tickDec hD, hm, hx, not_false_eq_true, true_and]

/-! ## Data Memory (R39, R56) -/

/-- Data Memory after a tick: what MEM leaves, or what it was when MEM raises. -/
theorem tick_dmem {s t : State} (hs : s.Ticks) (h : step s = .next t) :
    (s.RaisesAddressing ∧ t.dmem = s.dmem) ∨ (¬ s.RaisesAddressing ∧ t.dmem = (tickDec s).dmem) := by
  obtain ⟨hm, rfl⟩ | ⟨hm, -, rfl⟩ | ⟨hm, -, -, -, hdmem, -⟩ := tick_stops_or_decodes hs h
  · exact .inl ⟨hm, rfl⟩
  · exact .inr ⟨hm, rfl⟩
  · exact .inr ⟨hm, hdmem⟩

/-- A step that is neither a reset nor a tick writes no Data Memory. -/
theorem dmem_of_not_ticks {s t : State} (hr : s.pins.reset = false) (hs : ¬ s.Ticks) (h : step s = .next t) :
    t.dmem = s.dmem := by
  obtain ⟨hr', -⟩ | ⟨-, -, e⟩ | ⟨-, -, -, -, e⟩ | ⟨-, -, -, -, -, e⟩ | ⟨ht, -⟩ := step_cases s
  · rw [hr] at hr'; cases hr'
  · cases h.symm.trans e; rfl
  · cases h.symm.trans e; rfl
  · cases h.symm.trans e; rfl
  · exact absurd ht hs

/-- Settles O44: only a tick whose MEM raises no error writes Data Memory, and then only the word a store in `M`
addresses. -/
theorem onlyStoresChangeDataMemory : Obligations.OnlyStoresChangeDataMemory := by
  intro s t a hr h hne
  have changed : t.dmem ≠ s.dmem := fun e => hne (by rw [State.dmemWord, State.dmemWord, e])
  have hs : s.Ticks := Classical.byContradiction fun hs => changed (dmem_of_not_ticks hr hs h)
  obtain ⟨-, e⟩ | ⟨hm, e⟩ := tick_dmem hs h
  · exact absurd e changed
  rw [tickDec_dmem] at e
  split at e
  case isFalse => exact absurd e changed
  case isTrue hv =>
    obtain ⟨hvalid, hstore⟩ := (Bool.and_eq_true _ _).mp hv
    have hok : s.addressOk s.latM.memAddress :=
      Classical.byContradiction fun hno => hm ⟨hvalid, .inr hstore, hno⟩
    have hword : t.dmemWord a = if a = s.latM.memAddress.toNat then s.latM.rs1Value else s.dmemWord a := by
      rw [State.dmemWord, e, Memory.readWord_writeWord]; rfl
    split at hword
    case isFalse => exact absurd hword hne
    case isTrue ha => exact ⟨hvalid, hstore, by omega, by omega, hword⟩

/-! ## The zero flag (R26) -/

/-- The zero flag that EX leaves: MOVC and CMP write it. -/
theorem tickDec_zero_eq_ite (s : State) :
    (tickDec s).zero =
      if s.latE.valid = true ∧ s.latE.instr.opcode = .movc then decide (s.latE.instr.fields.imm = 0)
      else if s.latE.valid = true ∧ s.latE.instr.opcode = .cmp then decide (s.latE.rs1Value = s.latE.rs2Value)
      else s.zero := by
  rw [tickDec_zero]
  cases s.latE.valid
  · simp
  · cases ho : s.latE.instr.opcode <;> simp [exZero, ho, zeroOfImmediate, zeroOfCompare]

/-- Settles O47: a tick that MEM does not abandon leaves the flag EX leaves, and a DIV that EX raises for is neither MOVC
nor CMP. -/
theorem onlyMovcAndCmpWriteZero : Obligations.OnlyMovcAndCmpWriteZero := by
  intro s t hs h
  obtain ⟨hm, rfl⟩ | ⟨hm, ⟨-, hdiv, -⟩, rfl⟩ | ⟨hm, -, -, -, -, hzero⟩ := tick_stops_or_decodes hs h
  · rw [if_pos hm]; rfl
  · rw [if_neg hm, hdiv, if_neg (fun hc => nomatch hc.2), if_neg (fun hc => nomatch hc.2)]; rfl
  · rw [if_neg hm, hzero, tickDec_zero_eq_ite]

/-! ## The program counter (R25) -/

theorem finishTick_pc (u : State) : (finishTick u).pc = u.pc := by
  obtain ⟨-, -, -, hpc, -⟩ := finishTick_fields u
  exact hpc

/-- FETCH of a tick without an error: it advances the program counter unless it is suppressed or stopped (R100 to
R102). -/
theorem tick_pc {s t : State} (hs : s.Ticks) (h : step s = .next t) (he : t.termReason.isTickError = false) :
    t.pc = if (tickDec s).redirectPending = true ∨ (tickDec s).haltFetched = true then (tickDec s).pc
      else (tickDec s).pc + (s.instrWidth : Int) := by
  obtain ⟨-, -, -, -, -, -, ⟨hrp, rfl⟩ | ⟨-, hhf, rfl⟩ | ⟨hrp, hhf, w, i, -, -, -, rfl⟩⟩ := tick_completes hs h he
  · rw [finishTick_pc, if_pos (.inl hrp)]
  · rw [finishTick_pc, if_pos (.inr hhf)]
  · rw [finishTick_pc, if_neg (by simp [hrp, hhf])]
    rfl

/-- Settles O48: a taken branch suppresses the fetch of its own tick, so EX and FETCH never both write. -/
theorem programCounterWriters : Obligations.ProgramCounterWriters := by
  intro s t hs h he
  rw [tick_pc hs h he, tickDec_redirectPending, tickDec_haltFetched, tickDec_pc]
  cases takesBranch s <;> simp

/-! ## The counters (R27, R28) -/

/-- The counters at the end of a tick that no error abandoned: a retired HALT stops the engine, else the clock
advances. -/
theorem finishTick_counts {s u : State} (hc : s.EngineConsistent) (hr : s.engineState = .running) (hu : TickEnd s u) :
    (finishTick u).completed = s.completed + (if s.latW.valid = true then 1 else 0) ∧
    (finishTick u).clock = s.clock + (if (finishTick u).engineState = .running then 1 else 0) ∧
    ((finishTick u).engineState = .halted ↔ s.latW.halts = true ∨ (finishTick u).termReason.isTickError = true) := by
  obtain ⟨hrun, hreason, -, -, -, -, -, -, hhalt, hclock, hcompleted, -⟩ := hu
  obtain ⟨-, -, -, -, -, -, -, -, -, hkeep, -⟩ := finishTick_fields u
  have hnone : u.termReason = .none := hreason.trans (hc.1.mp hr)
  refine ⟨by rw [hkeep, hcompleted, tickDec_completed], ?_, ?_⟩
  · rw [finishTick_clock, finishTick_engineState hrun, hclock]
    cases u.haltRetired <;> rfl
  · rw [finishTick_engineState hrun, finishTick_termReason, hnone, hhalt]
    cases s.latW.halts <;> simp [TermReason.isTickError]

/-- Settles O49: WB counts before any error can abandon the tick, an error stops the engine before the clock advances,
and without one a retired HALT does. -/
theorem countersCount : Obligations.CountersCount := by
  intro s t hs hc h
  obtain ⟨-, -, ⟨-, rfl⟩ | ⟨-, -, ⟨-, rfl⟩ | ⟨-, -, ⟨u, rfl, hu⟩ | ⟨rfl, -⟩⟩⟩⟩ := tick_result hs h
  · exact ⟨rfl, rfl, iff_of_true rfl (.inr rfl)⟩
  · exact ⟨rfl, rfl, iff_of_true rfl (.inr rfl)⟩
  · exact finishTick_counts hc hs.2.1 hu
  · exact ⟨rfl, rfl, iff_of_true rfl (.inr rfl)⟩

end Sys2Proof.Machine
end

section
/-! PROOF. The two run modes (spec/10_state.md R42), and the values a reset gives (R45;
spec/70_reset_and_hazards.md R200, R201). -/

namespace Sys2Proof.Machine

/-! ## The pins during a tick (R42) -/

/-- The same state with other pins. -/
def State.withPins (p : Pins) (s : State) : State := { s with pins := p }

theorem loadWord_withPins (op : Opcode) (rd : RegIdx) (p : Pins) (s : State) :
    ActionResult.finish (loadWord op rd (s.withPins p)) memoryToWriteback =
      (ActionResult.finish (loadWord op rd s) memoryToWriteback).withPins p := by
  have hread : memRead (s.withPins p) (s.withPins p).latM.memAddress = memRead s s.latM.memAddress := rfl
  rw [loadWord, hread, loadWord]
  cases memRead s s.latM.memAddress <;> rfl

theorem storeWord_withPins (op : Opcode) (p : Pins) (s : State) :
    ActionResult.finish (storeWord op (s.withPins p)) memoryToWriteback =
      (ActionResult.finish (storeWord op s) memoryToWriteback).withPins p := by
  have hwrite : memWrite (s.withPins p) (s.withPins p).latM.memAddress (s.withPins p).latM.rs1Value =
      (memWrite s s.latM.memAddress s.latM.rs1Value).map (State.withPins p) := by
    rw [memWrite, memWrite, apply_ite (Option.map (State.withPins p))]; rfl
  rw [storeWord, hwrite, storeWord]
  cases memWrite s s.latM.memAddress s.latM.rs1Value <;> rfl

/-- No record's action in any stage depends on the pins or writes them. -/
theorem performed_withPins (i : Instr) (p : Pins) (s : State) :
    performed i (actionsOf i) (s.withPins p) = (performed i (actionsOf i) s).withPins p := by
  cases hst : s.stage
  case wb =>
    rw [performed_wb i hst, performed_wb i (s := s.withPins p) hst]; rfl
  case mem =>
    rw [performed_at_mem hst, performed_at_mem (s := s.withPins p) hst]
    cases i with
    | load f => exact loadWord_withPins .load f.rd p s
    | ldr f => exact loadWord_withPins .ldr f.rd p s
    | store f => exact storeWord_withPins .store p s
    | str f => exact storeWord_withPins .str p s
    | _ => rfl
  case ex =>
    rw [performed_ex i hst, performed_ex i (s := s.withPins p) hst]
    rw [apply_ite (State.withPins p)]; rfl
  case dec =>
    rw [performed_dec i hst, performed_dec i (s := s.withPins p) hst]; rfl
  case fetch =>
    rw [performed_fetch i hst, performed_fetch i (s := s.withPins p) hst]; rfl

theorem exec_withPins (i : Instr) (p : Pins) (s : State) :
    exec i (s.withPins p) = mapNext (State.withPins p) (exec i s) := by
  rw [exec_eq, exec_eq, performed_withPins, apply_ite (mapNext (State.withPins p))]
  rfl

theorem runStage_withPins (st : Stage) (p : Pins) (s : State) :
    runStage st (s.withPins p) = mapNext (State.withPins p) (runStage st s) := by
  unfold runStage
  rw [apply_ite (mapNext (State.withPins p)), ← exec_withPins]
  cases st <;> rfl

theorem fetchRecord_withPins (p : Pins) (s : State) :
    fetchRecord (s.withPins p) = mapNext (State.withPins p) (fetchRecord s) := by
  have hf : iFetch (s.withPins p) (s.withPins p).pc = iFetch s s.pc := rfl
  unfold fetchRecord
  rw [hf]
  cases iFetch s s.pc with
  | none => rfl
  | some w =>
    cases hd : decode w with
    | error e => simp only [hd, mapNext]
    | ok i => simp only [hd, exec_withPins]

theorem fetchStage_withPins (p : Pins) (s : State) :
    fetchStage (s.withPins p) = mapNext (State.withPins p) (fetchStage s) := by
  simp only [fetchStage, apply_ite (mapNext (State.withPins p)), ← fetchRecord_withPins]
  rfl

theorem endTick_withPins (p : Pins) (s : State) :
    endTick (s.withPins p) = mapNext (State.withPins p) (endTick s) := by
  rw [endTick, endTick, apply_ite (mapNext (State.withPins p))]; rfl

/-- One stage function after another keeps the commutation with a change of pins. -/
theorem thenStage_withPins {k : State → StepOutcome State} {p : Pins}
    (hk : ∀ s, k (s.withPins p) = mapNext (State.withPins p) (k s)) (o : StepOutcome State) :
    thenStage (mapNext (State.withPins p) o) k = mapNext (State.withPins p) (thenStage o k) := by
  cases o with
  | next s =>
    cases hr : s.engineState with
    | running =>
      rw [thenStage_running hr, ← hk]
      exact thenStage_running (s := s.withPins p) hr
    | halted =>
      rw [thenStage_halted hr]
      exact thenStage_halted (s := s.withPins p) hr
  | fault r => rfl
  | refused r => rfl

theorem atBoundary_withPins (p : Pins) (o : StepOutcome State) :
    atBoundary (mapNext (State.withPins p) o) = mapNext (State.withPins p) (atBoundary o) := by
  cases o <;> rfl

/-- A tick with other pins is the same tick, with the other pins kept. -/
theorem tick_withPins (p : Pins) (s : State) :
    tick (s.withPins p) = mapNext (State.withPins p) (tick s) := by
  have hstage := fun st => runStage_withPins st p
  have hb : beforeFetch (s.withPins p) = mapNext (State.withPins p) (beforeFetch s) := by
    have hwb : runStage .wb { s.withPins p with haltRetired := false } =
        mapNext (State.withPins p) (runStage .wb { s with haltRetired := false }) :=
      hstage .wb { s with haltRetired := false }
    rw [beforeFetch, hwb, thenStage_withPins (hstage .mem), thenStage_withPins (hstage .ex),
      thenStage_withPins (hstage .dec), ← beforeFetch]
  rw [tick, hb, thenStage_withPins (fetchStage_withPins p), thenStage_withPins (endTick_withPins p),
    atBoundary_withPins, ← tick]

/-- A stopped engine waits for a reset (R191). -/
theorem step_of_halted {s : State} (hr : s.pins.reset = false) (he : s.engineState = .halted) : step s = .next s := by
  simp [step, cycle, hr, he]

/-- A running engine that does not wait performs one iteration of the run loop (R42, R90). -/
theorem step_of_iterates {s : State} (hr : s.pins.reset = false) (he : s.engineState = .running)
    (hi : s.pins.iterates = true) : step s = iteration s := by
  simp [step, cycle, hr, he, hi]

/-- An iteration of the run loop reads no pin but `abort`. -/
theorem iteration_withPins {p : Pins} {s : State} (ha : p.abort = s.pins.abort) :
    iteration (s.withPins p) = mapNext (State.withPins p) (iteration s) := by
  have hp : (s.withPins p).pins.abort = s.pins.abort := ha
  simp only [iteration, hp, tick_withPins, apply_ite (mapNext (State.withPins p))]
  rfl

/-- A step without reset depends on the pins by whether the engine waits and by `abort` alone. -/
theorem step_withPins {p : Pins} {s : State} (hr : s.pins.reset = false) (hpr : p.reset = false)
    (hi : s.pins.iterates = true) (hpi : p.iterates = true) (ha : p.abort = s.pins.abort) :
    step (s.withPins p) = mapNext (State.withPins p) (step s) := by
  cases he : s.engineState with
  | halted => rw [step_of_halted hr he, step_of_halted (s := s.withPins p) hpr he]; rfl
  | running =>
    rw [step_of_iterates hr he hi, step_of_iterates (s := s.withPins p) hpr he hpi, iteration_withPins ha]

/-- Settles O38: the two sets of pins ask for the same cycle, and a cycle depends on them in no other way. -/
theorem singleStepIsBatch : Obligations.SingleStepIsBatch := by
  intro s t hmode hreset h
  have hi : s.pins.iterates = true := by simp only [Pins.iterates, hmode]
  have e := step_withPins (p := { s.pins with runMode := .singleStep, step := true }) hreset hreset hi rfl rfl
  rw [h] at e
  exact e

/-! ## Reset values (R45) -/

/-- The registers start at RF_INIT, all available. -/
theorem initialState_reg (c : Config) (p : Pins) {r : RegIdx} (hr : r.toNat < c.nregs) :
    (initialState c p).x r = c.rfInit.getD r.toNat 0 ∧ (initialState c p).avail r = true := by
  simp [State.x, State.avail, initialState, initialRf, List.getD, hr]

/-- DMEM_INIT takes effect pair by pair (log 14). -/
theorem Memory.ofInit_concat (words : Nat) (l : List (Nat × Word)) (q : Nat × Word) :
    Memory.ofInit words (l ++ [q]) =
      if q.1 < words then Memory.writeWord (Memory.ofInit words l) q.1 q.2 else Memory.ofInit words l := by
  rw [Memory.ofInit, List.foldl_append]; rfl

/-- The word at `b` after one more pair of DMEM_INIT. -/
theorem Memory.readWord_ofInit_concat (words : Nat) (l : List (Nat × Word)) (q : Nat × Word) (b : Nat) :
    Memory.readWord (Memory.ofInit words (l ++ [q])) b =
      if q.1 < words ∧ b = q.1 then q.2 else Memory.readWord (Memory.ofInit words l) b := by
  rw [Memory.ofInit_concat]
  by_cases hq : q.1 < words
  · simp only [hq, if_true, true_and, Memory.readWord_writeWord]
  · simp only [hq, if_false, false_and]

/-- A word that DMEM_INIT does not list starts at 0. -/
theorem Memory.readWord_ofInit_of_not_mem {words : Nat} {l : List (Nat × Word)} {a : Nat}
    (ha : a ∉ l.map Prod.fst) : Memory.readWord (Memory.ofInit words l) a = 0 := by
  induction l using List.reverseRecOn with
  | nil =>
    change unlistedByte ++ unlistedByte ++ unlistedByte ++ unlistedByte = (0 : Word)
    decide
  | append_singleton l q ih =>
    simp only [List.map_append, List.mem_append, List.map_cons, List.map_nil, List.mem_singleton, not_or] at ha
    rw [Memory.readWord_ofInit_concat, if_neg fun h => ha.2 h.2, ih ha.1]

/-- A word that DMEM_INIT lists once starts at its value. -/
theorem Memory.readWord_ofInit_of_mem {words : Nat} {l : List (Nat × Word)} (hl : (l.map Prod.fst).Nodup)
    {q : Nat × Word} (hq : q ∈ l) (hw : q.1 < words) : Memory.readWord (Memory.ofInit words l) q.1 = q.2 := by
  induction l using List.reverseRecOn with
  | nil => cases hq
  | append_singleton l r ih =>
    rw [List.map_append, List.nodup_append] at hl
    obtain ⟨hnodup, -, hdisj⟩ := hl
    rw [Memory.readWord_ofInit_concat]
    rcases List.mem_append.mp hq with hql | hqr
    · have hne : q.1 ≠ r.1 := hdisj _ (List.mem_map_of_mem hql) _ (by simp)
      rw [if_neg fun h => hne h.2, ih hnodup hql]
    · rw [List.mem_singleton.mp hqr] at hw ⊢
      rw [if_pos ⟨hw, rfl⟩]

/-- What a reset writes before the configuration check are the values of R45 for the configuration on the pins. -/
theorem initialState_hasResetValues (p : Pins) : (initialState p.config p).HasResetValues p :=
  ⟨nregs_initialState _ _, fun _ hr => initialState_reg _ _ hr,
    fun hnodup => ⟨fun _ hq hw => Memory.readWord_ofInit_of_mem hnodup hq hw,
      fun _ ha => Memory.readWord_ofInit_of_not_mem ha⟩,
    rfl, rfl, rfl, rfl, rfl, rfl, rfl, rfl, rfl, rfl, rfl, rfl, rfl, rfl, rfl, rfl, rfl⟩

/-- The configuration check passes a non-empty store of well-formed records (R181). -/
theorem checkConfiguration_of_wellFormed {c : Config} (hne : c.program ≠ [])
    (hwf : ∀ w ∈ c.program, PackedWord.wellFormed c.nregs w = true) (s : State) : checkConfiguration c s = s := by
  unfold checkConfiguration
  split
  · exact absurd ‹_› hne
  · rw [firstIllFormed_eq_none.mpr hwf]

/-- A reset with legal parameters writes the reset values and checks the configuration (R200). -/
theorem applyReset_of_legal {s : State} (hl : s.pins.config.Legal) :
    applyReset s = .next (checkConfiguration s.pins.config (initialState s.pins.config s.pins)) := if_pos hl

/-- Settles O40: the check finds nothing to stop for, so the step answers the initial state. -/
theorem resetStartsARun : Obligations.ResetStartsARun := by
  intro s hr hl hne hwf
  refine ⟨initialState s.pins.config s.pins, ?_, initialState_hasResetValues s.pins, rfl, rfl, rfl⟩
  rw [step_of_reset hr, applyReset_of_legal hl, checkConfiguration_of_wellFormed hne hwf]

end Sys2Proof.Machine
end

section
/-! PROOF. What every step keeps: descriptor tags (spec/10_state.md R37), and the invariant Sound (R29, R31, R38;
spec/60_exceptions.md R181; spec/30_encoding.md R77). -/

namespace Sys2Proof.Machine

/-! ## Invariants of a step -/

/-- A property is kept by every step when a reset establishes it, a stop between ticks keeps it, and a tick keeps it. -/
theorem step_keeps_of {P : State → Prop} (hreset : ∀ s t, applyReset s = .next t → P t)
    (hstop : ∀ s reason, reason ≠ .none → P s → P (stopWith reason .none s))
    (htick : ∀ s t, s.Ticks → P s → step s = .next t → P t) (s t : State) (hP : P s) (h : step s = .next t) : P t := by
  obtain ⟨-, e⟩ | ⟨-, -, e⟩ | ⟨-, -, -, -, e⟩ | ⟨-, -, -, -, -, e⟩ | ⟨hs, -⟩ := step_cases s
  · exact hreset s t (e.symm.trans h)
  · cases e.symm.trans h
    exact hP
  · cases e.symm.trans h
    exact hstop s _ nofun hP
  · cases e.symm.trans h
    exact hstop s _ nofun hP
  · exact htick s t hs hP h

/-! ## Descriptor tags (R37) -/

/-- MEM leaves the tag R37 gives an instruction that has passed it: a load writes it, the others have it from EX. -/
theorem Latch.loaded_resTag {l : Latch} (s : State) (h : l.resTag = tagAfterEx l.instr) :
    (l.loaded s).resTag = tagAfterMem l.instr := by
  cases hl : isLoad l.instr.opcode
  · simp [Latch.loaded, hl, h, tagAfterEx, tagAfterMem]
  · simp [Latch.loaded, hl, tagAfterMem, resultProducing_of_isLoad hl]

/-- EX leaves the tag R37 gives an instruction that has passed it: a load, or one without a result, keeps NONE. -/
theorem executedLatch_resTag {l : Latch} (h : l.resTag = none) (i : Instr) :
    (executedLatch i l).resTag = tagAfterEx i := by
  rw [executedLatch, h]
  rfl

/-- MEM, EX and DEC hand on latches with the tags of R37. -/
theorem tickDec_tags {s : State} (h : s.TagsConsistent) :
    ((tickDec s).latE.valid = true → (tickDec s).latE.resTag = none) ∧
    ((tickDec s).latM.valid = true → (tickDec s).latM.resTag = tagAfterEx (tickDec s).latM.instr) ∧
    ((tickDec s).latW.valid = true → (tickDec s).latW.resTag = tagAfterMem (tickDec s).latW.instr) := by
  obtain ⟨hD, hE, hM, -⟩ := h
  obtain ⟨vE, fromD⟩ := tickDec_latE_valid s
  obtain ⟨vM, fromE⟩ := tickDec_latM_valid s
  obtain ⟨vW, fromM⟩ := tickDec_latW_valid s
  refine ⟨fun hv => ?_, fun hv => ?_, fun hv => ?_⟩
  · obtain ⟨-, htag⟩ := fromD hv
    rw [vE, Bool.and_eq_true] at hv
    rw [htag, hD hv.2]
  · obtain ⟨hinstr, hlatch⟩ := fromE hv
    rw [hinstr, hlatch, executedLatch_resTag (hE (vM.symm.trans hv))]
  · obtain ⟨hinstr, hlatch⟩ := fromM hv
    rw [hinstr, hlatch, Latch.loaded_resTag s (hM (vW.symm.trans hv))]

theorem applyReset_tagsConsistent {s t : State} (h : applyReset s = .next t) : t.TagsConsistent := by
  obtain ⟨-, -, hD, hE, hM, hW, -⟩ := applyReset_fields h
  rw [State.TagsConsistent, hD, hE, hM, hW]
  exact ⟨nofun, nofun, nofun, nofun⟩

/-- What FETCH puts into `D`, when it raises no error, is nothing or a record freshly fetched. -/
theorem TickEnd.latD {s u : State} (hu : TickEnd s u) :
    u.latD.valid = false ∨ ∃ i, u.latD = Latch.fetched i (tickDec s).pc ∧ i.wellFormed s.nregs = true := by
  obtain ⟨-, -, -, -, -, -, -, -, -, -, -, -, -, ⟨hv, -⟩ | ⟨w, i, hD, -, -, -, -, hwf, -⟩⟩ := hu
  · exact .inl hv
  · exact .inr ⟨i, hD, hwf⟩

/-- What a tick without an error leaves in the latches. -/
theorem finishTick_latches {s u : State} (hu : TickEnd s u) :
    (finishTick u).latD = u.latD ∧ (finishTick u).latE = (tickDec s).latE ∧ (finishTick u).latM = (tickDec s).latM ∧
      (finishTick u).latW = (tickDec s).latW := by
  obtain ⟨-, -, -, -, -, hE, hM, hW, -⟩ := hu
  obtain ⟨-, -, -, -, -, kD, kE, kM, kW, -⟩ := finishTick_fields u
  exact ⟨kD, kE.trans hE, kM.trans hM, kW.trans hW⟩

theorem tick_keeps_tagsConsistent {s t : State} (hs : s.Ticks) (h : s.TagsConsistent) (ht : step s = .next t) :
    t.TagsConsistent := by
  obtain ⟨hE', hM', hW'⟩ := tickDec_tags h
  obtain ⟨hD, hE, hM, -⟩ := h
  obtain ⟨-, -, ⟨-, rfl⟩ | ⟨-, -, ⟨-, rfl⟩ | ⟨-, -, ⟨u, rfl, hu⟩ | ⟨rfl, -⟩⟩⟩⟩ := tick_result hs ht
  · exact ⟨hD, hE, hM, nofun⟩
  · exact ⟨hD, hE, nofun, hW'⟩
  · obtain ⟨kD, kE, kM, kW⟩ := finishTick_latches hu
    rw [State.TagsConsistent, kD, kE, kM, kW]
    refine ⟨fun hv => ?_, hE', hM', hW'⟩
    obtain hno | ⟨i, hi, -⟩ := hu.latD
    · rw [hno] at hv; cases hv
    · rw [hi]; rfl
  · exact ⟨nofun, hE', hM', hW'⟩

/-- Settles O55: FETCH clears the tag, DEC passes it on, EX and MEM write it; an error leaves the latches it has not
reached. -/
theorem stepKeepsTagsConsistent : Obligations.StepKeepsTagsConsistent :=
  step_keeps_of (P := fun s => s.TagsConsistent) (fun _ _ => applyReset_tagsConsistent) (fun _ _ _ h => h)
    fun _ _ => tick_keeps_tagsConsistent

/-! ## Sound: what a tick leaves alone -/

theorem nregs_congr {s t : State} (h : s.rf = t.rf) : s.nregs = t.nregs := congrArg List.length h

/-- A tick keeps the number of registers. -/
theorem tick_nregs {s t : State} (hs : s.Ticks) (h : step s = .next t) : t.nregs = s.nregs := by
  obtain ⟨-, rfl⟩ | ⟨-, -, rfl⟩ | ⟨-, -, -, hrf, -⟩ := tick_stops_or_decodes hs h
  · exact nregs_tickWb s
  · exact nregs_tickWb s
  · rw [nregs_congr hrf, nregs_tickDec]

theorem finishTick_istore (u : State) : (finishTick u).istore = u.istore := by
  unfold finishTick
  split <;> rfl

/-- A tick keeps the instruction store. -/
theorem tick_istore {s t : State} (hs : s.Ticks) (h : step s = .next t) : t.istore = s.istore := by
  obtain ⟨-, -, ⟨-, rfl⟩ | ⟨-, -, ⟨-, rfl⟩ | ⟨-, -, ⟨u, rfl, hu⟩ | ⟨rfl, -⟩⟩⟩⟩ := tick_result hs h
  · rfl
  · rfl
  · obtain ⟨-, -, -, -, -, -, -, -, -, -, -, -, hstore, -⟩ := hu
    rw [finishTick_istore, hstore]
  · rfl

/-! ## Sound: a tick keeps each part -/

/-- FETCH answers a redirect in the tick that asked for it, and empties `F` (R29, R38, R101). -/
theorem tick_keeps_atBoundary {s t : State} (hs : s.Ticks) (hb : s.AtBoundary) (h : step s = .next t) :
    t.AtBoundary := by
  obtain ⟨hrp, hF, -⟩ := hb
  obtain ⟨-, -, ⟨-, rfl⟩ | ⟨-, -, ⟨-, rfl⟩ | ⟨-, -, ⟨u, rfl, hu⟩ | ⟨rfl, hbr, -, -⟩⟩⟩⟩ := tick_result hs h
  · exact ⟨hrp, hF, rfl⟩
  · exact ⟨hrp, hF, rfl⟩
  · obtain ⟨-, -, -, -, kF, -, -, -, -, -, krp, -⟩ := finishTick_fields u
    rw [State.AtBoundary, krp, kF]
    obtain ⟨-, -, -, -, -, -, -, -, -, -, -, -, -,
      ⟨-, hurp, huF, -⟩ | ⟨w, i, -, -, -, -, -, -, -, hurp, huF⟩⟩ := hu
    · exact ⟨hurp, by rw [huF, hF], rfl⟩
    · exact ⟨hurp, by rw [huF]; rfl, rfl⟩
  · refine ⟨?_, hF, rfl⟩
    change (tickDec s).redirectPending = false
    rw [tickDec_redirectPending, hbr, hrp]
    rfl

theorem engineConsistent_of_halted {s : State} (he : s.engineState = .halted) (hr : s.termReason ≠ .none) :
    s.EngineConsistent := by
  rw [State.EngineConsistent, he]
  exact ⟨iff_of_false nofun hr, nofun⟩

/-- A tick writes the reason exactly when it stops the engine (R31, R187). -/
theorem tick_keeps_engineConsistent {s t : State} (hs : s.Ticks) (hc : s.EngineConsistent) (h : step s = .next t) :
    t.EngineConsistent := by
  have hnone : s.termReason = .none := hc.1.mp hs.2.1
  have hinfo : s.faultInfo = .none := hc.2 hs.2.1
  obtain ⟨-, -, ⟨-, rfl⟩ | ⟨-, -, ⟨-, rfl⟩ | ⟨-, -, ⟨u, rfl, hu⟩ | ⟨rfl, -⟩⟩⟩⟩ := tick_result hs h
  · exact engineConsistent_of_halted rfl nofun
  · exact engineConsistent_of_halted rfl nofun
  · obtain ⟨hrun, hreason, hfault, -⟩ := hu
    unfold finishTick
    split
    · exact engineConsistent_of_halted rfl nofun
    · exact ⟨iff_of_true hrun (hreason.trans hnone), fun _ => hfault.trans hinfo⟩
  · exact engineConsistent_of_halted rfl nofun

theorem tick_keeps_storeChecked {s t : State} (hs : s.Ticks) (hc : s.StoreChecked) (h : step s = .next t) :
    t.StoreChecked := by
  intro _
  rw [tick_istore hs h, tick_nregs hs h]
  exact hc hs.2.1

theorem latchesChecked_iff (s : State) :
    s.LatchesChecked ↔
      (s.latD.valid = true → s.latD.instr.wellFormed s.nregs = true) ∧
      (s.latE.valid = true → s.latE.instr.wellFormed s.nregs = true) ∧
      (s.latM.valid = true → s.latM.instr.wellFormed s.nregs = true) ∧
      (s.latW.valid = true → s.latW.instr.wellFormed s.nregs = true) := by
  simp only [State.LatchesChecked, List.forall_mem_cons, List.not_mem_nil, false_implies, implies_true, and_true]

/-- MEM, EX and DEC hand on the records of `M`, `E` and `D`. -/
theorem tickDec_records {s : State} (hc : s.LatchesChecked) :
    ((tickDec s).latE.valid = true → (tickDec s).latE.instr.wellFormed s.nregs = true) ∧
    ((tickDec s).latM.valid = true → (tickDec s).latM.instr.wellFormed s.nregs = true) ∧
    ((tickDec s).latW.valid = true → (tickDec s).latW.instr.wellFormed s.nregs = true) := by
  obtain ⟨hD, hE, hM, -⟩ := (latchesChecked_iff s).mp hc
  obtain ⟨vE, fromD⟩ := tickDec_latE_valid s
  obtain ⟨vM, fromE⟩ := tickDec_latM_valid s
  obtain ⟨vW, fromM⟩ := tickDec_latW_valid s
  refine ⟨fun hv => ?_, fun hv => ?_, fun hv => ?_⟩
  · rw [(fromD hv).1]
    rw [vE, Bool.and_eq_true] at hv
    exact hD hv.2
  · rw [(fromE hv).1]
    exact hE (vM.symm.trans hv)
  · rw [(fromM hv).1]
    exact hM (vW.symm.trans hv)

/-- Every record in flight was well-formed before the tick, or has been fetched as a well-formed one. -/
theorem tick_keeps_latchesChecked {s t : State} (hs : s.Ticks) (hc : s.LatchesChecked) (h : step s = .next t) :
    t.LatchesChecked := by
  obtain ⟨hE', hM', hW'⟩ := tickDec_records hc
  obtain ⟨hD, hE, hM, -⟩ := (latchesChecked_iff s).mp hc
  rw [latchesChecked_iff, tick_nregs hs h]
  obtain ⟨-, -, ⟨-, rfl⟩ | ⟨-, -, ⟨-, rfl⟩ | ⟨-, -, ⟨u, rfl, hu⟩ | ⟨rfl, -⟩⟩⟩⟩ := tick_result hs h
  · exact ⟨hD, hE, hM, nofun⟩
  · exact ⟨hD, hE, nofun, hW'⟩
  · obtain ⟨kD, kE, kM, kW⟩ := finishTick_latches hu
    rw [kD, kE, kM, kW]
    refine ⟨fun hv => ?_, hE', hM', hW'⟩
    obtain hno | ⟨i, hi, hwf⟩ := hu.latD
    · rw [hno] at hv; cases hv
    · rw [hi]; exact hwf
  · exact ⟨nofun, hE', hM', hW'⟩

/-- A tick writes Data Memory by whole-word writes alone (log 9). -/
theorem tick_keeps_dmem_wf {s t : State} (hs : s.Ticks) (hw : s.dmem.wf) (h : step s = .next t) : t.dmem.wf := by
  obtain ⟨-, e⟩ | ⟨-, e⟩ := tick_dmem hs h
  · rw [e]; exact hw
  · rw [e, tickDec_dmem]
    split
    · exact Memory.wf_writeWord hw _ _
    · exact hw

theorem tick_keeps_sound {s t : State} (hs : s.Ticks) (hsound : s.Sound) (h : step s = .next t) : t.Sound := by
  obtain ⟨hb, hc, hstore, hl, hw⟩ := hsound
  exact ⟨tick_keeps_atBoundary hs hb h, tick_keeps_engineConsistent hs hc h, tick_keeps_storeChecked hs hstore h,
    tick_keeps_latchesChecked hs hl h, tick_keeps_dmem_wf hs hw h⟩

/-! ## Sound: resets and stops between ticks -/

/-- The configuration check passes only a checked store, else it stops the engine (R181). -/
theorem checkConfiguration_checks (c : Config) (s : State) :
    (c.program ≠ [] ∧ (∀ w ∈ c.program, PackedWord.wellFormed c.nregs w = true) ∧ checkConfiguration c s = s) ∨
    ∃ info, checkConfiguration c s = stopWith .configurationError info s := by
  unfold checkConfiguration
  split
  · exact .inr ⟨_, rfl⟩
  · rename_i w ws hp
    cases hk : firstIllFormed c.nregs c.program with
    | none => exact .inl ⟨by rw [hp]; exact nofun, firstIllFormed_eq_none.mp hk, rfl⟩
    | some k => exact .inr ⟨_, rfl⟩

theorem applyReset_engineConsistent {s t : State} (h : applyReset s = .next t) : t.EngineConsistent := by
  obtain ⟨rfl, -⟩ := applyReset_next h
  obtain ⟨-, -, e⟩ | ⟨info, e⟩ := checkConfiguration_checks s.pins.config (initialState s.pins.config s.pins)
  · rw [e]; exact ⟨iff_of_true rfl rfl, fun _ => rfl⟩
  · rw [e]; exact engineConsistent_of_halted rfl nofun

theorem applyReset_storeChecked {s t : State} (h : applyReset s = .next t) : t.StoreChecked := by
  obtain ⟨rfl, -⟩ := applyReset_next h
  obtain ⟨hne, hwf, e⟩ | ⟨info, e⟩ := checkConfiguration_checks s.pins.config (initialState s.pins.config s.pins)
  · rw [e, State.StoreChecked, nregs_initialState]; exact fun _ => ⟨hne, hwf⟩
  · rw [e]; exact nofun

theorem applyReset_sound {s t : State} (h : applyReset s = .next t) : t.Sound := by
  obtain ⟨-, hF, hD, hE, hM, hW, -, -, hrp, hst, hw⟩ := applyReset_fields h
  refine ⟨⟨hrp, by rw [hF]; rfl, hst⟩, applyReset_engineConsistent h, applyReset_storeChecked h, ?_, hw⟩
  rw [latchesChecked_iff, hD, hE, hM, hW]
  exact ⟨nofun, nofun, nofun, nofun⟩

/-- Stopping a sound engine with a reason leaves it sound. -/
theorem stopWith_sound {s : State} {reason : TermReason} (info : FaultInfo) (hr : reason ≠ .none) (h : s.Sound) :
    (stopWith reason info s).Sound := by
  obtain ⟨hb, -, -, hl, hw⟩ := h
  exact ⟨hb, engineConsistent_of_halted rfl hr, nofun, hl, hw⟩

/-- Settles O51: a reset establishes every part, a stop between ticks writes the engine's outputs alone, and a tick
keeps each part. -/
theorem stepKeepsSound : Obligations.StepKeepsSound :=
  step_keeps_of (P := fun s => s.Sound) (fun _ _ => applyReset_sound) (fun _ _ => stopWith_sound .none)
    fun _ _ => tick_keeps_sound

/-! ## The reset state (R45) -/

/-- The reset state is what a reset with nothing on the pins leaves (log 2). -/
theorem applyReset_reset : applyReset State.reset = .next State.reset :=
  (applyReset_of_legal (by decide)).trans rfl

/-- Settles O50: the reset state is the outcome of a reset; its registers are available, its latches empty, its counters
0 and its engine stopped. -/
theorem resetStateIsSound : Obligations.ResetStateIsSound := by
  obtain ⟨available, -⟩ := applyReset_fields applyReset_reset
  have htags := applyReset_tagsConsistent applyReset_reset
  have hpending : State.reset.PendingHasWriter := fun r hr => by rw [available r] at hr; cases hr
  have hhalt : State.reset.HaltIsYoungest := ⟨nofun, nofun, nofun, nofun⟩
  have hlatency : State.reset.LatencyBound := ⟨Nat.zero_le _, nofun⟩
  exact ⟨applyReset_sound applyReset_reset, hpending, hhalt, htags, ⟨htags, nofun⟩, hlatency⟩

end Sys2Proof.Machine
end

section
/-! PROOF. The memory primitives and instruction fetch (spec/20_memory.md R51, R61, R62). -/

namespace Sys2Proof.Machine

/-! ## Data Memory (R51) -/

/-- A read after a write in range: the word written at its own address, and what was read before, failures included,
at every other. -/
theorem memRead_writeWord {s : State} {a : Int} (ha : s.addressOk a) (v : Word) (b : Int) :
    memRead { s with dmem := Memory.writeWord s.dmem a.toNat v } b = if b = a then some v else memRead s b := by
  by_cases hb : s.addressOk b
  · have hword : b.toNat = a.toNat ↔ b = a := by
      obtain ⟨ha0, -⟩ := ha
      obtain ⟨hb0, -⟩ := hb
      omega
    have hold : memRead s b = some (s.dmemWord b.toNat) := memRead_eq_some.mpr ⟨hb, rfl⟩
    rw [hold, ← apply_ite some]
    refine memRead_eq_some.mpr ⟨hb, ?_⟩
    simp only [dmemWord_writeWord, hword]
  · have hne : b ≠ a := fun e => hb (e ▸ ha)
    rw [if_neg hne, memRead_eq_none.mpr hb]
    exact memRead_eq_none.mpr hb

/-- Settles O23: a write in range answers the state with that one word written, and an address out of range fails the
bounds check of both primitives. -/
theorem memoryPrimitives : Obligations.MemoryPrimitives := by
  intro s a v
  exact ⟨fun ha => ⟨_, memWrite_eq_some.mpr ⟨ha, rfl⟩, rfl, memRead_writeWord ha v⟩,
    fun ha => ⟨memWrite_eq_none.mpr ha, memRead_eq_none.mpr ha⟩⟩

/-! ## Instruction Store (R61, R62) -/

/-- Only `CODE_BASE` plus a multiple of `INSTR_WIDTH` fetches anything (R62). -/
theorem iFetch_aligned {s : State} {pc : Int} {w : PackedWord} (h : iFetch s pc = some w) :
    ∃ k : Nat, pc = (s.codeBase : Int) + (k : Int) * (s.instrWidth : Int) := by
  simp only [iFetch] at h
  split at h
  · cases h
  · next hok =>
    obtain ⟨hnonneg, hmod⟩ : 0 ≤ pc - (s.codeBase : Int) ∧ (pc - (s.codeBase : Int)) % (s.instrWidth : Int) = 0 := by
      simpa using hok
    have hindex : 0 ≤ (pc - (s.codeBase : Int)) / (s.instrWidth : Int) :=
      Int.ediv_nonneg hnonneg (Int.natCast_nonneg _)
    refine ⟨((pc - (s.codeBase : Int)) / (s.instrWidth : Int)).toNat, ?_⟩
    rw [Int.toNat_of_nonneg hindex, Int.ediv_mul_cancel (Int.dvd_of_emod_eq_zero hmod)]
    omega

/-- The `k`-th address of the store fetches what the store holds at `k`, if anything (R61). -/
theorem iFetch_record {s : State} (hw : 1 ≤ s.instrWidth) (k : Nat) :
    iFetch s ((s.codeBase : Int) + (k : Int) * (s.instrWidth : Int)) = s.istore[k]? := by
  have hwidth : (s.instrWidth : Int) ≠ 0 := by omega
  have hnonneg : ¬ (k : Int) * (s.instrWidth : Int) < 0 := by
    have := Int.mul_nonneg (Int.natCast_nonneg k) (Int.natCast_nonneg s.instrWidth)
    omega
  simp only [iFetch, add_sub_cancel_left, hnonneg, Int.mul_emod_left, ne_eq, not_true_eq_false, or_self, if_false,
    Int.mul_ediv_cancel _ hwidth, Int.toNat_natCast]

/-- Settles O24: an address that fetches is the `k`-th of the store for some `k`, and that one fetches record `k`. -/
theorem instructionFetch : Obligations.InstructionFetch := by
  intro s pc w hw
  constructor
  · intro h
    obtain ⟨k, rfl⟩ := iFetch_aligned h
    exact ⟨k, rfl, (iFetch_record hw k).symm.trans h⟩
  · rintro ⟨k, rfl, hk⟩
    exact (iFetch_record hw k).trans hk

end Sys2Proof.Machine
end

section
/-! PROOF. The packed word (spec/30_encoding.md R71, R73 to R77): what the decoder accepts, and that decoder and encoder
are inverse to each other. -/

namespace Sys2Proof

/-! ## Words as numbers -/

/-- A slice of a packed word, as a number. -/
theorem PackedWord.toNat_slice (w : PackedWord) (start len : Nat) :
    (w.extractLsb' start len).toNat = w.toNat / 2 ^ start % 2 ^ len := by
  rw [BitVec.extractLsb'_toNat, Nat.shiftRight_eq_div_pow]

/-- An appended word, as a number: its low part is added to its high part shifted. -/
theorem toNat_append_eq_add {v w : Nat} (x : BitVec v) (y : BitVec w) :
    (x ++ y).toNat = x.toNat * 2 ^ w + y.toNat := by
  rw [BitVec.toNat_append, ← Nat.shiftLeft_add_eq_or_of_lt y.isLt, Nat.shiftLeft_eq]

/-- The packed word of a record, as a number: each field at its place in the layout of R73. -/
theorem toNat_encode (i : Instr) :
    (encode i).toNat =
      i.fields.imm.toNat * 2 ^ 32 + i.opcode.tag.toNat * 2 ^ 27 + i.fields.rd.toNat * 2 ^ 18 +
        i.fields.rs1.toNat * 2 ^ 12 + i.fields.rs2.toNat * 2 ^ 6 + i.fields.rs3.toNat := by
  change (i.fields.imm ++ i.opcode.tag ++ (0#3) ++ i.fields.rd ++ i.fields.rs1 ++ i.fields.rs2 ++
    i.fields.rs3).toNat = _
  simp only [toNat_append_eq_add, BitVec.toNat_ofNat]
  omega

/-! ## The parts of an encoded record (R73) -/

/-- A slice of an encoded record is told by its number. -/
theorem slice_encode {i : Instr} {start len : Nat} {x : BitVec len}
    (h : (encode i).toNat / 2 ^ start % 2 ^ len = x.toNat) : (encode i).extractLsb' start len = x :=
  BitVec.eq_of_toNat_eq ((PackedWord.toNat_slice _ _ _).trans h)

theorem reserved_encode (i : Instr) : PackedWord.reserved (encode i) = 0 :=
  slice_encode (x := 0#3) (by rw [toNat_encode, BitVec.toNat_ofNat]; omega)

theorem tag_encode (i : Instr) : PackedWord.tag (encode i) = i.opcode.tag :=
  slice_encode (by rw [toNat_encode]; omega)

theorem fields_encode (i : Instr) : PackedWord.fields (encode i) = i.fields := by
  have hrd : (encode i).extractLsb' 18 6 = i.fields.rd := slice_encode (by rw [toNat_encode]; omega)
  have hrs1 : (encode i).extractLsb' 12 6 = i.fields.rs1 := slice_encode (by rw [toNat_encode]; omega)
  have hrs2 : (encode i).extractLsb' 6 6 = i.fields.rs2 := slice_encode (by rw [toNat_encode]; omega)
  have hrs3 : (encode i).extractLsb' 0 6 = i.fields.rs3 := slice_encode (by rw [toNat_encode]; omega)
  have himm : (encode i).extractLsb' 32 32 = i.fields.imm := slice_encode (by rw [toNat_encode]; omega)
  rw [PackedWord.fields, hrd, hrs1, hrs2, hrs3, himm]

/-! ## Opcodes and tags (R71) -/

theorem Instr.make_opcode_fields (i : Instr) : Instr.make i.opcode i.fields = i := by
  cases i <;> rfl

theorem Instr.opcode_make (o : Opcode) (f : Fields) : (Instr.make o f).opcode = o := by
  cases o <;> rfl

theorem Instr.fields_make (o : Opcode) (f : Fields) : (Instr.make o f).fields = f := by
  cases o <;> rfl

theorem opcodeOfTag_tag (o : Opcode) : opcodeOfTag o.tag.toNat = some o := by
  cases o <;> rfl

/-- A tag number stands for at most one opcode, whose tag it is. -/
theorem tag_of_opcodeOfTag {n : Nat} {o : Opcode} (h : opcodeOfTag n = some o) : o.tag.toNat = n := by
  unfold opcodeOfTag at h
  split at h <;> cases h <;> rfl

/-- The tags of the 19 opcodes are the numbers up to 18. -/
theorem exists_tag_iff (t : BitVec 5) : (∃ o : Opcode, t = o.tag) ↔ t.toNat ≤ 18 := by
  constructor
  · rintro ⟨o, rfl⟩
    cases o <;> decide
  · intro h
    obtain ⟨o, ho⟩ : ∃ o, opcodeOfTag t.toNat = some o := by
      interval_cases t.toNat <;> exact ⟨_, rfl⟩
    exact ⟨o, BitVec.eq_of_toNat_eq (tag_of_opcodeOfTag ho).symm⟩

/-! ## The decoder (R73 to R77) -/

/-- What the decoder accepts, and as what: reserved bits 0, the tag of the opcode, and the fields read off. -/
theorem decode_eq_ok {w : PackedWord} {i : Instr} :
    decode w = .ok i ↔
      PackedWord.reserved w = 0 ∧ PackedWord.tag w = i.opcode.tag ∧ PackedWord.fields w = i.fields := by
  constructor
  · intro h
    unfold decode at h
    split at h
    · next hres =>
      split at h
      · next o ho =>
        cases h
        rw [Instr.opcode_make, Instr.fields_make]
        exact ⟨hres, (BitVec.eq_of_toNat_eq (tag_of_opcodeOfTag ho)).symm, rfl⟩
      · cases h
    · cases h
  · rintro ⟨hres, htag, hfields⟩
    simp only [decode, hres, if_true, htag, opcodeOfTag_tag, hfields, Instr.make_opcode_fields]

/-- Settles O1: an encoded record has reserved bits 0, the tag of its opcode and its own fields. -/
theorem decodeOfEncode : Obligations.DecodeOfEncode := fun i =>
  decode_eq_ok.mpr ⟨reserved_encode i, tag_encode i, fields_encode i⟩

/-- Settles O2: the slices the decoder reads make up the whole word, since the bits it does not keep are 0. -/
theorem encodeOfDecode : Obligations.EncodeOfDecode := by
  intro w i h
  obtain ⟨hres, htag, hfields⟩ := decode_eq_ok.mp h
  have hzero : (PackedWord.reserved w).toNat = 0 := by rw [hres]; rfl
  apply BitVec.eq_of_toNat_eq
  rw [toNat_encode, ← htag, ← hfields]
  simp only [PackedWord.reserved, PackedWord.tag, PackedWord.fields, PackedWord.toNat_slice] at hzero ⊢
  omega

/-- Settles O3: any fields are accepted, so a word decodes when its tag is an opcode's. -/
theorem decodeAcceptsExactlyTheTags : Obligations.DecodeAcceptsExactlyTheTags := by
  intro w
  rw [← exists_tag_iff]
  constructor
  · rintro ⟨i, h⟩
    obtain ⟨hres, htag, -⟩ := decode_eq_ok.mp h
    exact ⟨hres, i.opcode, htag⟩
  · rintro ⟨hres, o, htag⟩
    refine ⟨Instr.make o (PackedWord.fields w), decode_eq_ok.mpr ⟨hres, ?_, ?_⟩⟩
    · rw [Instr.opcode_make]; exact htag
    · rw [Instr.fields_make]

/-- Settles O4: each word is decoded by computation. -/
theorem wordsOfTheSpecDecode : Obligations.WordsOfTheSpecDecode :=
  ⟨by decide, by decide, by decide, by decide, by decide, by decide, by decide⟩

end Sys2Proof
end

section
/-! PROOF. Unused fields (spec/30_encoding.md R72, R76): setting them to 0 commutes with every stage function, with the
tick and with a step. -/

namespace Sys2Proof.Machine

/-! ## The canonical form of records and words (R73) -/

/-- Every record has the facts of its row of `Laws.CanonicalForm`. -/
theorem canonicalForm : ∀ i : Instr, Laws.CanonicalForm.Statement i
  | .add f => Laws.CanonicalForm.add f
  | .sub f => Laws.CanonicalForm.sub f
  | .mul f => Laws.CanonicalForm.mul f
  | .div f => Laws.CanonicalForm.div f
  | .and f => Laws.CanonicalForm.and f
  | .or f => Laws.CanonicalForm.or f
  | .xor f => Laws.CanonicalForm.xor f
  | .addl f => Laws.CanonicalForm.addl f
  | .subl f => Laws.CanonicalForm.subl f
  | .movc f => Laws.CanonicalForm.movc f
  | .load f => Laws.CanonicalForm.load f
  | .store f => Laws.CanonicalForm.store f
  | .ldr f => Laws.CanonicalForm.ldr f
  | .str f => Laws.CanonicalForm.str f
  | .cmp f => Laws.CanonicalForm.cmp f
  | .bz f => Laws.CanonicalForm.bz f
  | .bnz f => Laws.CanonicalForm.bnz f
  | .halt f => Laws.CanonicalForm.halt f
  | .nop f => Laws.CanonicalForm.nop f

theorem wellFormed_canonical (i : Instr) (n : Nat) : i.canonical.wellFormed n = i.wellFormed n := by
  obtain ⟨-, hwf, -⟩ := canonicalForm i
  exact hwf n

theorem decode_canonicalWord_of_ok {w : PackedWord} {i : Instr} (h : decode w = .ok i) :
    decode (canonicalWord w) = .ok i.canonical := by
  simp only [canonicalWord, h]
  exact decodeOfEncode i.canonical

theorem decode_canonicalWord_of_error {w : PackedWord} {e : DecodeError} (h : decode w = .error e) :
    decode (canonicalWord w) = .error e := by
  simp only [canonicalWord, h]

theorem iFetch_canonical (s : State) (pc : Int) :
    iFetch s.canonical pc = (iFetch s pc).map canonicalWord := by
  simp only [iFetch, State.canonical, List.getElem?_map, apply_ite (Option.map canonicalWord), Option.map_none]

/-! ## The stage functions (R93 to R100) -/

theorem loadWord_canonical (op : Opcode) (rd : RegIdx) (s : State) :
    ActionResult.finish (loadWord op rd s.canonical) memoryToWriteback =
      (ActionResult.finish (loadWord op rd s) memoryToWriteback).canonical := by
  have hread : memRead s.canonical s.canonical.latM.memAddress = memRead s s.latM.memAddress := rfl
  rw [loadWord, hread, loadWord]
  cases memRead s s.latM.memAddress <;> rfl

theorem storeWord_canonical (op : Opcode) (s : State) :
    ActionResult.finish (storeWord op s.canonical) memoryToWriteback =
      (ActionResult.finish (storeWord op s) memoryToWriteback).canonical := by
  have hwrite : memWrite s.canonical s.canonical.latM.memAddress s.canonical.latM.rs1Value =
      (memWrite s s.latM.memAddress s.latM.rs1Value).map State.canonical := by
    rw [memWrite, memWrite, apply_ite (Option.map State.canonical)]; rfl
  rw [storeWord, hwrite, storeWord]
  cases memWrite s s.latM.memAddress s.latM.rs1Value <;> rfl

theorem divide_canonical (rd : RegIdx) (s : State) :
    ActionResult.finish (divide rd s.canonical) executeToMemory =
      (ActionResult.finish (divide rd s) executeToMemory).canonical := by
  have hquotient : quotient s.canonical.latE.rs1Value s.canonical.latE.rs2Value =
      quotient s.latE.rs1Value s.latE.rs2Value := rfl
  rw [divide, hquotient, divide]
  cases quotient s.latE.rs1Value s.latE.rs2Value <;> rfl

theorem takeBranch_canonical (polarity : Bool) (imm : Word) (s : State) :
    (if branchTaken polarity s.canonical then takeBranch imm s.canonical else s.canonical) =
      (if branchTaken polarity s then takeBranch imm s else s).canonical := by
  rw [apply_ite State.canonical]; rfl

/-- No record's action in any stage reads an unused field, its own or another latch's. -/
theorem performed_canonical (i : Instr) (s : State) :
    performed i.canonical (actionsOf i.canonical) s.canonical = (performed i (actionsOf i) s).canonical := by
  cases hst : s.stage
  case wb =>
    rw [performed_wb i hst, performed_wb i.canonical (s := s.canonical) hst]
    cases i <;> rfl
  case mem =>
    rw [performed_at_mem hst, performed_at_mem (s := s.canonical) hst]
    cases i with
    | load f => exact loadWord_canonical .load f.rd s
    | ldr f => exact loadWord_canonical .ldr f.rd s
    | store f => exact storeWord_canonical .store s
    | str f => exact storeWord_canonical .str s
    | _ => rfl
  case ex =>
    rw [performed_at_ex hst, performed_at_ex (s := s.canonical) hst]
    cases i with
    | div f => exact divide_canonical f.rd s
    | bz f => exact congrArg executeToMemory (takeBranch_canonical true f.imm s)
    | bnz f => exact congrArg executeToMemory (takeBranch_canonical false f.imm s)
    | _ => rfl
  case dec =>
    rw [performed_dec i hst, performed_dec i.canonical (s := s.canonical) hst]
    cases i <;> rfl
  case fetch =>
    rw [performed_fetch i hst, performed_fetch i.canonical (s := s.canonical) hst]
    cases i <;> rfl

theorem exec_canonical (i : Instr) (s : State) :
    exec i.canonical s.canonical = mapNext State.canonical (exec i s) := by
  rw [exec_eq, exec_eq, wellFormed_canonical, performed_canonical, apply_ite (mapNext State.canonical)]
  rfl

theorem runStage_canonical (st : Stage) (s : State) :
    runStage st s.canonical = mapNext State.canonical (runStage st s) := by
  unfold runStage
  rw [apply_ite (mapNext State.canonical), ← exec_canonical]
  cases st <;> rfl

theorem fetchRecord_canonical (s : State) :
    fetchRecord s.canonical = mapNext State.canonical (fetchRecord s) := by
  have hf : iFetch s.canonical s.canonical.pc = (iFetch s s.pc).map canonicalWord := iFetch_canonical s s.pc
  unfold fetchRecord
  rw [hf]
  cases iFetch s s.pc with
  | none => rfl
  | some w =>
    cases hd : decode w with
    | ok i => simp only [Option.map_some, decode_canonicalWord_of_ok hd, hd, exec_canonical]
    | error e => simp only [Option.map_some, decode_canonicalWord_of_error hd, hd, mapNext]

theorem fetchStage_canonical (s : State) :
    fetchStage s.canonical = mapNext State.canonical (fetchStage s) := by
  simp only [fetchStage, apply_ite (mapNext State.canonical), ← fetchRecord_canonical]
  rfl

theorem endTick_canonical (s : State) : endTick s.canonical = mapNext State.canonical (endTick s) := by
  rw [endTick, endTick, apply_ite (mapNext State.canonical)]; rfl

/-! ## The tick and the step (R90, R91) -/

/-- A change of the state that commutes with a stage function, and keeps whether the engine runs, commutes with running
that function next. -/
theorem thenStage_mapNext {g : State → State} {k : State → StepOutcome State}
    (hg : ∀ s, (g s).engineState = s.engineState) (hk : ∀ s, k (g s) = mapNext g (k s)) (o : StepOutcome State) :
    thenStage (mapNext g o) k = mapNext g (thenStage o k) := by
  cases o with
  | next s =>
    cases hr : s.engineState with
    | running => exact (thenStage_running ((hg s).trans hr)).trans (by rw [hk, thenStage_running hr])
    | halted => exact (thenStage_halted ((hg s).trans hr)).trans (by rw [thenStage_halted hr]; rfl)
  | fault r => rfl
  | refused r => rfl

theorem thenStage_canonical {k : State → StepOutcome State}
    (hk : ∀ s : State, k s.canonical = mapNext State.canonical (k s)) (o : StepOutcome State) :
    thenStage (mapNext State.canonical o) k = mapNext State.canonical (thenStage o k) :=
  thenStage_mapNext (g := State.canonical) (fun _ => rfl) hk o

theorem beforeFetch_canonical (s : State) : beforeFetch s.canonical = mapNext State.canonical (beforeFetch s) := by
  have hwb : runStage .wb { s.canonical with haltRetired := false } =
      mapNext State.canonical (runStage .wb { s with haltRetired := false }) :=
    runStage_canonical .wb { s with haltRetired := false }
  rw [beforeFetch, hwb, thenStage_canonical (runStage_canonical .mem), thenStage_canonical (runStage_canonical .ex),
    thenStage_canonical (runStage_canonical .dec), ← beforeFetch]

theorem atBoundary_canonical (o : StepOutcome State) :
    atBoundary (mapNext State.canonical o) = mapNext State.canonical (atBoundary o) := by
  cases o <;> rfl

theorem tick_canonical (s : State) : tick s.canonical = mapNext State.canonical (tick s) := by
  rw [tick, beforeFetch_canonical, thenStage_canonical fetchStage_canonical, thenStage_canonical endTick_canonical,
    atBoundary_canonical, ← tick]

theorem iteration_canonical (s : State) : iteration s.canonical = mapNext State.canonical (iteration s) := by
  simp only [iteration, apply_ite (mapNext State.canonical), ← tick_canonical]
  rfl

/-- A running engine in SINGLE_STEP without `step` waits (R42). -/
theorem step_of_waits {s : State} (hr : s.pins.reset = false) (he : s.engineState = .running)
    (hi : s.pins.iterates = false) : step s = .next s := by
  simp [step, cycle, hr, he, hi]

/-- Settles O5: no stage function reads an unused field, and FETCH decodes a word and its canonical form to records that
differ in unused fields alone. -/
theorem unusedFieldsNeverMatter : Obligations.UnusedFieldsNeverMatter := by
  intro s hreset
  cases he : s.engineState with
  | halted => rw [step_of_halted hreset he, step_of_halted (s := s.canonical) hreset he]; rfl
  | running =>
    cases hi : s.pins.iterates with
    | true => rw [step_of_iterates hreset he hi, step_of_iterates (s := s.canonical) hreset he hi, iteration_canonical]
    | false => rw [step_of_waits hreset he hi, step_of_waits (s := s.canonical) hreset he hi]; rfl

end Sys2Proof.Machine
end

section
/-! PROOF. Ill-formed records (spec/30_encoding.md R77; log 8): none is executed, and none is met from a sound state, so
that a step from there answers. -/

namespace Sys2Proof.Machine

/-- Settles O6: every arm of `exec` checks its record before it acts. -/
theorem illFormedIsNeverExecuted : Obligations.IllFormedIsNeverExecuted := by
  intro i s h
  rw [exec_eq, h]
  rfl

/-- A word of a checked store decodes to a well-formed record (R77). -/
theorem wellFormed_word_iff {n : Nat} {w : PackedWord} :
    PackedWord.wellFormed n w = true ↔ ∃ i, decode w = .ok i ∧ i.wellFormed n = true := by
  unfold PackedWord.wellFormed
  cases decode w <;> simp

/-- FETCH answers over a store of well-formed records. -/
theorem fetchStage_answers {s : State} (h : ∀ w ∈ s.istore, PackedWord.wellFormed s.nregs w = true) :
    ∃ t, fetchStage s = .next t := by
  have hrecord : ∃ t, fetchRecord (enterStage .fetch s) = .next t := by
    unfold fetchRecord
    cases hw : iFetch (enterStage .fetch s) (enterStage .fetch s).pc with
    | none => exact ⟨_, rfl⟩
    | some w =>
      obtain ⟨i, hd, hi⟩ := wellFormed_word_iff.mp (h w (iFetch_mem hw))
      simp only [hd, exec_eq]
      exact ⟨_, if_pos hi⟩
  unfold fetchStage
  dsimp only
  split
  · exact ⟨_, rfl⟩
  · split
    · exact ⟨_, rfl⟩
    · exact hrecord

theorem endTick_answers (s : State) : ∃ t, endTick s = .next t := by
  unfold endTick
  split <;> exact ⟨_, rfl⟩

/-- The end of a tick answers when FETCH has. -/
theorem thenEndTick_answers {o : StepOutcome State} (h : ∃ s, o = .next s) :
    ∃ t, atBoundary (thenStage o endTick) = .next t := by
  obtain ⟨s, rfl⟩ := h
  cases hr : s.engineState with
  | running =>
    obtain ⟨t, ht⟩ := endTick_answers s
    rw [thenStage_running hr, ht]
    exact ⟨_, rfl⟩
  | halted =>
    rw [thenStage_halted hr]
    exact ⟨_, rfl⟩

/-- A tick of a running engine answers when the store and the records in flight are checked. -/
theorem tick_answers {s : State} (hr : s.engineState = .running) (hstore : s.StoreChecked) (hl : s.LatchesChecked) :
    ∃ t, tick s = .next t := by
  obtain ⟨hD, hE, hM, hW⟩ := (latchesChecked_iff s).mp hl
  obtain ⟨-, hwords⟩ := hstore hr
  have hfetch : ∃ u, fetchStage (tickDec s) = .next u :=
    fetchStage_answers (s := tickDec s) (by rw [nregs_tickDec]; exact hwords)
  rw [tick_eq hr hW hM hE fun _ => hD]
  split
  · exact ⟨_, rfl⟩
  · split
    · exact ⟨_, rfl⟩
    · exact thenEndTick_answers hfetch

/-- Settles O52: a reset of legal parameters answers, so does every step between ticks, and a sound tick meets no
ill-formed record. -/
theorem soundStatesNeverStop : Obligations.SoundStatesNeverStop := by
  intro s hsound hlegal
  obtain ⟨-, -, hstore, hl, -⟩ := hsound
  obtain ⟨hr, e⟩ | ⟨-, -, e⟩ | ⟨-, -, -, -, e⟩ | ⟨-, -, -, -, -, e⟩ | ⟨hs, e⟩ := step_cases s
  · exact ⟨_, e.trans (applyReset_of_legal (hlegal hr))⟩
  · exact ⟨_, e⟩
  · exact ⟨_, e⟩
  · exact ⟨_, e⟩
  · obtain ⟨-, hrun, -⟩ := hs
    rw [e]
    exact tick_answers hrun hstore hl

end Sys2Proof.Machine
end

section
/-! PROOF. What every step keeps, continued: a pending register has a writer in flight (spec/40_pipeline_stages.md R99),
nothing younger than a HALT is in flight (R102, R104, R108), and the latency bound (R105); and what is left of the
pipeline when a HALT retires (R108). -/

namespace Sys2Proof.Machine

/-! ## Every record moves one latch -/

theorem writes_tickDec_latE (s : State) (r : RegIdx) :
    (tickDec s).latE.writes r = (!takesBranch s && s.latD.writes r) := by
  obtain ⟨hv, hrec⟩ := tickDec_latE_valid s
  cases hb : takesBranch s
  · exact Latch.writes_congr (by rw [hv, hb]; rfl) (fun h => (hrec h).1) r
  · simp [Latch.writes, hv, hb]

theorem writes_tickDec_latM (s : State) (r : RegIdx) : (tickDec s).latM.writes r = s.latE.writes r := by
  obtain ⟨hv, hrec⟩ := tickDec_latM_valid s
  exact Latch.writes_congr hv (fun h => (hrec h).1) r

theorem writes_tickDec_latW (s : State) (r : RegIdx) : (tickDec s).latW.writes r = s.latM.writes r := by
  obtain ⟨hv, hrec⟩ := tickDec_latW_valid s
  exact Latch.writes_congr hv (fun h => (hrec h).1) r

theorem halts_tickDec_latE (s : State) : (tickDec s).latE.halts = (!takesBranch s && s.latD.halts) := by
  obtain ⟨hv, hrec⟩ := tickDec_latE_valid s
  cases hb : takesBranch s
  · exact Latch.halts_congr (by rw [hv, hb]; rfl) (fun h => (hrec h).1)
  · simp [Latch.halts, hv, hb]

theorem halts_tickDec_latM (s : State) : (tickDec s).latM.halts = s.latE.halts := by
  obtain ⟨hv, hrec⟩ := tickDec_latM_valid s
  exact Latch.halts_congr hv (fun h => (hrec h).1)

theorem halts_tickDec_latW (s : State) : (tickDec s).latW.halts = s.latM.halts := by
  obtain ⟨hv, hrec⟩ := tickDec_latW_valid s
  exact Latch.halts_congr hv (fun h => (hrec h).1)

theorem Latch.halts_iff (l : Latch) : l.halts = true ↔ l.valid = true ∧ l.instr.opcode = .halt := by
  simp [Latch.halts]

theorem Latch.halts_of_invalid {l : Latch} (h : l.valid = false) : l.halts = false := by
  simp [Latch.halts, h]

theorem Latch.writes_of_invalid {l : Latch} (h : l.valid = false) (r : RegIdx) : l.writes r = false := by
  simp [Latch.writes, h]

/-- Only BZ and BNZ branch (R161, R162). -/
theorem takesBranch_isBranch {s : State} (h : takesBranch s = true) :
    s.latE.valid = true ∧ (s.latE.instr.opcode = .bz ∨ s.latE.instr.opcode = .bnz) := by
  rw [takesBranch_eq, Bool.and_eq_true, branches] at h
  obtain ⟨hv, hb⟩ := h
  refine ⟨hv, ?_⟩
  split at hb
  · exact .inl ‹_›
  · exact .inr ‹_›
  · cases hb

theorem takesBranch_of_invalid {s : State} (h : s.latE.valid = false) : takesBranch s = false := by
  rw [takesBranch_eq, h]
  rfl

theorem takesBranch_of_halts {s : State} (h : s.latE.halts = true) : takesBranch s = false := by
  obtain ⟨-, hop⟩ := (Latch.halts_iff _).mp h
  rw [takesBranch_eq, branches, hop]
  exact Bool.and_false _

/-! ## A pending register has a writer in flight (R99) -/

/-- The property speaks of the Register File, `E`, `M` and `W`. -/
theorem State.PendingHasWriter.congr {s t : State} (h : s.PendingHasWriter) (hrf : t.rf = s.rf) (hE : t.latE = s.latE)
    (hM : t.latM = s.latM) (hW : t.latW = s.latW) : t.PendingHasWriter := by
  intro r hr
  rw [hE, hM, hW]
  exact h r (by rwa [← avail_congr hrf])

/-- WB completes its own writer and no other: a register that is still pending has one in `E` or `M`. -/
theorem writes_of_pending_after_wb {s : State} (h : s.PendingHasWriter)
    (hW : s.latW.valid = true → s.latW.instr.wellFormed s.nregs = true) {r : RegIdx} (hr : (tickEx s).avail r = false) :
    s.latE.writes r = true ∨ s.latM.writes r = true := by
  rw [avail_tickEx hW, Bool.or_eq_false_iff] at hr
  obtain ⟨hpending, hno⟩ := hr
  obtain hw | hw | hw := h r hpending
  · exact .inl hw
  · exact .inr hw
  · rw [hno] at hw; cases hw

/-- DEC moves the writer of the register it marks into `E`; the older writers move on to `M` and `W`. -/
theorem tickDec_pendingHasWriter {s : State} (h : s.PendingHasWriter)
    (hW : s.latW.valid = true → s.latW.instr.wellFormed s.nregs = true)
    (hD : takesBranch s = false → s.latD.valid = true → s.latD.instr.wellFormed s.nregs = true) :
    (tickDec s).PendingHasWriter := by
  intro r hr
  rw [writes_tickDec_latE, writes_tickDec_latM, writes_tickDec_latW]
  rw [avail_tickDec hD] at hr
  split at hr
  case isTrue hd =>
    obtain ⟨hb, hw⟩ := hd
    exact .inl (by rw [hb, hw]; rfl)
  case isFalse => exact .inr (writes_of_pending_after_wb h hW hr)

theorem tick_keeps_pendingHasWriter {s t : State} (hs : s.Ticks) (h : s.PendingHasWriter) (ht : step s = .next t) :
    t.PendingHasWriter := by
  have hW := tick_latW_wellFormed hs ht
  obtain ⟨-, rfl⟩ | ⟨-, -, rfl⟩ | ⟨hm, hx, hD, -⟩ := tick_stops_or_decodes hs ht
  · intro r hr
    obtain hw | hw := writes_of_pending_after_wb h hW hr
    · exact .inl hw
    · exact .inr (.inl hw)
  · intro r hr
    obtain hw | hw := writes_of_pending_after_wb h hW hr
    · exact .inl hw
    · exact .inr (.inr ((writes_tickDec_latW s r).trans hw))
  · obtain ⟨-, -, hrf, -, -, hE, hM, hW', -⟩ := tick_decodes hs ht hm hx
    exact (tickDec_pendingHasWriter h hW hD).congr hrf hE hM hW'

/-- Settles O53: DEC marks a register pending as it moves its writer into `E`, and the writer makes it available when it
leaves `W`. -/
theorem stepKeepsPendingHasWriter : Obligations.StepKeepsPendingHasWriter := by
  refine step_keeps_of (P := fun s => s.PendingHasWriter) (fun s t h r hr => ?_) (fun _ _ _ h => h)
    fun _ _ => tick_keeps_pendingHasWriter
  obtain ⟨available, -⟩ := applyReset_fields h
  rw [available r] at hr
  cases hr

/-! ## Nothing younger than a HALT is in flight (R102, R104, R108) -/

/-- DEC leaves `D` empty, and a HALT in flight is no branch and has none behind it, so fetch stays stopped. -/
theorem tickDec_haltIsYoungest {s : State} (h : s.HaltIsYoungest) : (tickDec s).HaltIsYoungest := by
  obtain ⟨hD, hE, hM, -⟩ := h
  obtain ⟨vE, -⟩ := tickDec_latE_valid s
  obtain ⟨vM, -⟩ := tickDec_latM_valid s
  rw [State.HaltIsYoungest, halts_tickDec_latE, halts_tickDec_latM, halts_tickDec_latW, vE, vM, tickDec_haltFetched,
    tickDec_latD_valid]
  refine ⟨nofun, fun hd => ?_, fun he => ?_, fun hm => ?_⟩
  · rw [Bool.and_eq_true, Bool.not_eq_true'] at hd
    obtain ⟨hb, hd⟩ := hd
    exact ⟨by rw [hb, hD hd]; rfl, rfl⟩
  · obtain ⟨hf, dv⟩ := hE he
    exact ⟨by rw [takesBranch_of_halts he, hf]; rfl, rfl, by rw [dv, Bool.and_false]⟩
  · obtain ⟨hf, dv, ev⟩ := hM hm
    exact ⟨by rw [takesBranch_of_invalid ev, hf]; rfl, rfl, by rw [dv, Bool.and_false], ev⟩

/-- The property speaks of `halt_fetched` and the four latches after `F`. -/
theorem State.HaltIsYoungest.congr {s t : State} (h : s.HaltIsYoungest) (hf : t.haltFetched = s.haltFetched)
    (hDh : t.latD.halts = s.latD.halts) (hDv : t.latD.valid = s.latD.valid) (hE : t.latE = s.latE)
    (hM : t.latM = s.latM) (hW : t.latW = s.latW) : t.HaltIsYoungest := by
  rw [State.HaltIsYoungest, hf, hDh, hDv, hE, hM, hW]
  exact h

/-- While fetch is not stopped only `D` can hold a HALT. -/
theorem State.HaltIsYoungest.no_halt_past_decode {s : State} (h : s.HaltIsYoungest) (hf : s.haltFetched = false) :
    s.latE.halts = false ∧ s.latM.halts = false ∧ s.latW.halts = false := by
  obtain ⟨-, hE, hM, hW⟩ := h
  rw [hf] at hE hM hW
  exact ⟨Bool.eq_false_iff.mpr fun hh => (nomatch (hE hh).1), Bool.eq_false_iff.mpr fun hh => (nomatch (hM hh).1),
    Bool.eq_false_iff.mpr fun hh => (nomatch (hW hh).1)⟩

/-- FETCH either leaves `D` empty, or fills it while no HALT is in flight, and stops itself when it fetches one. -/
theorem TickEnd.haltIsYoungest {s u : State} (hu : TickEnd s u) (h : s.HaltIsYoungest) : u.HaltIsYoungest := by
  have hd := tickDec_haltIsYoungest h
  obtain ⟨-, -, -, -, -, hE, hM, hW, -, -, -, -, -,
    ⟨hv, -, -, hf, -⟩ | ⟨w, i, hD, -, -, hf, -, -, hf', -, -⟩⟩ := hu
  · exact hd.congr (hf.trans (tickDec_haltFetched s).symm)
      ((Latch.halts_of_invalid hv).trans (Latch.halts_of_invalid (tickDec_latD_valid s)).symm) hv hE hM hW
  · have hdf : (tickDec s).haltFetched = false := by rw [tickDec_haltFetched, hf, Bool.and_false]
    obtain ⟨noE, noM, noW⟩ := hd.no_halt_past_decode hdf
    rw [State.HaltIsYoungest, hE, hM, hW, noE, noM, noW, hf', hD]
    exact ⟨id, nofun, nofun, nofun⟩

/-- An ArithmeticError leaves `W` as MEM left it and the younger latches as they were. -/
theorem afterMem_haltIsYoungest {s : State} (h : s.HaltIsYoungest) : (afterMem (tickWb s)).HaltIsYoungest := by
  obtain ⟨hD, hE, hM, -⟩ := h
  refine ⟨hD, hE, nofun, fun hw => ?_⟩
  obtain ⟨hf, dv, ev⟩ := hM ((halts_tickDec_latW s).symm.trans hw)
  exact ⟨hf, dv, ev, rfl⟩

theorem tick_keeps_haltIsYoungest {s t : State} (hs : s.Ticks) (h : s.HaltIsYoungest) (ht : step s = .next t) :
    t.HaltIsYoungest := by
  obtain ⟨-, -, ⟨-, rfl⟩ | ⟨-, -, ⟨-, rfl⟩ | ⟨-, -, ⟨u, rfl, hu⟩ | ⟨rfl, -⟩⟩⟩⟩ := tick_result hs ht
  · obtain ⟨hD, hE, hM, -⟩ := h
    exact ⟨hD, hE, hM, nofun⟩
  · exact afterMem_haltIsYoungest (s := s) h
  · obtain ⟨-, -, -, -, -, kD, kE, kM, kW, -, -, kf⟩ := finishTick_fields u
    exact (hu.haltIsYoungest h).congr kf (congrArg Latch.halts kD) (congrArg Latch.valid kD) kE kM kW
  · exact tickDec_haltIsYoungest h

/-- Settles O54: the fetch of a HALT stops FETCH, and nothing behind a HALT can branch and start it again. -/
theorem stepKeepsHaltYoungest : Obligations.StepKeepsHaltYoungest := by
  refine step_keeps_of (P := fun s => s.HaltIsYoungest) (fun s t h => ?_) (fun _ _ _ h => h)
    fun _ _ => tick_keeps_haltIsYoungest
  obtain ⟨-, -, hD, hE, hM, hW, -⟩ := applyReset_fields h
  rw [State.HaltIsYoungest, hD, hE, hM, hW]
  exact ⟨nofun, nofun, nofun, nofun⟩

/-! ## The latency bound (R105) -/

/-- WB counts an instruction in `W`, which is there in the fifth tick at the earliest. -/
theorem completed_after_wb_le {s : State} (h : s.LatencyBound) (hr : s.engineState = .running) :
    s.completed + (if s.latW.valid = true then 1 else 0) ≤ s.clock - 3 := by
  obtain ⟨hc, -, -, -, hW⟩ := h.2 hr
  split
  case isTrue hv =>
    have := hW hv
    omega
  case isFalse => omega

/-- A tick that stops the engine leaves the clock alone. -/
theorem latencyBound_of_halted {s : State} (he : s.engineState = .halted) (hc : s.completed ≤ s.clock - 3) :
    s.LatencyBound := by
  rw [State.LatencyBound, he]
  exact ⟨hc, nofun⟩

/-- The end of a tick: the clock advances with the instructions, or the engine stops. -/
theorem TickEnd.latencyBound {s u : State} (hu : TickEnd s u) (h : s.LatencyBound) (hr : s.engineState = .running) :
    (finishTick u).LatencyBound := by
  have hwb := completed_after_wb_le h hr
  obtain ⟨-, hD, hE, hM, -⟩ := h.2 hr
  obtain ⟨vE, -⟩ := tickDec_latE_valid s
  obtain ⟨vM, -⟩ := tickDec_latM_valid s
  obtain ⟨vW, -⟩ := tickDec_latW_valid s
  obtain ⟨-, kE, kM, kW⟩ := finishTick_latches hu
  obtain ⟨hrun, -, -, -, -, -, -, -, -, hclock, hcompleted, -⟩ := hu
  obtain ⟨-, -, -, -, -, -, -, -, -, kc, -⟩ := finishTick_fields u
  have hcompleted' : (finishTick u).completed = s.completed + (if s.latW.valid = true then 1 else 0) :=
    kc.trans (hcompleted.trans (tickDec_completed s))
  cases hh : u.haltRetired
  · have hclock' : (finishTick u).clock = s.clock + 1 := by rw [finishTick_clock, hh, hclock]; rfl
    rw [State.LatencyBound, hcompleted', hclock', kE, kM, kW, vE, vM, vW]
    refine ⟨by omega, fun _ => ⟨by omega, fun _ => by omega, fun hv => ?_, fun hv => ?_, fun hv => ?_⟩⟩
    · rw [Bool.and_eq_true] at hv
      exact Nat.succ_le_succ (hD hv.2)
    · exact Nat.succ_le_succ (hE hv)
    · exact Nat.succ_le_succ (hM hv)
  · refine latencyBound_of_halted (by rw [finishTick_engineState hrun, hh]; rfl) ?_
    rw [hcompleted', finishTick_clock, hh, hclock]
    exact hwb

theorem tick_keeps_latencyBound {s t : State} (hs : s.Ticks) (h : s.LatencyBound) (ht : step s = .next t) :
    t.LatencyBound := by
  have hrun : s.engineState = .running := hs.2.1
  have hwb := completed_after_wb_le h hrun
  obtain ⟨-, -, ⟨-, rfl⟩ | ⟨-, -, ⟨-, rfl⟩ | ⟨-, -, ⟨u, rfl, hu⟩ | ⟨rfl, -⟩⟩⟩⟩ := tick_result hs ht
  · exact latencyBound_of_halted rfl hwb
  · exact latencyBound_of_halted rfl hwb
  · exact hu.latencyBound h hrun
  · exact latencyBound_of_halted rfl hwb

/-- Settles O57: an instruction is one latch further when the clock is one further, and a tick that stops the engine may
count one instruction more. -/
theorem stepKeepsLatencyBound : Obligations.StepKeepsLatencyBound := by
  refine step_keeps_of (P := fun s => s.LatencyBound) (fun s t h => ?_)
    (fun s _ _ h => latencyBound_of_halted (s := stopWith _ .none s) rfl h.1) fun _ _ => tick_keeps_latencyBound
  obtain ⟨-, -, hD, hE, hM, hW, hcompleted, -⟩ := applyReset_fields h
  rw [State.LatencyBound, hcompleted, hD, hE, hM, hW]
  exact ⟨Nat.zero_le _, fun _ => ⟨Nat.zero_le _, nofun, nofun, nofun, nofun⟩⟩

/-! ## The tick that retires HALT (R108) -/

/-- Only a HALT that WB retires gives a running engine the reason HALT. -/
theorem tick_of_termReason_halt {s t : State} (hc : s.EngineConsistent) (hr : s.engineState = .running)
    (hreset : s.pins.reset = false) (h : step s = .next t) (ht : t.termReason = .halt) :
    ∃ u, t = finishTick u ∧ TickEnd s u ∧ s.latW.halts = true := by
  have hnone : s.termReason = .none := hc.1.mp hr
  obtain ⟨h1, -⟩ | ⟨-, -, e⟩ | ⟨-, -, -, -, e⟩ | ⟨-, -, -, -, -, e⟩ | ⟨hs, -⟩ := step_cases s
  · rw [hreset] at h1; cases h1
  · cases e.symm.trans h
    rw [hnone] at ht; cases ht
  · cases e.symm.trans h; cases ht
  · cases e.symm.trans h; cases ht
  obtain ⟨-, -, ⟨-, rfl⟩ | ⟨-, -, ⟨-, rfl⟩ | ⟨-, -, ⟨u, rfl, hu⟩ | ⟨rfl, -⟩⟩⟩⟩ := tick_result hs h
  · cases ht
  · cases ht
  · refine ⟨u, rfl, hu, ?_⟩
    obtain ⟨-, hreason, -, -, -, -, -, -, hhalt, -⟩ := hu
    rw [finishTick_termReason, hreason, hnone, hhalt] at ht
    by_contra hno
    rw [if_neg hno] at ht
    cases ht
  · cases ht

/-- With a HALT in `W` a tick moves nothing and fetches nothing. -/
theorem TickEnd.drained {s u : State} (hu : TickEnd s u) (h : s.HaltIsYoungest) (hw : s.latW.halts = true) :
    u.latF = s.latF ∧ u.latD.valid = false ∧ u.latE.valid = false ∧ u.latM.valid = false ∧ u.latW.valid = false := by
  obtain ⟨-, -, -, hW⟩ := h
  obtain ⟨hf, dv, ev, mv⟩ := hW hw
  obtain ⟨vE, -⟩ := tickDec_latE_valid s
  obtain ⟨vM, -⟩ := tickDec_latM_valid s
  obtain ⟨vW, -⟩ := tickDec_latW_valid s
  obtain ⟨-, -, -, -, -, hE, hM, hW, -, -, -, -, -, ⟨hv, -, hF, -⟩ | ⟨w, i, -, -, -, hf', -⟩⟩ := hu
  · rw [hE, hM, hW, vE, vM, vW, dv, Bool.and_false]
    exact ⟨hF, hv, rfl, ev, mv⟩
  · rw [hf] at hf'; cases hf'

/-- Settles O58: the retired HALT was the youngest instruction in flight, so no latch is valid after the tick and no
register can still wait for a writer. -/
theorem haltLeavesPipelineDrained : Obligations.HaltLeavesPipelineDrained := by
  intro s t hsound hyoung hpending hr hreset h ht
  have hpending' : t.PendingHasWriter := stepKeepsPendingHasWriter s t hpending h
  obtain ⟨⟨-, hF, -⟩, hc, -⟩ := hsound
  obtain ⟨u, rfl, hu, hw⟩ := tick_of_termReason_halt hc hr hreset h ht
  obtain ⟨uF, uD, uE, uM, uW⟩ := hu.drained hyoung hw
  obtain ⟨-, -, -, -, kF, kD, kE, kM, kW, -⟩ := finishTick_fields u
  rw [← kD] at uD
  rw [← kE] at uE
  rw [← kM] at uM
  rw [← kW] at uW
  refine ⟨by rw [kF, uF, hF], uD, uE, uM, uW, fun r => Bool.of_not_eq_false fun hr => ?_⟩
  obtain hw | hw | hw := hpending' r hr
  · rw [Latch.writes_of_invalid uE] at hw; cases hw
  · rw [Latch.writes_of_invalid uM] at hw; cases hw
  · rw [Latch.writes_of_invalid uW] at hw; cases hw

end Sys2Proof.Machine
end

section
/-! PROOF. The stage functions, the resolver and the run loop, one at a time (spec/40_pipeline_stages.md R90, R91, R97,
R98, R100, R102). -/

namespace Sys2Proof.Machine

/-! ## Fetch (R100, R102) -/

/-- Settles O7: the common part of FETCH, and for HALT the fetch stop. -/
theorem fetchOfEveryInstruction : Obligations.FetchOfEveryInstruction := by
  intro i s hwf hst
  have hstop : (if i.opcode = .halt then true else s.haltFetched) = (s.haltFetched || decide (i.opcode = .halt)) := by
    by_cases h : i.opcode = .halt <;> simp [h]
  rw [exec_eq, if_pos hwf, performed_fetch i hst, hstop]
  rfl

/-! ## The resolver (R97, R98) -/

/-- The latch whose descriptor the class consults first (R98). -/
def consultedFirst (cls : OperandClass) (s : State) : Latch :=
  match cls with
  | .arith => s.latW
  | .memclass => s.latM

/-- Two descriptors consulted in order: the first that matches wins. -/
theorem Latch.forwards_or_getD (first second : Latch) (r : RegIdx) (v : Word) :
    ((first.forwards r).or (second.forwards r)).getD v =
      if first.resTag = some r then first.resValue else if second.resTag = some r then second.resValue else v := by
  unfold Latch.forwards
  by_cases h1 : first.resTag = some r
  · simp [h1]
  · by_cases h2 : second.resTag = some r <;> simp [h1, h2]

/-- The resolver: availability, the first descriptor of the class, the descriptor of `E`, the stale word. -/
theorem resolve_eq (cls : OperandClass) (r : RegIdx) (s : State) :
    resolve cls r s =
      if s.avail r = true then s.x r
      else if (consultedFirst cls s).resTag = some r then (consultedFirst cls s).resValue
      else if s.latE.resTag = some r then s.latE.resValue
      else s.x r := by
  cases cls with
  | arith => exact congrArg (ite (s.avail r = true) (s.x r)) (Latch.forwards_or_getD s.latW s.latE r (s.x r))
  | memclass => exact congrArg (ite (s.avail r = true) (s.x r)) (Latch.forwards_or_getD s.latM s.latE r (s.x r))

/-- Settles O22: per class, one of the two descriptors the statement names is the first consulted. -/
theorem resolverPolicy : Obligations.ResolverPolicy := by
  intro cls r s
  rw [resolve_eq]
  refine if_congr Iff.rfl rfl ?_
  cases cls with
  | arith => exact if_congr (by simp [consultedFirst]) rfl (if_neg (by simp)).symm
  | memclass => exact ((if_neg (by simp)).trans (if_congr (by simp [consultedFirst]) rfl rfl)).symm

/-! ## The run loop (R90) -/

/-- Settles O36: an iteration tests abort first, then the budget, and each stops the engine and nothing else. -/
theorem abortThenBudget : Obligations.AbortThenBudget := by
  intro s hreset hrun hiter
  rw [step_of_iterates hreset hrun hiter, iteration]
  refine ⟨fun ha => ?_, fun ha hc => ?_⟩
  · rw [if_pos ha]
    rfl
  · rw [if_neg (by rw [ha]; decide), if_pos hc]
    rfl

/-! ## A step that fetches (R91) -/

/-- A stage function that has run is the stage function of the tick, and the engine runs on. -/
theorem StageRuns.runStage_eq {st : Stage} {s t : State} (h : StageRuns st s t) (hr : s.engineState = .running) :
    runStage st s = .next t ∧ t.engineState = .running := by
  unfold StageRuns at h
  cases hv : (s.latchOf st).valid
  · rw [hv, if_neg (by decide)] at h
    rw [runStage_of_invalid hv, h]
    exact ⟨rfl, hr⟩
  · rw [hv, if_pos rfl] at h
    rw [runStage, hv, if_pos rfl]
    exact h

/-- The four stage functions before FETCH, run one after another. -/
theorem beforeFetch_of_stageRuns {s s1 s2 s3 s4 : State} (hr : s.engineState = .running)
    (h1 : StageRuns .wb { s with haltRetired := false } s1) (h2 : StageRuns .mem s1 s2) (h3 : StageRuns .ex s2 s3)
    (h4 : StageRuns .dec s3 s4) : beforeFetch s = .next s4 ∧ s4.engineState = .running := by
  obtain ⟨e1, hr1⟩ := h1.runStage_eq hr
  obtain ⟨e2, hr2⟩ := h2.runStage_eq hr1
  obtain ⟨e3, hr3⟩ := h3.runStage_eq hr2
  obtain ⟨e4, hr4⟩ := h4.runStage_eq hr3
  rw [beforeFetch, e1, thenStage_running hr1, e2, thenStage_running hr2, e3, thenStage_running hr3]
  exact ⟨e4, hr4⟩

/-- FETCH of a record, neither suppressed nor stopped. -/
theorem fetchStage_of_record {s : State} {w : PackedWord} {i : Instr} (hrp : s.redirectPending = false)
    (hhf : s.haltFetched = false) (hw : iFetch s s.pc = some w) (hd : decode w = .ok i) :
    fetchStage s = exec i (enterStage .fetch s) := by
  have hw' : iFetch (enterStage .fetch s) (enterStage .fetch s).pc = some w := hw
  simp only [fetchStage, enterStage_redirectPending, enterStage_haltFetched, hrp, hhf, Bool.false_eq_true, if_false,
    fetchRecord, hw', hd]

/-- Settles O25: the stage functions of the tick are the given ones, and FETCH of a record neither stops the engine nor
leaves its stage. -/
theorem stepRunsTheDecodedInstruction : Obligations.StepRunsTheDecodedInstruction := by
  intro s s1 s2 s3 s4 w i hs h1 h2 h3 h4 hrp hhf hw hd hwf
  obtain ⟨hbefore, hr4⟩ := beforeFetch_of_stageRuns hs.2.1 h1 h2 h3 h4
  have hexec : exec i (enterStage .fetch s4) = .next (afterFetch i s4) := by
    rw [exec_eq, ← fetched_eq]
    exact if_pos hwf
  have hr : (afterFetch i s4).engineState = .running := hr4
  refine ⟨afterFetch i s4, hexec, ?_⟩
  rw [step_of_ticks hs, tick, hbefore, thenStage_running hr4, fetchStage_of_record hrp hhf hw hd, hexec,
    finish_running hr, finishTick]
  split <;> rfl

end Sys2Proof.Machine
end

section
/-! PROOF. What one tick does to the pipeline: validity (spec/40_pipeline_stages.md R106), operand resolution (R96 to
R98, R107), a taken branch (R101, R103, R104) and a retiring HALT (R108). -/

namespace Sys2Proof.Machine

/-! ## Validity (R106) -/

/-- Settles O27: MEM, EX and DEC copy their latch on unless a branch empties `D`, and FETCH fills `D` when it is neither
suppressed nor stopped. -/
theorem validityAdvancesOneLatch : Obligations.ValidityAdvancesOneLatch := by
  intro s t hs h he
  obtain ⟨vE, -⟩ := tickDec_latE_valid s
  obtain ⟨vM, -⟩ := tickDec_latM_valid s
  obtain ⟨vW, -⟩ := tickDec_latW_valid s
  obtain ⟨-, -, ⟨-, rfl⟩ | ⟨-, -, ⟨-, rfl⟩ | ⟨-, -, ⟨u, rfl, hu⟩ | ⟨rfl, -⟩⟩⟩⟩ := tick_result hs h
  · cases he
  · cases he
  · obtain ⟨kD, kE, kM, kW⟩ := finishTick_latches hu
    obtain ⟨-, -, -, -, kF, -⟩ := finishTick_fields u
    rw [kD, kE, kM, kW, kF, vE, vM, vW, Bool.and_comm]
    refine ⟨rfl, rfl, rfl, ?_⟩
    obtain ⟨-, -, -, -, -, -, -, -, -, -, -, -, -,
      ⟨hD, -, hF, -, hno⟩ | ⟨w, i, hD, hrp, hb, hhf, -, -, -, -, hF⟩⟩ := hu
    · refine ⟨?_, fun hf => hF ▸ hf⟩
      obtain hno | hno | hno := hno <;> simp [hD, hno]
    · exact ⟨by rw [hD, hrp, hb, hhf]; rfl, fun _ => by rw [hF]; rfl⟩
  · cases he

/-! ## Operand resolution (R96 to R98, R107) -/

theorem classOr_of_classOf {o : Opcode} {cls : OperandClass} (h : classOf o = some cls) : classOr o = cls := by
  rw [classOr, h]
  rfl

/-- The descriptor of `E` as DEC sees it: EX has just copied it to `M`, or `E` was empty. -/
theorem tickEx_latE_descriptor (s : State) :
    (tickEx s).latE.resTag = (if s.latE.valid = true then (tickDec s).latM.resTag else s.latE.resTag) ∧
    (tickEx s).latE.resValue = (if s.latE.valid = true then (tickDec s).latM.resValue else s.latE.resValue) := by
  rw [tickEx_latE, tickDec_latM]
  cases s.latE.valid <;> exact ⟨rfl, rfl⟩

/-- Settles O28: DEC resolves in the state WB, MEM and EX have left, whose registers and descriptors the tick keeps. -/
theorem decodeResolvesOperands : Obligations.DecodeResolvesOperands := by
  intro s t cls hs h hm hx hv hb hcls available eTag eValue first operand i
  obtain ⟨hwW, -, hrf, -, -, hE, hM, hW, -⟩ := tick_decodes hs h hm hx
  obtain ⟨htag, hvalue⟩ := tickEx_latE_descriptor s
  have hfirst : consultedFirst cls (tickEx s) = first := by
    cases cls
    · exact hW.symm
    · exact hM.symm
  have hoperand : ∀ r, resolve (classOr i.opcode) r (tickEx s) = operand r := by
    intro r
    have hword : (tickEx s).x r = t.x r := by rw [x_congr hrf, x_tickDec]
    rw [classOr_of_classOf hcls, resolve_eq, avail_tickEx hwW, hfirst, hword, htag, hvalue, ← hM]
  rw [hE, tickDec_latE, if_pos ⟨hb, hv⟩, resolvedLatch, tickEx_latD, hb, if_neg (by decide)]
  refine ⟨hv, rfl, rfl, fun h1 => ?_, fun h2 => ?_, fun h3 => ?_⟩
  · exact (if_pos h1).trans (hoperand _)
  · exact (if_pos h2).trans (hoperand _)
  · exact (if_pos h3).trans (hoperand _)

/-! ## Ticks without a fetch (R101, R102) -/

/-- FETCH suppressed by a redirect or stopped by a HALT clears the redirect and does nothing else. -/
theorem fetchStage_of_no_fetch {s : State} (h : s.redirectPending = true ∨ s.haltFetched = true) :
    fetchStage s = .next { enterStage .fetch s with redirectPending := false } := by
  by_cases hrp : s.redirectPending = true
  · exact if_pos hrp
  · have hsame : enterStage .fetch s = { enterStage .fetch s with redirectPending := false } := by
      rw [← Bool.eq_false_iff.mpr hrp]
      rfl
    exact (if_neg hrp).trans ((if_pos (h.resolve_left hrp)).trans (congrArg _ hsame))

/-- A tick in which nothing raises an error and nothing is fetched. -/
theorem step_of_no_fetch {s : State} (hs : s.Ticks)
    (hW : s.latW.valid = true → s.latW.instr.wellFormed s.nregs = true)
    (hM : s.latM.valid = true → s.latM.instr.wellFormed s.nregs = true)
    (hE : s.latE.valid = true → s.latE.instr.wellFormed s.nregs = true)
    (hD : takesBranch s = false → s.latD.valid = true → s.latD.instr.wellFormed s.nregs = true)
    (hm : ¬ s.RaisesAddressing) (hx : ¬ s.RaisesArithmetic)
    (hf : (tickDec s).redirectPending = true ∨ (tickDec s).haltFetched = true) :
    step s = .next (finishTick { tickDec s with redirectPending := false }) := by
  have hrun : s.engineState = .running := hs.2.1
  have hm' : ¬ memFails (tickWb s) := hm
  rw [step_of_ticks hs, tick_eq hrun hW hM hE hD, if_neg hm', if_neg fun h => hx ((exFails_iff s).mp h),
    fetchStage_of_no_fetch hf, finish_running (by exact hrun)]
  exact congrArg _ (finishTick_enterStage { tickDec s with redirectPending := false })

/-! ## A taken branch (R101, R103, R104) -/

/-- EX of a branch writes neither its latch nor the zero flag (R161, R162). -/
theorem branch_execute {i : Instr} (h : i.opcode = .bz ∨ i.opcode = .bnz) (l : Latch) (z : Bool) :
    executedLatch i l = l ∧ exZero i l z = z := by
  cases i with
  | bz f => exact ⟨rfl, rfl⟩
  | bnz f => exact ⟨rfl, rfl⟩
  | _ => simp [Instr.opcode] at h

/-- EX raises no error for a branch. -/
theorem not_raisesArithmetic_of_takesBranch {s : State} (hb : takesBranch s = true) : ¬ s.RaisesArithmetic := by
  rintro ⟨-, hdiv, -⟩
  obtain ⟨-, hop⟩ := takesBranch_isBranch hb
  simp [hdiv] at hop

/-- Settles O32: the branch leaves `D` empty before DEC runs, and FETCH spends its turn on the redirect. -/
theorem takenBranchFlushesOne : Obligations.TakenBranchFlushesOne := by
  intro s hs hl hb hm
  obtain ⟨-, hE, hM, hW⟩ := (latchesChecked_iff s).mp hl
  have hflushed : takesBranch s = false → s.latD.valid = true → s.latD.instr.wellFormed s.nregs = true := by
    rw [hb]; exact nofun
  have hredirect : (tickDec s).redirectPending = true := by rw [tickDec_redirectPending, hb]; rfl
  refine ⟨_, step_of_no_fetch hs hW hM hE hflushed hm (not_raisesArithmetic_of_takesBranch hb) (.inl hredirect), ?_⟩
  obtain ⟨krf, -, kz, kpc, -, kD, kE, kM, -, -, krp, khf⟩ :=
    finishTick_fields { tickDec s with redirectPending := false }
  obtain ⟨hv, hop⟩ := takesBranch_isBranch hb
  obtain ⟨hlatch, hzero⟩ := branch_execute hop s.latE s.zero
  obtain ⟨vE, -⟩ := tickDec_latE_valid s
  refine ⟨?_, ?_, ?_, ?_, krp, ?_, ?_, ?_, fun r => ?_⟩
  · rw [finishTick_engineState (by exact hs.2.1)]
    exact congrArg (fun b => if b = true then EngineState.halted else .running) (tickDec_haltRetired s)
  · rw [kpc]
    exact (tickDec_pc s).trans (if_pos hb)
  · rw [kD]
    exact tickDec_latD_valid s
  · rw [kE]
    exact vE.trans (by rw [hb]; rfl)
  · rw [khf]
    exact (tickDec_haltFetched s).trans (by rw [hb]; rfl)
  · rw [kz]
    exact (tickDec_zero s).trans ((if_pos hv).trans hzero)
  · rw [kM]
    exact (tickDec_latM s).trans ((if_pos hv).trans hlatch)
  · rw [avail_congr krf, ← avail_tickEx hW]
    exact (avail_tickDec hflushed r).trans (if_neg (by rw [hb]; exact nofun))

/-! ## A retiring HALT (R91, R108) -/

/-- HALT has no register field to check and no result (R170). -/
theorem halt_record {i : Instr} (h : i.opcode = .halt) (n : Nat) :
    i.wellFormed n = true ∧ i.opcode.resultProducing = false := by
  cases i with
  | halt f => exact ⟨rfl, rfl⟩
  | _ => simp [Instr.opcode] at h

/-- With nothing in `D`, `E` and `M` and a HALT in `W`, the stage functions before FETCH change `W` and the count. -/
theorem tickDec_of_retiring_halt {s : State} (hw : s.latW.halts = true) (hD : s.latD.valid = false)
    (hE : s.latE.valid = false) (hM : s.latM.valid = false) :
    (tickDec s).rf = s.rf ∧ (tickDec s).dmem = s.dmem ∧ (tickDec s).zero = s.zero ∧ (tickDec s).pc = s.pc ∧
    (tickDec s).completed = s.completed + 1 := by
  obtain ⟨hv, hop⟩ := (Latch.halts_iff _).mp hw
  obtain ⟨-, hfree⟩ := halt_record hop s.nregs
  have hb : takesBranch s = false := takesBranch_of_invalid hE
  refine ⟨?_, ?_, ?_, ?_, ?_⟩
  · have hwb : (tickEx s).rf = s.rf := by simp [tickEx_rf, tickWb, afterWb, hfree]
    simp [tickDec_rf, tickEx_latD, hb, hD, hwb]
  · rw [tickDec_dmem, hM]
    rfl
  · rw [tickDec_zero, hE]
    rfl
  · rw [tickDec_pc, hb]
    rfl
  · rw [tickDec_completed, if_pos hv]

/-- Settles O39: the stage functions after WB have nothing to do, FETCH is stopped, and the end of the tick stops the
engine. -/
theorem retiringHaltStopsTheEngine : Obligations.RetiringHaltStopsTheEngine := by
  intro s hs hyoung hw
  obtain ⟨-, -, -, hW⟩ := hyoung
  obtain ⟨hhf, dv, ev, mv⟩ := hW hw
  obtain ⟨-, hop⟩ := (Latch.halts_iff _).mp hw
  obtain ⟨hwf, -⟩ := halt_record hop s.nregs
  have hstopped : (tickDec s).haltFetched = true := by
    rw [tickDec_haltFetched, takesBranch_of_invalid ev, hhf]; rfl
  refine ⟨_, step_of_no_fetch hs (fun _ => hwf) (by rw [mv]; exact nofun) (by rw [ev]; exact nofun)
    (fun _ => by rw [dv]; exact nofun) (fun ⟨hv, _⟩ => ?_) (fun ⟨hv, _⟩ => ?_) (.inr hstopped), ?_⟩
  · rw [mv] at hv; cases hv
  · rw [ev] at hv; cases hv
  obtain ⟨krf, kdmem, kz, kpc, -, kD, kE, kM, kW, kc, -⟩ :=
    finishTick_fields { tickDec s with redirectPending := false }
  obtain ⟨hrf, hdmem, hzero, hpc, hcount⟩ := tickDec_of_retiring_halt hw dv ev mv
  obtain ⟨vE, -⟩ := tickDec_latE_valid s
  obtain ⟨vM, -⟩ := tickDec_latM_valid s
  obtain ⟨vW, -⟩ := tickDec_latW_valid s
  have hretired : ({ tickDec s with redirectPending := false } : State).haltRetired = true :=
    (tickDec_haltRetired s).trans hw
  rw [finishTick_engineState (by exact hs.2.1), finishTick_termReason, finishTick_clock, if_pos hretired,
    if_pos hretired, if_pos hretired, kc, kpc, kz, kdmem, krf, kD, kE, kM, kW]
  exact ⟨rfl, rfl, rfl, hcount, hpc, hzero, hdmem, hrf, tickDec_latD_valid s,
    vE.trans (by rw [dv, Bool.and_false]), vM.trans ev, vW.trans mv⟩

end Sys2Proof.Machine
end

section
/-! PROOF. Register-register arithmetic (spec/41_arithmetic.md R131 to R137): a record of format R3 in DEC, EX, MEM and
WB, the results of the total operations, and the quotient of DIV. -/

namespace Sys2Proof.Machine

/-! ## A record in one stage (R93 to R96) -/

/-- A well-formed record put into any stage has a next state, the one its row of actions leaves. -/
theorem exec_withStage {i : Instr} {s : State} (hwf : i.wellFormed s.nregs = true) (st : Stage) :
    exec i { s with stage := st } = .next (performed i (actionsOf i) { s with stage := st }) :=
  (exec_eq i { s with stage := st }).trans (if_pos hwf)

/-- DEC of a record of format R3: `rs1` and `rs2` resolved in class ARITH, `rd` marked pending (R96, R99). -/
theorem exec_dec_of_r3 {i : Instr} {s : State} (hwf : i.wellFormed s.nregs = true) (h3 : i.opcode.format = .r3) :
    exec i { s with stage := .dec } = .next
      { s with
        stage := .dec
        rf := s.rf.modify i.fields.rd.toNat (fun c => { c with avail := false })
        latE := { s.latD with
                  rs1Value := resolve .arith i.fields.rs1 s, rs2Value := resolve .arith i.fields.rs2 s }
        latD := { s.latD with
                  valid := false
                  rs1Value := resolve .arith i.fields.rs1 s, rs2Value := resolve .arith i.fields.rs2 s } } := by
  rw [exec_withStage hwf, performed_dec i rfl]
  simp only [resolvedLatch, classOr, classOf, Opcode.resultProducing, h3]
  rfl

/-- A record with a result is no branch (R72). -/
theorem branches_of_result {i : Instr} (hp : i.opcode.resultProducing = true) (z : Bool) : branches i z = false := by
  cases ho : i.opcode <;> simp_all [branches, Opcode.resultProducing, Opcode.format, Format.usesRd]

/-- Of the records with a result, only the loads compute an address (R154). -/
theorem exAddress_of_result {i : Instr} (hp : i.opcode.resultProducing = true) (hl : isLoad i.opcode = false)
    (l : Latch) : exAddress i l = l.memAddress := by
  cases i with
  | load f | ldr f => cases hl
  | store f | str f => cases hp
  | _ => rfl

/-- EX of a record that raises no error, branches nowhere and computes a result: the descriptor and the zero flag
(R95, R37, R26). -/
theorem exec_ex_of_result {i : Instr} {s : State} (hwf : i.wellFormed s.nregs = true)
    (hp : i.opcode.resultProducing = true) (hl : isLoad i.opcode = false) (hok : divFails i s.latE = false) :
    exec i { s with stage := .ex } = .next
      { s with
        stage := .ex
        zero := exZero i s.latE s.zero
        latM := { s.latE with resTag := some i.fields.rd, resValue := exResult i s.latE }
        latE := { s.latE with valid := false, resTag := some i.fields.rd, resValue := exResult i s.latE } } := by
  rw [exec_withStage hwf, performed_ex i rfl, if_neg (by simpa using hok)]
  simp only [branches_of_result hp, executedLatch, exAddress_of_result hp hl, hp, hl]
  rfl

/-- MEM of a record that accesses no memory: the copy into `W` alone (R94). -/
theorem exec_mem_of_no_access {i : Instr} {s : State} (hwf : i.wellFormed s.nregs = true)
    (hl : isLoad i.opcode = false) (hs : isStore i.opcode = false) :
    exec i { s with stage := .mem } = .next
      { s with stage := .mem, latW := s.latM, latM := { s.latM with valid := false } } := by
  rw [exec_withStage hwf]
  rcases performed_mem i (s := { s with stage := .mem }) rfl with ⟨hl', -⟩ | ⟨hs', -⟩ | ⟨hls, -⟩ | ⟨-, -, e⟩
  · simp [hl] at hl'
  · simp [hs] at hs'
  · simp [hl, hs] at hls
  · exact congrArg _ e

/-- WB of a result-producing record: `rd` committed from the descriptor of `W`, the record counted (R93). -/
theorem exec_wb_of_result {i : Instr} {s : State} (hwf : i.wellFormed s.nregs = true)
    (hp : i.opcode.resultProducing = true) :
    exec i { s with stage := .wb } = .next
      { s with
        stage := .wb
        rf := s.rf.modify i.fields.rd.toNat (fun _ => { val := s.latW.resValue, avail := true })
        completed := s.completed + 1
        latW := { s.latW with valid := false } } := by
  have hhalt : i.opcode ≠ .halt := by
    intro h
    rw [h] at hp
    cases hp
  rw [exec_withStage hwf, performed_wb i rfl, if_pos hp, if_neg hhalt]
  rfl

/-! ## Format R3 -/

/-- A record of format R3 has a result, accesses no memory and leaves the zero flag alone (R72, R130). -/
theorem r3_record {i : Instr} (h3 : i.opcode.format = .r3) :
    i.opcode.resultProducing = true ∧ isLoad i.opcode = false ∧ isStore i.opcode = false ∧
      ∀ l z, exZero i l z = z := by
  cases ho : i.opcode <;> simp_all [Opcode.format, Opcode.resultProducing, Format.usesRd, isLoad, isStore, exZero]

/-- EX of a record of format R3 that raises no error writes its descriptor (R95). -/
theorem exec_ex_of_r3 {i : Instr} {s : State} (hwf : i.wellFormed s.nregs = true) (h3 : i.opcode.format = .r3)
    (hok : divFails i s.latE = false) :
    exec i { s with stage := .ex } = .next
      { s with
        stage := .ex
        latM := { s.latE with resTag := some i.fields.rd, resValue := exResult i s.latE }
        latE := { s.latE with valid := false, resTag := some i.fields.rd, resValue := exResult i s.latE } } := by
  obtain ⟨hp, hl, -, hzero⟩ := r3_record h3
  rw [exec_ex_of_result hwf hp hl hok, hzero]

/-- EX raises no error for a record other than DIV (R182). -/
theorem divFails_of_ne_div {i : Instr} (h : i.opcode ≠ .div) (l : Latch) : divFails i l = false := by
  simp [divFails, h]

/-- Settles O8: the six records have format R3, none is a DIV, and the listed word is the result EX computes. -/
theorem registerArithmetic : Obligations.RegisterArithmetic := by
  intro f s i v hmem hwf
  have hi : i.opcode.format = .r3 ∧ i.opcode ≠ .div ∧ f = i.fields ∧ v = exResult i s.latE := by
    simp only [List.mem_cons, List.not_mem_nil, or_false, Prod.mk.injEq] at hmem
    rcases hmem with ⟨rfl, rfl⟩ | ⟨rfl, rfl⟩ | ⟨rfl, rfl⟩ | ⟨rfl, rfl⟩ | ⟨rfl, rfl⟩ | ⟨rfl, rfl⟩ <;>
      exact ⟨rfl, nofun, rfl, rfl⟩
  obtain ⟨h3, hdiv, rfl, rfl⟩ := hi
  obtain ⟨hp, hl, hs, -⟩ := r3_record h3
  exact ⟨exec_dec_of_r3 hwf h3, exec_ex_of_r3 hwf h3 (divFails_of_ne_div hdiv s.latE),
    exec_mem_of_no_access hwf hl hs, exec_wb_of_result hwf hp⟩

/-! ## The quotient of DIV (R134) -/

/-- The expression of R134 is division rounding toward zero. -/
theorem sign_mul_sign_mul_natAbs_div (a b : Int) :
    a.sign * b.sign * ((a.natAbs / b.natAbs : Nat) : Int) = a.tdiv b := by
  have hsign : a.sign * b.sign * ((a.natAbs / b.natAbs : Nat) : Int) =
      (a.tdiv b).sign * ((a.natAbs / b.natAbs : Nat) : Int) := by
    rw [Int.sign_tdiv]
    split
    case isTrue hlt => simp [Nat.div_eq_of_lt hlt]
    case isFalse => rfl
  calc a.sign * b.sign * ((a.natAbs / b.natAbs : Nat) : Int)
      = (a.tdiv b).sign * ((a.natAbs / b.natAbs : Nat) : Int) := hsign
    _ = (a.tdiv b).sign * ((a.tdiv b).natAbs : Int) := by rw [Int.natAbs_tdiv]; rfl
    _ = a.tdiv b := Int.sign_mul_natAbs _

/-- Outside `-2^31` by `-1` the quotient fits a word, so `wrap` loses nothing. -/
theorem toInt_wrap_tdiv {a b : Word} (h : ¬ (a.toInt = -2147483648 ∧ b.toInt = -1)) :
    (wrap (a.toInt.tdiv b.toInt)).toInt = a.toInt.tdiv b.toInt := by
  have hne : a ≠ BitVec.intMin 32 ∨ b ≠ -1#32 := by
    by_contra! hab
    obtain ⟨rfl, rfl⟩ := hab
    exact h (by decide)
  rw [toInt_wrap, ← BitVec.toInt_sdiv, BitVec.toInt_sdiv_of_ne_or_ne a b hne]

/-- A quotient that R134 gives has the value R134 states. -/
theorem toInt_of_quotient {a b q : Word} (h : quotient a b = some q) :
    q.toInt = a.toInt.sign * b.toInt.sign * ((a.toInt.natAbs / b.toInt.natAbs : Nat) : Int) := by
  rw [quotient, sign_mul_sign_mul_natAbs_div] at h
  split_ifs at h with hzero hover
  cases h
  rw [sign_mul_sign_mul_natAbs_div, toInt_wrap_tdiv hover]

/-- EX of a DIV that raises no error computes the quotient of R134. -/
theorem toInt_exResult_div {f : Fields} {l : Latch} (hok : divFails (.div f) l = false) :
    (exResult (.div f) l).toInt = l.rs1Value.toInt.sign * l.rs2Value.toInt.sign *
      ((l.rs1Value.toInt.natAbs / l.rs2Value.toInt.natAbs : Nat) : Int) := by
  apply toInt_of_quotient
  cases hq : quotient l.rs1Value l.rs2Value with
  | none => simp [divFails, hq, Instr.opcode] at hok
  | some q => simp [exResult, hq]

/-- Settles O9: DIV has format R3, and outside the two trapping cases EX computes the quotient. -/
theorem divCompletes : Obligations.DivCompletes := by
  intro f s hwf
  refine ⟨exec_dec_of_r3 hwf rfl, fun hne hfits => ?_, exec_mem_of_no_access hwf rfl rfl, exec_wb_of_result hwf rfl⟩
  have hok : divFails (.div f) s.latE = false := by
    rw [Bool.eq_false_iff, Ne, divFails_iff]
    exact fun htraps => htraps.2.elim hne hfits
  exact ⟨exResult (.div f) s.latE, toInt_exResult_div hok, exec_ex_of_r3 hwf rfl hok⟩

end Sys2Proof.Machine
end

section
/-! PROOF. Immediate forms and move (spec/42_immediate_and_move.md R140 to R142): DEC of a result-producing record with
the latch it resolves, a record of format RI in every stage, and MOVC with the zero flag it writes. -/

namespace Sys2Proof.Machine

/-! ## DEC of a result-producing record (R96, R99) -/

/-- DEC of a result-producing record: `rd` marked pending, the resolved latch moved into `E`. -/
theorem exec_dec_of_result {i : Instr} {s : State} (hwf : i.wellFormed s.nregs = true)
    (hp : i.opcode.resultProducing = true) :
    exec i { s with stage := .dec } = .next
      { s with
        stage := .dec
        rf := s.rf.modify i.fields.rd.toNat (fun c => { c with avail := false })
        latE := resolvedLatch i s
        latD := (resolvedLatch i s).cleared } := by
  rw [exec_withStage hwf, performed_dec i rfl, if_pos hp]
  rfl

/-- Format RI resolves `rs1` alone, in class ARITH (R72, R97). -/
theorem resolvedLatch_of_ri {i : Instr} (h : i.opcode.format = .ri) (s : State) :
    resolvedLatch i s = { s.latD with rs1Value := resolve .arith i.fields.rs1 s } := by
  simp only [resolvedLatch, classOr, classOf, h]
  rfl

/-- Format DI resolves no operand (R72, R142). -/
theorem resolvedLatch_of_di {i : Instr} (h : i.opcode.format = .di) (s : State) : resolvedLatch i s = s.latD := by
  simp only [resolvedLatch, h]
  rfl

/-! ## Format RI -/

/-- The records of format RI are ADDL and SUBL (R72). -/
theorem opcode_of_ri {o : Opcode} (h : o.format = .ri) : o = .addl ∨ o = .subl := by
  cases o with
  | addl => exact .inl rfl
  | subl => exact .inr rfl
  | _ => cases h

/-- A record of format RI has a result, accesses no memory, raises no error in EX and leaves the zero flag alone
(R72, R140, R141). -/
theorem ri_record {i : Instr} (h : i.opcode.format = .ri) :
    i.opcode.resultProducing = true ∧ isLoad i.opcode = false ∧ isStore i.opcode = false ∧ i.opcode ≠ .div ∧
      ∀ l z, exZero i l z = z := by
  rcases opcode_of_ri h with ho | ho <;>
    simp [ho, exZero, Opcode.resultProducing, Opcode.format, Format.usesRd, isLoad, isStore]

/-- DEC of a record of format RI: `rs1` resolved in class ARITH, `rd` marked pending (R140, R141). -/
theorem exec_dec_of_ri {i : Instr} {s : State} (hwf : i.wellFormed s.nregs = true) (h : i.opcode.format = .ri) :
    exec i { s with stage := .dec } = .next
      { s with
        stage := .dec
        rf := s.rf.modify i.fields.rd.toNat (fun c => { c with avail := false })
        latE := { s.latD with rs1Value := resolve .arith i.fields.rs1 s }
        latD := { s.latD with valid := false, rs1Value := resolve .arith i.fields.rs1 s } } := by
  obtain ⟨hp, -⟩ := ri_record h
  rw [exec_dec_of_result hwf hp, resolvedLatch_of_ri h]
  rfl

/-- EX of a record of format RI writes its descriptor and no flag (R140, R141). -/
theorem exec_ex_of_ri {i : Instr} {s : State} (hwf : i.wellFormed s.nregs = true) (h : i.opcode.format = .ri) :
    exec i { s with stage := .ex } = .next
      { s with
        stage := .ex
        latM := { s.latE with resTag := some i.fields.rd, resValue := exResult i s.latE }
        latE := { s.latE with valid := false, resTag := some i.fields.rd, resValue := exResult i s.latE } } := by
  obtain ⟨hp, hl, -, hdiv, hzero⟩ := ri_record h
  rw [exec_ex_of_result hwf hp hl (divFails_of_ne_div hdiv s.latE), hzero]

/-- Settles O11: both records have format RI, and the listed word is the result EX computes from the immediate. -/
theorem immediateArithmetic : Obligations.ImmediateArithmetic := by
  intro f s i v hmem hwf
  have hi : i.opcode.format = .ri ∧ f = i.fields ∧ v = exResult i s.latE := by
    simp only [List.mem_cons, List.not_mem_nil, or_false, Prod.mk.injEq] at hmem
    rcases hmem with ⟨rfl, rfl⟩ | ⟨rfl, rfl⟩ <;> exact ⟨rfl, rfl, rfl⟩
  obtain ⟨hri, rfl, rfl⟩ := hi
  obtain ⟨hp, hl, hs, -⟩ := ri_record hri
  exact ⟨exec_dec_of_ri hwf hri, exec_ex_of_ri hwf hri, exec_mem_of_no_access hwf hl hs, exec_wb_of_result hwf hp⟩

/-! ## MOVC -/

/-- DEC of MOVC: `D` moves into `E` as it is, `rd` marked pending (R142). -/
theorem exec_dec_of_movc {f : Fields} {s : State} (hwf : (Instr.movc f).wellFormed s.nregs = true) :
    exec (.movc f) { s with stage := .dec } = .next
      { s with
        stage := .dec
        rf := s.rf.modify f.rd.toNat (fun c => { c with avail := false })
        latE := s.latD
        latD := { s.latD with valid := false } } := by
  rw [exec_dec_of_result hwf rfl, resolvedLatch_of_di rfl]
  rfl

/-- Settles O12: MOVC has format DI, and its result and its flag in EX are of the immediate alone. -/
theorem moveImmediate : Obligations.MoveImmediate := by
  intro f s hwf
  have hok : divFails (.movc f) s.latE = false := divFails_of_ne_div (i := .movc f) nofun s.latE
  exact ⟨exec_dec_of_movc hwf, exec_ex_of_result hwf rfl rfl hok, exec_mem_of_no_access hwf rfl rfl,
    exec_wb_of_result hwf rfl⟩

end Sys2Proof.Machine
end

section
/-! PROOF. Load and store (spec/43_load_store.md R150 to R154): the sources a memory opcode resolves, the address it
computes, the word it reads or writes in MEM, and a record without a result in DEC and WB. -/

namespace Sys2Proof.Machine

/-! ## The bytes of a word write (R39, R51) -/

/-- A word write touches the four bytes of its own word alone. -/
theorem Memory.readByte_writeWord_of_outside (m : Memory) (v : Word) {a b : Nat} (h : b < 4 * a ∨ 4 * a + 3 < b) :
    Memory.readByte (Memory.writeWord m a v) b = Memory.readByte m b := by
  have h0 : b ≠ 4 * a := by omega
  have h1 : b ≠ 4 * a + 1 := by omega
  have h2 : b ≠ 4 * a + 2 := by omega
  have h3 : b ≠ 4 * a + 3 := by omega
  simp only [Memory.writeWord, Memory.readByte_writeByte, if_neg h0, if_neg h1, if_neg h2, if_neg h3]

/-! ## Sources in class MEMCLASS (R72, R96, R97) -/

/-- Format LI resolves its base `rs1` alone. -/
theorem resolvedLatch_of_li {i : Instr} (h : i.opcode.format = .li) (s : State) :
    resolvedLatch i s = { s.latD with rs1Value := resolve .memclass i.fields.rs1 s } := by
  simp only [resolvedLatch, classOr, classOf, h]
  rfl

/-- Formats LR, SI and CR resolve `rs1` and `rs2`. -/
theorem resolvedLatch_of_lr_si_cr {i : Instr}
    (h : i.opcode.format = .lr ∨ i.opcode.format = .si ∨ i.opcode.format = .cr) (s : State) :
    resolvedLatch i s =
      { s.latD with
        rs1Value := resolve .memclass i.fields.rs1 s, rs2Value := resolve .memclass i.fields.rs2 s } := by
  rcases h with h | h | h
  all_goals
    simp only [resolvedLatch, classOr, classOf, h]
    rfl

/-- Format SR resolves `rs1`, `rs2` and `rs3`. -/
theorem resolvedLatch_of_sr {i : Instr} (h : i.opcode.format = .sr) (s : State) :
    resolvedLatch i s =
      { s.latD with
        rs1Value := resolve .memclass i.fields.rs1 s
        rs2Value := resolve .memclass i.fields.rs2 s
        rs3Value := resolve .memclass i.fields.rs3 s } := by
  simp only [resolvedLatch, classOr, classOf, h]
  rfl

/-! ## A record without a result in DEC and WB (R93, R96) -/

/-- DEC of a record without a result: the resolved latch moves into `E`, no availability bit is touched. -/
theorem exec_dec_of_no_result {i : Instr} {s : State} (hwf : i.wellFormed s.nregs = true)
    (hp : i.opcode.resultProducing = false) :
    exec i { s with stage := .dec } = .next
      { s with stage := .dec, latE := resolvedLatch i s, latD := (resolvedLatch i s).cleared } := by
  rw [exec_withStage hwf, performed_dec i rfl, if_neg (by simp [hp])]
  rfl

/-- WB of a record without a result that is no HALT: it commits nothing and is counted. -/
theorem exec_wb_of_no_result {i : Instr} {s : State} (hwf : i.wellFormed s.nregs = true)
    (hp : i.opcode.resultProducing = false) (hhalt : i.opcode ≠ .halt) :
    exec i { s with stage := .wb } = .next
      { s with stage := .wb, completed := s.completed + 1, latW := { s.latW with valid := false } } := by
  rw [exec_withStage hwf, performed_wb i rfl, if_neg (by simp [hp]), if_neg hhalt]
  rfl

/-! ## Records that access memory in EX and MEM (R94, R154) -/

/-- No load is a store. -/
theorem isStore_of_isLoad {o : Opcode} (h : isLoad o = true) : isStore o = false := by
  cases o with
  | load | ldr => rfl
  | _ => cases h

/-- EX of a record that accesses memory writes the address into its latch; it raises no error, branches nowhere and
leaves the zero flag alone. -/
theorem access_record {i : Instr} (h : isLoad i.opcode = true ∨ isStore i.opcode = true) :
    i.opcode ≠ .div ∧ (∀ z, branches i z = false) ∧ (∀ l z, exZero i l z = z) ∧
      ∀ l, executedLatch i l = { l with memAddress := exAddress i l } := by
  cases i with
  | load f | store f | ldr f | str f => exact ⟨nofun, fun _ => rfl, fun _ _ => rfl, fun _ => rfl⟩
  | _ => rcases h with h | h <;> cases h

/-- EX of a record that accesses memory: the effective address, and nothing else beside the copy into `M`. -/
theorem exec_ex_of_access {i : Instr} {s : State} (hwf : i.wellFormed s.nregs = true)
    (h : isLoad i.opcode = true ∨ isStore i.opcode = true) :
    exec i { s with stage := .ex } = .next
      { s with
        stage := .ex
        latM := { s.latE with memAddress := exAddress i s.latE }
        latE := { s.latE with valid := false, memAddress := exAddress i s.latE } } := by
  obtain ⟨hdiv, hbranch, hzero, hlatch⟩ := access_record h
  rw [exec_withStage hwf, performed_ex i rfl, if_neg (by simp [divFails_of_ne_div hdiv])]
  simp only [hbranch, hzero, hlatch]
  rfl

/-- MEM of a load with its address in range: the word addressed goes into the descriptor of `M`. -/
theorem exec_mem_of_load {i : Instr} {s : State} (hwf : i.wellFormed s.nregs = true) (hl : isLoad i.opcode = true)
    (ha : s.addressOk s.latM.memAddress) :
    exec i { s with stage := .mem } = .next
      { s with
        stage := .mem
        latW := { s.latM with resTag := some i.fields.rd, resValue := s.dmemWord s.latM.memAddress.toNat }
        latM := { s.latM with
                  valid := false
                  resTag := some i.fields.rd
                  resValue := s.dmemWord s.latM.memAddress.toNat } } := by
  rw [exec_withStage hwf]
  rcases performed_mem i (s := { s with stage := .mem }) rfl with ⟨-, -, e⟩ | ⟨hs, -⟩ | ⟨-, hno, -⟩ | ⟨hl', -⟩
  · exact congrArg _ e
  · simp [isStore_of_isLoad hl] at hs
  · exact absurd ha hno
  · simp [hl] at hl'

/-- MEM of a store with its address in range: `M.rs1_value` is written at the word addressed. -/
theorem exec_mem_of_store {i : Instr} {s : State} (hwf : i.wellFormed s.nregs = true) (hs : isStore i.opcode = true)
    (ha : s.addressOk s.latM.memAddress) :
    exec i { s with stage := .mem } = .next
      { s with
        stage := .mem
        dmem := Memory.writeWord s.dmem s.latM.memAddress.toNat s.latM.rs1Value
        latW := s.latM
        latM := { s.latM with valid := false } } := by
  rw [exec_withStage hwf]
  rcases performed_mem i (s := { s with stage := .mem }) rfl with ⟨hl, -⟩ | ⟨-, -, e⟩ | ⟨-, hno, -⟩ | ⟨-, hs', -⟩
  · simp [isStore_of_isLoad hl] at hs
  · exact congrArg _ e
  · exact absurd ha hno
  · simp [hs] at hs'

/-! ## The four opcodes -/

/-- Settles O16: MEM of either store leaves `Memory.writeWord` at the address, which reads back in its own word and is
the old memory at every byte outside it. -/
theorem storesWriteOneWord : Obligations.StoresWriteOneWord := by
  intro f s i hmem hwf hlo hhi
  have hs : isStore i.opcode = true := by
    simp only [List.mem_cons, List.not_mem_nil, or_false] at hmem
    rcases hmem with rfl | rfl <;> rfl
  refine ⟨_, exec_mem_of_store hwf hs ⟨hlo, hhi⟩, ?_,
    fun b hb => Memory.readByte_writeWord_of_outside s.dmem s.latM.rs1Value hb, rfl⟩
  exact (Memory.readWord_writeWord s.dmem _ _ s.latM.rs1Value).trans (if_pos rfl)

/-- DEC of a LOAD: the base resolved, `rd` marked pending (R150). -/
theorem exec_dec_of_load {f : Fields} {s : State} (hwf : (Instr.load f).wellFormed s.nregs = true) :
    exec (.load f) { s with stage := .dec } = .next
      { s with
        stage := .dec
        rf := s.rf.modify f.rd.toNat (fun c => { c with avail := false })
        latE := { s.latD with rs1Value := resolve .memclass f.rs1 s }
        latD := { s.latD with valid := false, rs1Value := resolve .memclass f.rs1 s } } := by
  rw [exec_dec_of_result hwf rfl, resolvedLatch_of_li rfl]
  rfl

/-- Settles O13: LOAD has format LI and is a load, and its address in EX is base plus offset. -/
theorem loadCompletes : Obligations.LoadCompletes := by
  intro f s hwf
  exact ⟨exec_dec_of_load hwf, exec_ex_of_access hwf (.inl rfl),
    fun hlo hhi => exec_mem_of_load hwf rfl ⟨hlo, hhi⟩, exec_wb_of_result hwf rfl⟩

/-- DEC of an LDR: base and index resolved, `rd` marked pending (R152). -/
theorem exec_dec_of_ldr {f : Fields} {s : State} (hwf : (Instr.ldr f).wellFormed s.nregs = true) :
    exec (.ldr f) { s with stage := .dec } = .next
      { s with
        stage := .dec
        rf := s.rf.modify f.rd.toNat (fun c => { c with avail := false })
        latE := { s.latD with rs1Value := resolve .memclass f.rs1 s, rs2Value := resolve .memclass f.rs2 s }
        latD := { s.latD with
                  valid := false
                  rs1Value := resolve .memclass f.rs1 s
                  rs2Value := resolve .memclass f.rs2 s } } := by
  rw [exec_dec_of_result hwf rfl, resolvedLatch_of_lr_si_cr (.inl rfl)]
  rfl

/-- Settles O14: LDR has format LR and is a load, and its address in EX is base plus index. -/
theorem ldrCompletes : Obligations.LdrCompletes := by
  intro f s hwf
  exact ⟨exec_dec_of_ldr hwf, exec_ex_of_access hwf (.inl rfl),
    fun hlo hhi => exec_mem_of_load hwf rfl ⟨hlo, hhi⟩, exec_wb_of_result hwf rfl⟩

/-- DEC of a STORE: value and base resolved (R151). -/
theorem exec_dec_of_store {f : Fields} {s : State} (hwf : (Instr.store f).wellFormed s.nregs = true) :
    exec (.store f) { s with stage := .dec } = .next
      { s with
        stage := .dec
        latE := { s.latD with rs1Value := resolve .memclass f.rs1 s, rs2Value := resolve .memclass f.rs2 s }
        latD := { s.latD with
                  valid := false
                  rs1Value := resolve .memclass f.rs1 s
                  rs2Value := resolve .memclass f.rs2 s } } := by
  rw [exec_dec_of_no_result hwf rfl, resolvedLatch_of_lr_si_cr (.inr (.inl rfl))]
  rfl

/-- DEC of an STR: value, base and index resolved (R153). -/
theorem exec_dec_of_str {f : Fields} {s : State} (hwf : (Instr.str f).wellFormed s.nregs = true) :
    exec (.str f) { s with stage := .dec } = .next
      { s with
        stage := .dec
        latE := { s.latD with
                  rs1Value := resolve .memclass f.rs1 s
                  rs2Value := resolve .memclass f.rs2 s
                  rs3Value := resolve .memclass f.rs3 s }
        latD := { s.latD with
                  valid := false
                  rs1Value := resolve .memclass f.rs1 s
                  rs2Value := resolve .memclass f.rs2 s
                  rs3Value := resolve .memclass f.rs3 s } } := by
  rw [exec_dec_of_no_result hwf rfl, resolvedLatch_of_sr rfl]
  rfl

/-- Settles O15: both are stores without a result, STORE of format SI and STR of format SR. -/
theorem storesOutsideMem : Obligations.StoresOutsideMem := by
  intro f s
  refine ⟨fun hwf => ?store, fun hwf => ?str⟩
  case store =>
    exact ⟨exec_dec_of_store hwf, exec_ex_of_access hwf (.inr rfl), exec_wb_of_no_result hwf rfl nofun⟩
  case str =>
    exact ⟨exec_dec_of_str hwf, exec_ex_of_access hwf (.inr rfl), exec_wb_of_no_result hwf rfl nofun⟩

end Sys2Proof.Machine
end

section
/-! PROOF. Compare and branch (spec/44_compare_and_branch.md R160 to R162): a record that leaves its
latch alone in EX, a record without sources in DEC, and a branch taken or not. -/

namespace Sys2Proof.Machine

/-! ## A record that leaves its latch alone in EX (R95) -/

/-- EX of a record that writes nothing into its latch and does not branch: the zero flag, and the copy into `M`. -/
theorem exec_ex_of_not_branching {i : Instr} {s : State} (hwf : i.wellFormed s.nregs = true) (hdiv : i.opcode ≠ .div)
    (hlatch : executedLatch i s.latE = s.latE) (hb : branches i s.zero = false) :
    exec i { s with stage := .ex } = .next
      { s with
        stage := .ex
        zero := exZero i s.latE s.zero
        latM := s.latE
        latE := { s.latE with valid := false } } := by
  rw [exec_withStage hwf, performed_ex i rfl, if_neg (by simp [divFails_of_ne_div hdiv])]
  simp only [hb, hlatch]
  rfl

/-! ## CMP -/

/-- DEC of CMP: both operands resolved in class MEMCLASS, no availability bit touched (R160). -/
theorem exec_dec_of_cmp {f : Fields} {s : State} (hwf : (Instr.cmp f).wellFormed s.nregs = true) :
    exec (.cmp f) { s with stage := .dec } = .next
      { s with
        stage := .dec
        latE := { s.latD with rs1Value := resolve .memclass f.rs1 s, rs2Value := resolve .memclass f.rs2 s }
        latD := { s.latD with
                  valid := false
                  rs1Value := resolve .memclass f.rs1 s
                  rs2Value := resolve .memclass f.rs2 s } } := by
  rw [exec_dec_of_no_result hwf rfl, resolvedLatch_of_lr_si_cr (.inr (.inr rfl))]
  rfl

/-- Settles O18: CMP has format CR and no result, accesses no memory and is no branch, and its flag in EX compares the
two operands. -/
theorem compareSetsZero : Obligations.CompareSetsZero := by
  intro f s hwf
  exact ⟨exec_dec_of_cmp hwf, exec_ex_of_not_branching hwf nofun rfl rfl, exec_mem_of_no_access hwf rfl rfl,
    exec_wb_of_no_result hwf rfl nofun⟩

/-! ## BZ and BNZ -/

/-- Formats BI and Z resolve no operand (R72). -/
theorem resolvedLatch_of_bi_z {i : Instr} (h : i.opcode.format = .bi ∨ i.opcode.format = .z) (s : State) :
    resolvedLatch i s = s.latD := by
  rcases h with h | h
  all_goals
    simp only [resolvedLatch, h]
    rfl

/-- DEC of a record of format BI or Z, which has neither result nor sources: `D` moves into `E` as it is. -/
theorem exec_dec_of_bi_z {i : Instr} {s : State} (hwf : i.wellFormed s.nregs = true)
    (h : i.opcode.format = .bi ∨ i.opcode.format = .z) :
    exec i { s with stage := .dec } = .next
      { s with stage := .dec, latE := s.latD, latD := { s.latD with valid := false } } := by
  have hp : i.opcode.resultProducing = false := by
    rcases h with h | h <;> simp only [Opcode.resultProducing, h, Format.usesRd]
  rw [exec_dec_of_no_result hwf hp, resolvedLatch_of_bi_z h]
  rfl

/-- A branch has format BI, so no register field to check; it has no result, accesses no memory, and is neither DIV nor
HALT (R72, R161, R162). -/
theorem branch_record {i : Instr} (h : i.opcode = .bz ∨ i.opcode = .bnz) (n : Nat) :
    i.wellFormed n = true ∧ i.opcode.format = .bi ∧ i.opcode.resultProducing = false ∧ isLoad i.opcode = false ∧
      isStore i.opcode = false ∧ i.opcode ≠ .div ∧ i.opcode ≠ .halt := by
  cases i with
  | bz f | bnz f => exact ⟨rfl, rfl, rfl, rfl, rfl, nofun, nofun⟩
  | _ => simp [Instr.opcode] at h

/-- EX of BZ or BNZ whose condition holds: the procedure of R103, and the copy into `M`. -/
theorem exec_ex_of_branching {i : Instr} {s : State} (hop : i.opcode = .bz ∨ i.opcode = .bnz)
    (hb : branches i s.zero = true) :
    exec i { s with stage := .ex } = .next
      { s with
        stage := .ex
        pc := s.latE.pc + i.fields.imm.toInt
        latD := { s.latD with valid := false }
        redirectPending := true
        haltFetched := false
        latM := s.latE
        latE := { s.latE with valid := false } } := by
  obtain ⟨hwf, -, -, -, -, hdiv, -⟩ := branch_record hop s.nregs
  obtain ⟨hlatch, hzero⟩ := branch_execute hop s.latE s.zero
  rw [exec_withStage hwf, performed_ex i rfl, if_neg (by simp [divFails_of_ne_div hdiv])]
  simp only [hb, hlatch, hzero]
  rfl

/-- Settles O19: the listed condition is the one under which EX of the record branches. -/
theorem branchesRedirect : Obligations.BranchesRedirect := by
  intro f s i taken hmem
  have hi : (i.opcode = .bz ∨ i.opcode = .bnz) ∧ f = i.fields ∧ taken = branches i s.zero := by
    simp only [List.mem_cons, List.not_mem_nil, or_false, Prod.mk.injEq] at hmem
    rcases hmem with ⟨rfl, rfl⟩ | ⟨rfl, rfl⟩
    · exact ⟨.inl rfl, rfl, rfl⟩
    · exact ⟨.inr rfl, rfl, rfl⟩
  obtain ⟨hop, rfl, rfl⟩ := hi
  obtain ⟨hwf, hbi, hp, hl, hs, hdiv, hhalt⟩ := branch_record hop s.nregs
  obtain ⟨hlatch, hzero⟩ := branch_execute hop s.latE s.zero
  refine ⟨exec_dec_of_bi_z hwf (.inl hbi), exec_ex_of_branching hop, fun hb => ?_,
    exec_mem_of_no_access hwf hl hs, exec_wb_of_no_result hwf hp hhalt⟩
  rw [exec_ex_of_not_branching hwf hdiv hlatch hb, hzero]

end Sys2Proof.Machine
end

section
/-! PROOF. HALT and NOP (spec/45_halt_nop.md R170, R171): a record of format Z in EX and WB. In DEC it is a case of
`exec_dec_of_bi_z`, in MEM of `exec_mem_of_no_access`. -/

namespace Sys2Proof.Machine

/-- HALT and NOP are the records of format Z: no register field to check, no result, no memory access, no DIV (R72). -/
theorem z_record {i : Instr} (h : i.opcode.format = .z) (n : Nat) :
    i.wellFormed n = true ∧ i.opcode.resultProducing = false ∧ isLoad i.opcode = false ∧ isStore i.opcode = false ∧
      i.opcode ≠ .div := by
  cases i with
  | halt f | nop f => exact ⟨rfl, rfl, rfl, rfl, nofun⟩
  | _ => cases h

/-- EX of a record of format Z computes nothing: latch, descriptor included, and zero flag stay, and it does not
branch. -/
theorem z_execute {i : Instr} (h : i.opcode.format = .z) (l : Latch) (z : Bool) :
    executedLatch i l = l ∧ exZero i l z = z ∧ branches i z = false := by
  cases i with
  | halt f | nop f => exact ⟨rfl, rfl, rfl⟩
  | _ => cases h

/-- EX of a record of format Z: the copy into `M` alone. -/
theorem exec_ex_of_z {i : Instr} {s : State} (h : i.opcode.format = .z) :
    exec i { s with stage := .ex } = .next
      { s with stage := .ex, latM := s.latE, latE := { s.latE with valid := false } } := by
  obtain ⟨hwf, -, -, -, hdiv⟩ := z_record h s.nregs
  obtain ⟨hlatch, hzero, hbranch⟩ := z_execute h s.latE s.zero
  rw [exec_ex_of_not_branching hwf hdiv hlatch hbranch, hzero]

/-- WB of a record without a result, HALT included: it commits nothing, is counted, and signals exactly if it is a
HALT (R93, R170). -/
theorem exec_wb_signal_of_no_result {i : Instr} {s : State} (hwf : i.wellFormed s.nregs = true)
    (hp : i.opcode.resultProducing = false) :
    exec i { s with stage := .wb } = .next
      { s with
        stage := .wb
        haltRetired := if i.opcode = .halt then true else s.haltRetired
        completed := s.completed + 1
        latW := { s.latW with valid := false } } := by
  rw [exec_withStage hwf, performed_wb i rfl, if_neg (by simp [hp])]
  rfl

/-- Settles O20: HALT and NOP have format Z, and the listed signal is the one WB of the record leaves. -/
theorem haltAndNop : Obligations.HaltAndNop := by
  intro f s i signal hmem
  have hi : i.opcode.format = .z ∧ signal = if i.opcode = .halt then true else s.haltRetired := by
    simp only [List.mem_cons, List.not_mem_nil, or_false, Prod.mk.injEq] at hmem
    rcases hmem with ⟨rfl, rfl⟩ | ⟨rfl, rfl⟩
    · exact ⟨rfl, rfl⟩
    · exact ⟨rfl, rfl⟩
  obtain ⟨hz, rfl⟩ := hi
  obtain ⟨hwf, hp, hl, hs, -⟩ := z_record hz s.nregs
  exact ⟨exec_dec_of_bi_z hwf (.inr hz), exec_ex_of_z hz, exec_mem_of_no_access hwf hl hs,
    exec_wb_signal_of_no_result hwf hp⟩

end Sys2Proof.Machine
end

section
/-! PROOF. Errors and stopped engines (spec/60_exceptions.md R181 to R184, R187, R188, R191, R192, R195): the stage that
raises, the tick it abandons, the configuration check at reset, and the engine that waits. -/

namespace Sys2Proof.Machine

/-! ## The raising stage (R182, R183) -/

/-- EX of a record it raises for: the engine stops, and the latches stay (R182, R187). -/
theorem exec_ex_of_divFails {i : Instr} {s : State} (hwf : i.wellFormed s.nregs = true)
    (hfails : divFails i s.latE = true) :
    exec i { s with stage := .ex } =
      .next (stopWith .arithmeticError (.arithmetic s.latE.pc .div) { s with stage := .ex }) := by
  rw [exec_withStage hwf, performed_ex i rfl, if_pos hfails]

/-- Settles O10: the two operand cases are those in which R134 gives no quotient. -/
theorem divTraps : Obligations.DivTraps := by
  intro f s hwf htraps
  exact exec_ex_of_divFails hwf ((divFails_iff _ _).mpr ⟨rfl, htraps⟩)

/-- MEM of a record that accesses memory out of range: the engine stops, and memory and latches stay (R183, R187). -/
theorem exec_mem_of_not_addressOk {i : Instr} {s : State} (hwf : i.wellFormed s.nregs = true)
    (haccess : isLoad i.opcode = true ∨ isStore i.opcode = true) (hout : ¬ s.addressOk s.latM.memAddress) :
    exec i { s with stage := .mem } =
      .next (stopWith .addressingError (.addressing s.latM.pc i.opcode s.latM.memAddress) { s with stage := .mem }) := by
  rw [exec_withStage hwf]
  rcases performed_mem i (s := { s with stage := .mem }) rfl with ⟨-, hok, -⟩ | ⟨-, hok, -⟩ | ⟨-, -, e⟩ | ⟨hl, hs, -⟩
  · exact absurd hok hout
  · exact absurd hok hout
  · exact congrArg _ e
  · simp [hl, hs] at haccess

/-- Settles O17: the four opcodes are the loads and the stores. -/
theorem memoryOpcodesTrap : Obligations.MemoryOpcodesTrap := by
  intro f s i hmem hwf hrange
  have haccess : isLoad i.opcode = true ∨ isStore i.opcode = true := by
    simp only [List.mem_cons, List.not_mem_nil, or_false] at hmem
    rcases hmem with rfl | rfl | rfl | rfl
    · exact .inl rfl
    · exact .inl rfl
    · exact .inr rfl
    · exact .inr rfl
  exact exec_mem_of_not_addressOk hwf haccess (by omega)

/-! ## The abandoned tick (R187, R188, R192) -/

/-- A tick over well-formed records up to FETCH: MEM's error comes first, then that of EX (R188). -/
theorem step_of_latchesChecked {s : State} (hs : s.Ticks) (hl : s.LatchesChecked) :
    step s =
      if s.RaisesAddressing then
        .next (enterStage .fetch (stopWith .addressingError
          (.addressing s.latM.pc s.latM.instr.opcode s.latM.memAddress) (tickWb s)))
      else if s.RaisesArithmetic then
        .next (enterStage .fetch (stopWith .arithmeticError (.arithmetic s.latE.pc .div) (afterMem (tickWb s))))
      else atBoundary (thenStage (fetchStage (tickDec s)) endTick) := by
  obtain ⟨hD, hE, hM, hW⟩ := (latchesChecked_iff s).mp hl
  rw [step_of_ticks hs, tick_eq hs.2.1 hW hM hE fun _ => hD]
  simp only [exFails_iff]
  rfl

/-- Settles O33: the tick ends in the state WB has left, but for the engine's outputs. -/
theorem addressingErrorStopsTheTick : Obligations.AddressingErrorStopsTheTick := by
  intro s hs hl hm
  obtain ⟨-, -, -, hW⟩ := (latchesChecked_iff s).mp hl
  exact ⟨_, (step_of_latchesChecked hs hl).trans (if_pos hm), rfl, rfl, rfl, rfl, rfl, rfl, rfl, rfl, rfl, rfl, rfl, rfl,
    rfl, rfl, rfl, x_tickEx hW, avail_tickEx hW⟩

/-- The words of Data Memory once MEM has run without an error: a store in `M` has written its own (R94). -/
theorem dmemWord_of_dmem_eq_tickDec {s t : State} (hm : ¬ s.RaisesAddressing) (h : t.dmem = (tickDec s).dmem) (a : Nat) :
    t.dmemWord a =
      if s.latM.valid = true ∧ isStore s.latM.instr.opcode = true ∧ s.latM.memAddress = (a : Int) then s.latM.rs1Value
      else s.dmemWord a := by
  rw [State.dmemWord, h, tickDec_dmem]
  by_cases hstore : s.latM.valid = true ∧ isStore s.latM.instr.opcode = true
  · obtain ⟨hv, hop⟩ := hstore
    have hok : s.addressOk s.latM.memAddress := Classical.byContradiction fun hno => hm ⟨hv, .inr hop, hno⟩
    have haddr : a = s.latM.memAddress.toNat ↔ s.latM.memAddress = (a : Int) := by omega
    simp only [hv, hop, Bool.and_self, if_true, Memory.readWord_writeWord, haddr, true_and]
    rfl
  · rw [if_neg (by simpa using hstore), if_neg fun hc => hstore ⟨hc.1, hc.2.1⟩]
    rfl

/-- Settles O34: the tick ends in the state MEM has left, but for the engine's outputs. -/
theorem arithmeticErrorStopsTheTick : Obligations.ArithmeticErrorStopsTheTick := by
  intro s hs hl hm hx
  obtain ⟨-, -, -, hW⟩ := (latchesChecked_iff s).mp hl
  obtain ⟨vW, fromM⟩ := tickDec_latW_valid s
  have e := (step_of_latchesChecked hs hl).trans ((if_neg hm).trans (if_pos hx))
  exact ⟨_, e, rfl, rfl, rfl, rfl, rfl, rfl, rfl, rfl, rfl, rfl, rfl, rfl, vW, fun hv => (fromM (vW.trans hv)).2,
    dmemWord_of_dmem_eq_tickDec hm rfl, rfl, x_tickEx hW, avail_tickEx hW⟩

/-- FETCH at a `pc` that is the address of no record (R62, R184). -/
theorem fetchStage_of_no_record {s : State} (hrp : s.redirectPending = false) (hhf : s.haltFetched = false)
    (hpc : iFetch s s.pc = none) :
    fetchStage s = .next (stopWith .fetchAddressError (.fetch s.pc) (enterStage .fetch s)) := by
  have hrecord : fetchRecord (enterStage .fetch s) =
      .next (stopWith .fetchAddressError (.fetch s.pc) (enterStage .fetch s)) := by
    have hpc' : iFetch (enterStage .fetch s) (enterStage .fetch s).pc = none := hpc
    rw [fetchRecord, hpc']
    rfl
  simp only [fetchStage, enterStage_redirectPending, enterStage_haltFetched, hrp, hhf, Bool.false_eq_true, if_false,
    hrecord]

/-- The tick that FETCH abandons ends in the state DEC has left, but for the engine's outputs (R187). -/
theorem step_of_no_record {s : State} (hs : s.Ticks) (hl : s.LatchesChecked) (hm : ¬ s.RaisesAddressing)
    (hx : ¬ s.RaisesArithmetic) (hrp : (tickDec s).redirectPending = false) (hhf : (tickDec s).haltFetched = false)
    (hpc : iFetch (tickDec s) (tickDec s).pc = none) :
    step s = .next (enterStage .fetch (stopWith .fetchAddressError (.fetch (tickDec s).pc) (tickDec s))) := by
  rw [step_of_latchesChecked hs hl, if_neg hm, if_neg hx, fetchStage_of_no_record hrp hhf hpc]
  rfl

/-- The record that DEC has moved into `E` when no branch is taken (R96). -/
theorem tickDec_latE_record {s : State} (hb : takesBranch s = false) (hv : s.latD.valid = true) :
    (tickDec s).latE.instr = s.latD.instr ∧ (tickDec s).latE.pc = s.latD.pc := by
  rw [tickDec_latE, if_pos ⟨hb, hv⟩, resolvedLatch, tickEx_latD, hb]
  exact ⟨rfl, rfl⟩

/-- `M` after EX is what `exec` of the record of `E` leaves there, whatever WB and MEM have done before it (R95). -/
theorem tickDec_latM_eq_exec {s : State} (hv : s.latE.valid = true)
    (hwf : s.latE.instr.wellFormed s.nregs = true) (hx : ¬ s.RaisesArithmetic) :
    ∃ u, exec s.latE.instr { s with stage := .ex } = .next u ∧ (tickDec s).latM = u.latM := by
  have hok : ¬ divFails s.latE.instr s.latE = true := fun hfails => hx ⟨hv, (divFails_iff _ _).mp hfails⟩
  refine ⟨_, exec_withStage hwf .ex, ?_⟩
  rw [performed_ex _ rfl, if_neg hok, tickDec_latM, if_pos hv]

/-- The availability bits that WB and DEC leave when no branch is taken (R93, R99). -/
theorem avail_tickDec_of_not_takesBranch {s : State} (hl : s.LatchesChecked) (hb : takesBranch s = false) (r : RegIdx) :
    (tickDec s).avail r = (!s.latD.writes r && (s.avail r || s.latW.writes r)) := by
  obtain ⟨hD, -, -, hW⟩ := (latchesChecked_iff s).mp hl
  rw [avail_tickDec fun _ => hD, avail_tickEx hW, hb]
  cases s.latD.writes r <;> simp

/-- Settles O35: without a taken branch EX leaves the program counter and the control flags alone, so FETCH raises at
`pc` and the state DEC has left stands. -/
theorem fetchAddressErrorStopsTheTick : Obligations.FetchAddressErrorStopsTheTick := by
  intro s hs hl hm hx hb hrp hhf hnone
  obtain ⟨-, hE, -, hW⟩ := (latchesChecked_iff s).mp hl
  obtain ⟨vE, -⟩ := tickDec_latE_valid s
  obtain ⟨vM, -⟩ := tickDec_latM_valid s
  obtain ⟨vW, fromM⟩ := tickDec_latW_valid s
  have hpc : (tickDec s).pc = s.pc := by rw [tickDec_pc, hb]; rfl
  have hredirect : (tickDec s).redirectPending = false := by rw [tickDec_redirectPending, hb, hrp]; rfl
  have hstop : (tickDec s).haltFetched = false := by rw [tickDec_haltFetched, hhf, Bool.and_false]
  have hfetch : iFetch (tickDec s) (tickDec s).pc = none := by rw [hpc]; exact hnone
  have hD : (tickDec s).latE.valid = s.latD.valid := by rw [vE, hb]; rfl
  exact ⟨_, step_of_no_record hs hl hm hx hredirect hstop hfetch, rfl, rfl, congrArg FaultInfo.fetch hpc, hpc, rfl,
    hstop, hredirect, rfl, tickDec_latD_valid s, hD, tickDec_latE_record hb, vM,
    fun hv => tickDec_latM_eq_exec hv (hE hv) hx, vW, fun hv => (fromM (vW.trans hv)).2, tickDec_zero_eq_ite s,
    dmemWord_of_dmem_eq_tickDec hm rfl, tickDec_completed s, fun r => (x_tickDec s r).trans (x_tickEx hW r),
    avail_tickDec_of_not_takesBranch hl hb⟩

/-! ## ConfigurationError (R181) -/

/-- The configuration check stops an engine with an empty store. -/
theorem checkConfiguration_of_empty {c : Config} (h : c.program = []) (s : State) :
    checkConfiguration c s = stopWith .configurationError .none s := by
  simp only [checkConfiguration, h]

/-- The configuration check names the first ill-formed record. -/
theorem checkConfiguration_of_firstIllFormed {c : Config} {k : Nat} (h : firstIllFormed c.nregs c.program = some k)
    (s : State) : checkConfiguration c s = stopWith .configurationError (.record k) s := by
  cases hp : c.program with
  | nil => rw [hp] at h; cases h
  | cons w ws =>
    rw [hp] at h
    simp only [checkConfiguration, hp, h]

/-- The stop protocol writes the engine's outputs, which are no part of the reset values. -/
theorem State.HasResetValues.stopWith {t : State} {p : Pins} (h : t.HasResetValues p) (reason : TermReason)
    (info : FaultInfo) : (stopWith reason info t).HasResetValues p := h

/-- A reset whose configuration check raises `info` stops the engine over the reset values. -/
theorem step_of_configurationError {s : State} {info : FaultInfo} (hr : s.pins.reset = true)
    (hl : s.pins.config.Legal)
    (hcheck : ∀ u, checkConfiguration s.pins.config u = stopWith .configurationError info u) :
    ∃ t, step s = .next t ∧ t.HasResetValues s.pins ∧
      t.engineState = .halted ∧ t.termReason = .configurationError ∧ t.faultInfo = info := by
  refine ⟨_, ?_, (initialState_hasResetValues s.pins).stopWith .configurationError info, rfl, rfl, rfl⟩
  rw [step_of_reset hr, applyReset_of_legal hl, hcheck]

/-- Settles O41: the check stops for an empty store, and else for the first ill-formed record it meets. -/
theorem configurationErrorAtReset : Obligations.ConfigurationErrorAtReset := by
  intro s hr hl
  refine ⟨fun hempty => ?_, fun k w hk hw hbefore => ?_⟩
  · exact step_of_configurationError hr hl (checkConfiguration_of_empty hempty)
  · exact step_of_configurationError hr hl
      (checkConfiguration_of_firstIllFormed (firstIllFormed_eq_some hk hw hbefore))

/-! ## An engine that waits (R191, R195, R42) -/

/-- Settles O37: a HALTED engine stays as it is, and a RUNNING one in SINGLE_STEP without `step` does not iterate. -/
theorem haltedAndWaitingDoNothing : Obligations.HaltedAndWaitingDoNothing := by
  intro s hreset hwait
  cases he : s.engineState with
  | halted => exact step_of_halted hreset he
  | running =>
    obtain hhalted | ⟨hmode, hstep⟩ := hwait
    · rw [he] at hhalted; cases hhalted
    · exact step_of_waits hreset he (by simp only [Pins.iterates, hmode, hstep])

end Sys2Proof.Machine
end

section
/-! PROOF. The pipeline and sequential execution (spec/70_reset_and_hazards.md R204; spec/00_scope.md glossary): what the
instructions in flight still have to do, latch by latch, and that a tick does one stage of it. -/

namespace Sys2Proof.Machine

/-! ## What an instruction in flight still has to do -/

/-- Two results of sequential execution are told apart by a register, a word of memory or the flag. -/
theorem Arch.eq_of_reads {a b : Arch} (hx : ∀ r, a.x r = b.x r) (hmem : ∀ k, a.mem k = b.mem k)
    (hzero : a.zero = b.zero) : a = b := by
  cases a
  cases b
  exact (Arch.mk.injEq ..).mpr ⟨funext hx, funext hmem, hzero⟩

theorem Arch.setReg_x (a : Arch) (rd : RegIdx) (v : Word) (r : RegIdx) :
    (a.setReg rd v).x r = if rd = r then v else a.x r := if_congr eq_comm rfl rfl

/-- In `W` an instruction has its commit to do, and nothing else (R93). -/
theorem finishWriteback_x (l : Latch) (a : Arch) (r : RegIdx) :
    (finishWriteback l a).x r = if l.writes r = true then l.resValue else a.x r := by
  rw [finishWriteback, Latch.writes]
  cases l.valid && l.instr.opcode.resultProducing with
  | false => rfl
  | true => simp [Arch.setReg_x]

@[simp] theorem finishWriteback_mem (l : Latch) (a : Arch) : (finishWriteback l a).mem = a.mem := by
  unfold finishWriteback
  split <;> rfl

@[simp] theorem finishWriteback_zero (l : Latch) (a : Arch) : (finishWriteback l a).zero = a.zero := by
  unfold finishWriteback
  split <;> rfl

/-- In `M` an instruction with a result has its commit to do; the word is the descriptor's, or the one a load reads
(R93, R94). -/
theorem finishMemory_x (l : Latch) (a : Arch) (r : RegIdx) :
    (finishMemory l a).x r =
      if l.writes r = true then (if isLoad l.instr.opcode = true then a.mem l.memAddress.toNat else l.resValue)
      else a.x r := by
  rw [finishMemory, Latch.writes]
  cases l.valid with
  | false => rfl
  | true =>
    by_cases hl : isLoad l.instr.opcode = true
    · simp [hl, resultProducing_of_isLoad hl, Arch.setReg_x]
    · by_cases hs : isStore l.instr.opcode = true
      · obtain ⟨hp, -⟩ := of_isStore hs
        simp [hl, hs, hp, Arch.setMem]
      · cases hp : l.instr.opcode.resultProducing <;> simp [hl, hs, Arch.setReg_x]

/-- In `M` a store has its word to write (R94). -/
theorem finishMemory_mem (l : Latch) (a : Arch) (k : Nat) :
    (finishMemory l a).mem k =
      if (l.valid && isStore l.instr.opcode) = true ∧ k = l.memAddress.toNat then l.rs1Value else a.mem k := by
  rw [finishMemory]
  cases l.valid with
  | false => simp
  | true =>
    by_cases hl : isLoad l.instr.opcode = true
    · simp [hl, isStore_of_isLoad hl, Arch.setReg]
    · by_cases hs : isStore l.instr.opcode = true
      · simp [hl, hs, Arch.setMem]
      · cases hp : l.instr.opcode.resultProducing <;> simp [hl, hs, Arch.setReg]

@[simp] theorem finishMemory_zero (l : Latch) (a : Arch) : (finishMemory l a).zero = a.zero := by
  unfold finishMemory
  split_ifs <;> rfl

/-! ## One stage of each instruction in flight -/

/-- The word MEM leaves in the descriptor: the one a load reads, else the one EX computed (R94). -/
theorem Latch.loaded_resValue (l : Latch) (s : State) :
    (l.loaded s).resValue =
      if isLoad l.instr.opcode = true then s.dmemWord l.memAddress.toNat else l.resValue := by
  unfold Latch.loaded
  split <;> rfl

theorem tickDec_latW_resValue {s : State} (hv : s.latM.valid = true) :
    (tickDec s).latW.resValue =
      if isLoad s.latM.instr.opcode = true then s.dmemWord s.latM.memAddress.toNat else s.latM.resValue := by
  rw [tickDec_latW, if_pos hv, Latch.loaded_resValue]

/-- WB and MEM: once the commit of `W` and the memory access of `M` are done, a commit is left of the instruction that
was in `M`. -/
theorem finish_after_mem {s : State} (hW : s.latW.valid = true → s.latW.instr.wellFormed s.nregs = true) :
    finishMemory s.latM (finishWriteback s.latW s.arch) =
      { finishWriteback (tickDec s).latW (tickDec s).arch with zero := s.zero } := by
  refine Arch.eq_of_reads (fun r => ?_) (fun k => ?_) ?_
  · have hcommit : (finishWriteback s.latW s.arch).x r = (tickDec s).x r := by
      rw [finishWriteback_x, x_tickDec, x_tickEx hW]
      rfl
    rw [finishMemory_x, finishWriteback_mem, hcommit]
    refine Eq.trans ?_ (finishWriteback_x _ _ r).symm
    rw [writes_tickDec_latW]
    split
    case isFalse => rfl
    case isTrue hw =>
      obtain ⟨hv, -⟩ := (Latch.writes_iff _ _).mp hw
      exact (tickDec_latW_resValue hv).symm
  · rw [finishMemory_mem, finishWriteback_mem, finishWriteback_mem]
    change _ = Memory.readWord (tickDec s).dmem k
    rw [tickDec_dmem, apply_ite (Memory.readWord · k), Memory.readWord_writeWord, ite_and]
    rfl
  · rw [finishMemory_zero, finishWriteback_zero]
    rfl

/-- A quotient that R134 gives is the one sequential execution computes. -/
theorem eq_wrap_tdiv_of_quotient {a b q : Word} (h : quotient a b = some q) : q = wrap (a.toInt.tdiv b.toInt) := by
  rw [quotient, sign_mul_sign_mul_natAbs_div] at h
  split_ifs at h
  exact (Option.some_inj.mp h).symm

/-- EX of a DIV that raises no error computes that quotient. -/
theorem exResult_div {f : Fields} {l : Latch} (hok : divFails (.div f) l = false) :
    exResult (.div f) l = wrap (l.rs1Value.toInt.tdiv l.rs2Value.toInt) := by
  cases hq : quotient l.rs1Value l.rs2Value with
  | none => simp [divFails, Instr.opcode, hq] at hok
  | some q => simp [exResult, hq, ← eq_wrap_tdiv_of_quotient hq]

/-- EX of a valid latch that raises no error: the flag is written, and what is left is what `M` has to do. -/
theorem effect_eq_finishMemory {l : Latch} (hv : l.valid = true) (hok : divFails l.instr l = false) (a : Arch) :
    a.effect l.instr l.rs1Value l.rs2Value l.rs3Value =
      finishMemory (executedLatch l.instr l) { a with zero := exZero l.instr l a.zero } := by
  obtain ⟨valid, i, pc, v1, v2, v3, addr, tag, value⟩ := l
  cases hv
  cases i with
  | div f => exact congrArg (a.setReg f.rd) (exResult_div hok).symm
  | _ => rfl

/-- EX: once the instruction in `E` has executed, what `M` has to do is left of it. -/
theorem finish_after_ex {s : State} (hx : ¬ s.RaisesArithmetic) {a : Arch} (ha : a.zero = s.zero) :
    finishExecute s.latE a = finishMemory (tickDec s).latM { a with zero := (tickDec s).zero } := by
  rw [finishExecute, tickDec_zero, ← ha]
  cases hv : s.latE.valid with
  | false =>
    obtain ⟨vM, -⟩ := tickDec_latM_valid s
    rw [finishMemory, vM, hv]
    rfl
  | true =>
    have hok : divFails s.latE.instr s.latE = false :=
      Bool.eq_false_iff.mpr fun hfails => hx ((exFails_iff s).mp ⟨hv, hfails⟩)
    rw [tickDec_latM, hv]
    exact effect_eq_finishMemory hv hok a

/-! ## A tick refines sequential execution (R204) -/

theorem arch_congr {s t : State} (hrf : s.rf = t.rf) (hdmem : s.dmem = t.dmem) (hzero : s.zero = t.zero) :
    s.arch = t.arch :=
  Arch.eq_of_reads (x_congr hrf) (fun k => congrArg (Memory.readWord · k) hdmem) hzero

/-- The simulation: after a tick in which WB, MEM and EX have run, the instructions then in `M` and `W` have left to do
what the instructions in `E`, `M` and `W` had left before it. -/
theorem drain_eq_finish {s t : State} (hs : s.Ticks) (h : step s = .next t) (hm : ¬ s.RaisesAddressing)
    (hx : ¬ s.RaisesArithmetic) : s.drain = finishMemory t.latM (finishWriteback t.latW t.arch) := by
  obtain ⟨hW, -, hrf, hdmem, hzero, -, kM, kW, -⟩ := tick_decodes hs h hm hx
  rw [kM, kW, arch_congr hrf hdmem hzero]
  calc s.drain
      = finishExecute s.latE (finishMemory s.latM (finishWriteback s.latW s.arch)) := rfl
    _ = finishExecute s.latE { finishWriteback (tickDec s).latW (tickDec s).arch with zero := s.zero } := by
        rw [finish_after_mem hW]
    _ = finishMemory (tickDec s).latM
          { finishWriteback (tickDec s).latW (tickDec s).arch with zero := (tickDec s).zero } := finish_after_ex hx rfl
    _ = finishMemory (tickDec s).latM (finishWriteback (tickDec s).latW (tickDec s).arch) := by
        rw [← show (finishWriteback (tickDec s).latW (tickDec s).arch).zero = (tickDec s).zero from
          finishWriteback_zero _ _]

/-- What the instruction DEC has moved into `E` adds to what was in flight before. -/
theorem drain_tick {s t : State} (hs : s.Ticks) (h : step s = .next t) (hm : ¬ s.RaisesAddressing)
    (hx : ¬ s.RaisesArithmetic) : t.drain = finishExecute t.latE s.drain :=
  congrArg (finishExecute t.latE) (drain_eq_finish hs h hm hx).symm

/-- An instruction's effect depends on the sources its format uses, and on no other (R72, R76). -/
theorem effect_eq_exec {i : Instr} {l : Latch} {a : Arch} (h : OperandsAre i l a) :
    a.effect i l.rs1Value l.rs2Value l.rs3Value = a.exec i := by
  obtain ⟨h1, h2, h3⟩ := h
  unfold Arch.exec
  cases i with
  | add f | sub f | mul f | div f | and f | or f | xor f | ldr f | store f | cmp f => rw [h1 rfl, h2 rfl]; rfl
  | addl f | subl f | load f => rw [h1 rfl]; rfl
  | str f => rw [h1 rfl, h2 rfl, h3 rfl]
  | movc f | bz f | bnz f | halt f | nop f => rfl

/-- Settles O59: the tick adds to what is in flight the effect of the instruction DEC moves into `E`, if there is one. -/
theorem tickRefinesSequentialExecution : Obligations.TickRefinesSequentialExecution := by
  intro s t hs h he
  obtain ⟨hm, hx⟩ := not_raises_of_no_error hs h he
  obtain ⟨-, -, -, -, -, kE, -⟩ := tick_decodes hs h hm hx
  obtain ⟨vE, -⟩ := tickDec_latE_valid s
  rw [drain_tick hs h hm hx, finishExecute, kE, vE]
  refine ⟨fun hno => ?_, fun hv hb hops => ?_⟩
  · obtain hd | hb := hno
    · rw [hd, Bool.and_false]; rfl
    · rw [hb]; rfl
  · obtain ⟨hinstr, -⟩ := tickDec_latE_record hb hv
    rw [hb, hv, hinstr]
    exact effect_eq_exec hops

end Sys2Proof.Machine
end

section
/-! PROOF. Result descriptors in flight (spec/10_state.md R34, R35, R37; spec/70_reset_and_hazards.md R213): a descriptor
names the register its latch will commit to, or none, and stale ones cannot match. -/

namespace Sys2Proof.Machine

/-! ## The tags of R37 -/

/-- The tag an instruction has in `W` names the register it will commit to. -/
theorem tagAfterMem_eq_some_iff {l : Latch} (hv : l.valid = true) (r : RegIdx) :
    tagAfterMem l.instr = some r ↔ l.writes r = true := by
  rw [Latch.writes_iff, tagAfterMem]
  cases l.instr.opcode.resultProducing <;> simp [hv]

/-- The tag an instruction has in `M` names the register it will commit to, unless it is a load. -/
theorem tagAfterEx_eq_some_iff {l : Latch} (hv : l.valid = true) (r : RegIdx) :
    tagAfterEx l.instr = some r ↔ l.writes r = true ∧ isLoad l.instr.opcode = false := by
  rw [Latch.writes_iff, tagAfterEx]
  cases l.instr.opcode.resultProducing <;> cases isLoad l.instr.opcode <;> simp [hv]

theorem tags_of_no_result {i : Instr} (h : i.opcode.resultProducing = false) :
    tagAfterEx i = none ∧ tagAfterMem i = none := by
  simp [tagAfterEx, tagAfterMem, h]

/-- MEM leaves in `W` the tag of the instruction it has moved there. -/
theorem tickDec_latW_resTag {s : State} (h : s.TagsConsistent) (hv : s.latM.valid = true) :
    (tickDec s).latW.resTag = tagAfterMem s.latM.instr := by
  obtain ⟨-, -, hW⟩ := tickDec_tags h
  obtain ⟨vW, fromM⟩ := tickDec_latW_valid s
  have hvW := vW.trans hv
  rw [hW hvW, (fromM hvW).1]

/-- EX leaves in `M` the tag of the instruction it has moved there. -/
theorem tickDec_latM_resTag {s : State} (h : s.TagsConsistent) (hv : s.latE.valid = true) :
    (tickDec s).latM.resTag = tagAfterEx s.latE.instr := by
  obtain ⟨-, hM, -⟩ := tickDec_tags h
  obtain ⟨vM, fromE⟩ := tickDec_latM_valid s
  have hvM := vM.trans hv
  rw [hM hvM, (fromE hvM).1]

/-! ## Bubbles (R213) -/

/-- A branch has no result, so a writer in `E` is no branch. -/
theorem takesBranch_of_writes {s : State} {r : RegIdx} (h : s.latE.writes r = true) : takesBranch s = false := by
  obtain ⟨-, hp, -⟩ := (Latch.writes_iff _ _).mp h
  rw [takesBranch_eq, branches_of_result hp, Bool.and_false]

theorem resultFree_of_takesBranch {s : State} (h : takesBranch s = true) : s.latE.resultFree := by
  obtain ⟨-, hop⟩ := takesBranch_isBranch h
  obtain ⟨-, -, hp, -⟩ := branch_record hop s.nregs
  exact fun _ => hp

/-- A latch without a result stays one as its record moves on. -/
theorem Latch.resultFree.moved {l m : Latch} (h : l.resultFree) (hv : m.valid = l.valid)
    (hi : m.valid = true → m.instr = l.instr) : m.resultFree := by
  intro hm
  rw [hi hm]
  exact h (hv.symm.trans hm)

/-- A bubble in `E` after DEC has the descriptor NONE, and a branch, a HALT or a bubble in front of it. -/
theorem tickDec_bubble_latE {s : State} (h : s.DescriptorsFresh) (hr : s.engineState = .running)
    (hv : (tickDec s).latE.valid = false) : (tickDec s).latE.resTag = none ∧ (tickDec s).latM.resultFree := by
  obtain ⟨htags, hfresh⟩ := h
  obtain ⟨-, -, hD, hE, -⟩ := hfresh hr
  obtain ⟨vE, -⟩ := tickDec_latE_valid s
  obtain ⟨vM, fromE⟩ := tickDec_latM_valid s
  obtain ⟨etag, -⟩ := tickEx_latE_descriptor s
  rw [vE, Bool.and_eq_false_iff, Bool.not_eq_false'] at hv
  have hfree : s.latE.resultFree := hv.elim resultFree_of_takesBranch hD
  refine ⟨?_, hfree.moved vM fun hm => (fromE hm).1⟩
  have hnot : ¬ (takesBranch s = false ∧ s.latD.valid = true) := by
    rintro ⟨hb, hd⟩
    simp [hb, hd] at hv
  rw [tickDec_latE, if_neg hnot, etag]
  split
  case isTrue he => rw [tickDec_latM_resTag htags he, (tags_of_no_result (hfree he)).1]
  case isFalse he => exact (hE (Bool.eq_false_iff.mpr he)).1

/-- A bubble in `M` after EX has the descriptor NONE, and what is in front of it has no result. -/
theorem tickDec_bubble_latM {s : State} (h : s.DescriptorsFresh) (hr : s.engineState = .running)
    (hv : s.latE.valid = false) : (tickDec s).latM.resTag = none ∧ (tickDec s).latW.resultFree := by
  obtain ⟨⟨-, -, htagM, -⟩, hfresh⟩ := h
  obtain ⟨-, -, -, hE, hM, -⟩ := hfresh hr
  obtain ⟨-, hfree⟩ := hE hv
  obtain ⟨vW, fromM⟩ := tickDec_latW_valid s
  refine ⟨?_, hfree.moved vW fun hw => (fromM hw).1⟩
  rw [tickDec_latM, hv, if_neg (by decide)]
  cases hvM : s.latM.valid with
  | false => exact (hM hvM).1
  | true =>
    obtain ⟨-, hmem⟩ := tags_of_no_result (hfree hvM)
    exact (Latch.loaded_resTag s (htagM hvM)).trans hmem

/-- A bubble in `W` after MEM has the descriptor NONE. -/
theorem tickDec_bubble_latW {s : State} (h : s.DescriptorsFresh) (hr : s.engineState = .running)
    (hv : s.latM.valid = false) : (tickDec s).latW.resTag = none := by
  obtain ⟨⟨-, -, -, htagW⟩, hfresh⟩ := h
  obtain ⟨-, -, -, -, hM, hW, -⟩ := hfresh hr
  obtain ⟨-, hfree⟩ := hM hv
  rw [tickDec_latW, hv, if_neg (by decide)]
  change s.latW.resTag = none
  cases hvW : s.latW.valid with
  | false => exact hW hvW
  | true => exact (htagW hvW).trans (tags_of_no_result (hfree hvW)).2

/-! ## Every step keeps the descriptors fresh (R213) -/

/-- The property of a stopped engine speaks of the valid latches alone. -/
theorem descriptorsFresh_of_halted {s : State} (h : s.TagsConsistent) (hr : s.engineState = .halted) :
    s.DescriptorsFresh :=
  ⟨h, fun hrun => nomatch hr.symm.trans hrun⟩

/-- FETCH leaves `D` empty behind a branch or a HALT alone. -/
theorem TickEnd.decode_fresh {s u : State} (hu : TickEnd s u) (h : s.DescriptorsFresh) (hr : s.engineState = .running) :
    u.redirectPending = false ∧ (u.haltFetched = true → u.latD.valid = true → u.latD.instr.opcode = .halt) ∧
      (u.latD.valid = false → (tickDec s).latE.resultFree) := by
  obtain ⟨hrp, hstop, -⟩ := h.2 hr
  obtain ⟨vE, fromD⟩ := tickDec_latE_valid s
  obtain ⟨-, -, -, -, -, -, -, -, -, -, -, -, -,
    ⟨hv, hurp, -, -, hwhy⟩ | ⟨w, i, hD, -, -, -, -, -, hf, hurp, -⟩⟩ := hu
  · refine ⟨hurp, fun _ hd => (nomatch hv.symm.trans hd), fun _ he => ?_⟩
    have hmoved := vE.symm.trans he
    rw [Bool.and_eq_true, Bool.not_eq_true'] at hmoved
    obtain ⟨hb, hd⟩ := hmoved
    have hhalted : s.haltFetched = true := by simpa [hb, hrp] using hwhy
    rw [(fromD he).1]
    exact (halt_record (hstop hhalted hd) s.nregs).2
  · rw [hD]
    exact ⟨hurp, fun hh _ => of_decide_eq_true (hf.symm.trans hh), nofun⟩

/-- DEC marks the destination of the instruction it moves into `E`. -/
theorem avail_tickDec_of_writes {s : State}
    (hD : takesBranch s = false → s.latD.valid = true → s.latD.instr.wellFormed s.nregs = true) {r : RegIdx}
    (h : (tickDec s).latE.writes r = true) : (tickDec s).avail r = false := by
  rw [writes_tickDec_latE, Bool.and_eq_true, Bool.not_eq_true'] at h
  rw [avail_tickDec hD, if_pos h]

/-- The end of a tick without an error leaves no stale descriptor that can match. -/
theorem TickEnd.descriptorsFresh {s u : State} (hu : TickEnd s u) (h : s.DescriptorsFresh)
    (hr : s.engineState = .running) (htags : (finishTick u).TagsConsistent)
    (hD : takesBranch s = false → s.latD.valid = true → s.latD.instr.wellFormed s.nregs = true) :
    (finishTick u).DescriptorsFresh := by
  refine ⟨htags, fun _ => ?_⟩
  obtain ⟨vM, -⟩ := tickDec_latM_valid s
  obtain ⟨vW, -⟩ := tickDec_latW_valid s
  obtain ⟨hurp, hustop, huD⟩ := hu.decode_fresh h hr
  obtain ⟨kD, kE, kM, kW⟩ := finishTick_latches hu
  obtain ⟨krf, -, -, -, -, -, -, -, -, -, krp, khf⟩ := finishTick_fields u
  obtain ⟨-, -, -, hrf, -⟩ := hu
  rw [krp, khf, kD, kE, kM, kW]
  refine ⟨hurp, hustop, huD, tickDec_bubble_latE h hr, fun hv => tickDec_bubble_latM h hr (vM.symm.trans hv),
    fun hv => tickDec_bubble_latW h hr (vW.symm.trans hv), fun r hw => ?_⟩
  rw [avail_congr (krf.trans hrf)]
  exact avail_tickDec_of_writes hD hw

theorem tick_keeps_descriptorsFresh {s t : State} (hs : s.Ticks) (h : s.DescriptorsFresh) (ht : step s = .next t) :
    t.DescriptorsFresh := by
  have htags := tick_keeps_tagsConsistent hs h.1 ht
  obtain ⟨-, -, ⟨-, rfl⟩ | ⟨-, -, ⟨-, rfl⟩ | ⟨-, hD, ⟨u, rfl, hu⟩ | ⟨rfl, -⟩⟩⟩⟩ := tick_result hs ht
  · exact descriptorsFresh_of_halted htags rfl
  · exact descriptorsFresh_of_halted htags rfl
  · exact hu.descriptorsFresh h hs.2.1 htags hD
  · exact descriptorsFresh_of_halted htags rfl

theorem applyReset_descriptorsFresh {s t : State} (h : applyReset s = .next t) : t.DescriptorsFresh := by
  refine ⟨applyReset_tagsConsistent h, fun _ => ?_⟩
  obtain ⟨-, -, hD, hE, hM, hW, -, -, hrp, -⟩ := applyReset_fields h
  rw [hrp, hD, hE, hM, hW]
  exact ⟨rfl, nofun, nofun, fun _ => ⟨rfl, nofun⟩, fun _ => ⟨rfl, nofun⟩, fun _ => rfl, nofun⟩

/-- Settles O56: a bubble starts behind a branch or a HALT, whose descriptor is NONE, and each stage hands the bubble on
with the descriptor of what stood before it. -/
theorem stepKeepsDescriptorsFresh : Obligations.StepKeepsDescriptorsFresh :=
  step_keeps_of (P := fun s => s.DescriptorsFresh) (fun _ _ => applyReset_descriptorsFresh)
    (fun _ _ _ h => descriptorsFresh_of_halted h.1 rfl) fun _ _ => tick_keeps_descriptorsFresh

end Sys2Proof.Machine
end

section
/-! PROOF. Operands and hazards (spec/70_reset_and_hazards.md R205 to R208): what the resolver gives the instruction in
`D`, told from the writers in `E`, `M` and `W`, and when that is the sequential value. -/

namespace Sys2Proof.Machine

/-! ## What DEC resolves (R96 to R98) -/

/-- Each source DEC uses is resolved, in the class of the opcode, in the state WB, MEM and EX have left. -/
theorem decoded_sources {s t : State} {cls : OperandClass} (hs : s.Ticks) (h : step s = .next t)
    (hm : ¬ s.RaisesAddressing) (hx : ¬ s.RaisesArithmetic) (hv : s.latD.valid = true) (hb : takesBranch s = false)
    (hcls : classOf s.latD.instr.opcode = some cls) :
    let i := s.latD.instr
    (i.opcode.format.usesRs1 = true → t.latE.rs1Value = resolve cls i.fields.rs1 (tickEx s)) ∧
    (i.opcode.format.usesRs2 = true → t.latE.rs2Value = resolve cls i.fields.rs2 (tickEx s)) ∧
    (i.opcode.format.usesRs3 = true → t.latE.rs3Value = resolve cls i.fields.rs3 (tickEx s)) := by
  obtain ⟨-, -, -, -, -, kE, -⟩ := tick_decodes hs h hm hx
  rw [kE, tickDec_latE, if_pos ⟨hb, hv⟩, resolvedLatch, classOr_of_classOf hcls]
  exact ⟨fun h1 => if_pos h1, fun h2 => if_pos h2, fun h3 => if_pos h3⟩

/-- An opcode that uses a source has a resolver class (R72). -/
theorem classOf_of_usesRs1 {o : Opcode} (h : o.format.usesRs1 = true) : ∃ cls, classOf o = some cls := by
  unfold classOf
  cases hf : o.format with
  | r3 | ri | li | lr | si | sr | cr => exact ⟨_, rfl⟩
  | di | bi | z => rw [hf] at h; cases h

/-- Every opcode with a source uses `rs1` (R72). -/
theorem usesRs1_of_uses {f : Format} (h : f.usesRs2 = true ∨ f.usesRs3 = true) : f.usesRs1 = true := by
  cases f with
  | r3 | ri | li | lr | si | sr | cr => rfl
  | di | bi | z => rcases h with h | h <;> cases h

/-- A register that the resolver gives one value in every class the opcode may have is read as that value. -/
theorem readsAs_of_resolve {s t : State} {r : RegIdx} {v : Word} (hs : s.Ticks) (h : step s = .next t)
    (hm : ¬ s.RaisesAddressing) (hx : ¬ s.RaisesArithmetic) (hv : s.latD.valid = true) (hb : takesBranch s = false)
    (hr : ∀ cls, classOf s.latD.instr.opcode = some cls → resolve cls r (tickEx s) = v) :
    ReadsAs s.latD.instr t.latE r v := by
  have source := fun cls => decoded_sources (cls := cls) hs h hm hx hv hb
  refine ⟨fun hu hreg => ?_, fun hu hreg => ?_, fun hu hreg => ?_⟩
  · obtain ⟨cls, hcls⟩ := classOf_of_usesRs1 hu
    rw [(source cls hcls).1 hu, hreg, hr cls hcls]
  · obtain ⟨cls, hcls⟩ := classOf_of_usesRs1 (usesRs1_of_uses (.inl hu))
    rw [(source cls hcls).2.1 hu, hreg, hr cls hcls]
  · obtain ⟨cls, hcls⟩ := classOf_of_usesRs1 (usesRs1_of_uses (.inr hu))
    rw [(source cls hcls).2.2 hu, hreg, hr cls hcls]

/-- A register that is available, or that WB makes available, is read from the Register File. -/
theorem resolve_of_available {s : State} (hW : s.latW.valid = true → s.latW.instr.wellFormed s.nregs = true)
    {r : RegIdx} (h : (s.avail r || s.latW.writes r) = true) (cls : OperandClass) :
    resolve cls r (tickEx s) = (tickDec s).x r := by
  rw [resolve_eq, avail_tickEx hW, if_pos h, x_tickDec]

/-- The word a pending register keeps: WB writes another one, or none. -/
theorem x_tickDec_of_not_writes {s : State} (hW : s.latW.valid = true → s.latW.instr.wellFormed s.nregs = true)
    {r : RegIdx} (h : s.latW.writes r = false) : (tickDec s).x r = s.x r := by
  rw [x_tickDec, x_tickEx hW, if_neg (by simp [h])]

/-- A register that stays pending is read from the class's first descriptor, if that matches (R98). -/
theorem resolve_of_first {s : State} {cls : OperandClass} {r : RegIdx}
    (hW : s.latW.valid = true → s.latW.instr.wellFormed s.nregs = true) (ha : s.avail r = false)
    (hw : s.latW.writes r = false) (hfirst : (consultedFirst cls (tickDec s)).resTag = some r) :
    resolve cls r (tickEx s) = (consultedFirst cls (tickDec s)).resValue := by
  have hsame : consultedFirst cls (tickEx s) = consultedFirst cls (tickDec s) := by cases cls <;> rfl
  rw [resolve_eq, avail_tickEx hW, hsame, if_neg (by simp [ha, hw]), if_pos hfirst]

/-- With a valid `E` the second descriptor is the one EX leaves in `M`, and then there is the Register File (R98). -/
theorem resolve_of_not_first {s : State} {cls : OperandClass} {r : RegIdx}
    (hW : s.latW.valid = true → s.latW.instr.wellFormed s.nregs = true) (ha : s.avail r = false)
    (hw : s.latW.writes r = false) (hE : s.latE.valid = true)
    (hfirst : (consultedFirst cls (tickDec s)).resTag ≠ some r) :
    resolve cls r (tickEx s) =
      if (tickDec s).latM.resTag = some r then (tickDec s).latM.resValue else s.x r := by
  have hsame : consultedFirst cls (tickEx s) = consultedFirst cls (tickDec s) := by cases cls <;> rfl
  obtain ⟨htag, hvalue⟩ := tickEx_latE_descriptor s
  rw [resolve_eq, avail_tickEx hW, hsame, if_neg (by simp [ha, hw]), if_neg hfirst, htag, hvalue, if_pos hE, if_pos hE,
    ← x_tickDec, x_tickDec_of_not_writes hW hw]

/-! ## Which descriptors match -/

/-- With no stale descriptor, the one in `W` matches exactly the destination of the instruction that was in `M`. -/
theorem tickDec_latW_resTag_iff {s : State} (h : s.TagsConsistent) (hr : s.engineState = .running)
    (hfresh : s.latM.valid = false → s.DescriptorsFresh) (r : RegIdx) :
    (tickDec s).latW.resTag = some r ↔ s.latM.writes r = true := by
  cases hv : s.latM.valid with
  | false => rw [tickDec_bubble_latW (hfresh hv) hr hv, Latch.writes_of_invalid hv]; simp
  | true => rw [tickDec_latW_resTag h hv, tagAfterMem_eq_some_iff hv]

/-- With a valid `E`, the descriptor in `M` matches exactly the destination of the instruction that was in `E`, unless
that is a load. -/
theorem tickDec_latM_resTag_iff {s : State} (h : s.TagsConsistent) (hv : s.latE.valid = true) (r : RegIdx) :
    (tickDec s).latM.resTag = some r ↔ s.latE.writes r = true ∧ isLoad s.latE.instr.opcode = false := by
  rw [tickDec_latM_resTag h hv, tagAfterEx_eq_some_iff hv]

/-! ## Hazards (R206 to R208) -/

/-- Settles O29: the descriptor of `W`, which class ARITH consults first, is the older producer's. -/
theorem oldestProducerWinsInArith : Obligations.OldestProducerWinsInArith := by
  intro s t r hs htags h hm hx hv harith hM hE hw ha
  obtain ⟨hW, -⟩ := tick_decodes hs h hm hx
  obtain ⟨hvM, -⟩ := (Latch.writes_iff _ _).mp hM
  have hfirst : (tickDec s).latW.resTag = some r := by
    rw [tickDec_latW_resTag htags hvM, tagAfterMem_eq_some_iff hvM, hM]
  refine readsAs_of_resolve hs h hm hx hv (takesBranch_of_writes hE) fun cls hcls => ?_
  obtain rfl : .arith = cls := Option.some_inj.mp (harith.symm.trans hcls)
  exact (resolve_of_first (cls := .arith) hW ha hw hfirst).trans (tickDec_latW_resValue hvM)

/-- Settles O30: a load has no descriptor when it has passed EX, and the one in `W` is of another register. -/
theorem loadUseReadsStale : Obligations.LoadUseReadsStale := by
  intro s t r hs htags hfresh h hm hx hv hE hload hM hw ha
  obtain ⟨hW, -⟩ := tick_decodes hs h hm hx
  obtain ⟨hvE, -⟩ := (Latch.writes_iff _ _).mp hE
  have hnoM : (tickDec s).latM.resTag ≠ some r := by simp [tickDec_latM_resTag_iff htags hvE, hload]
  have hnoW : (tickDec s).latW.resTag ≠ some r := by simp [tickDec_latW_resTag_iff htags hs.2.1 hfresh, hM]
  refine readsAs_of_resolve hs h hm hx hv (takesBranch_of_writes hE) fun cls _ => ?_
  have hfirst : (consultedFirst cls (tickDec s)).resTag ≠ some r := by
    cases cls with
    | arith => exact hnoW
    | memclass => exact hnoM
  rw [resolve_of_not_first hW ha hw hvE hfirst, if_neg hnoM]

/-- Settles O31: class MEMCLASS does not consult `W`, where the producer is, and the descriptor EX leaves in `M` is of
another register. -/
theorem memclassGapReadsStale : Obligations.MemclassGapReadsStale := by
  intro s t r hs htags h hm hx hv hmemclass hb _ hvE hE hw ha
  obtain ⟨hW, -⟩ := tick_decodes hs h hm hx
  have hnoM : (tickDec s).latM.resTag ≠ some r := by simp [tickDec_latM_resTag_iff htags hvE, hE]
  refine readsAs_of_resolve hs h hm hx hv hb fun cls hcls => ?_
  obtain rfl : .memclass = cls := Option.some_inj.mp (hmemclass.symm.trans hcls)
  rw [resolve_of_not_first (cls := .memclass) hW ha hw hvE hnoM, if_neg hnoM]

/-! ## Safe reads (R205) -/

/-- The sequential value of a register whose youngest writer is no load in `E`: a descriptor after MEM and EX, or the
Register File after WB. -/
theorem drain_x {s t : State} (hs : s.Ticks) (h : step s = .next t) (hm : ¬ s.RaisesAddressing)
    (hx : ¬ s.RaisesArithmetic) {r : RegIdx}
    (hload : s.latE.writes r = true → isLoad s.latE.instr.opcode = false) :
    s.drain.x r =
      if s.latE.writes r = true then (tickDec s).latM.resValue
      else if s.latM.writes r = true then (tickDec s).latW.resValue
      else (tickDec s).x r := by
  obtain ⟨-, -, hrf, -, -, -, kM, kW, -⟩ := tick_decodes hs h hm hx
  obtain ⟨vM, fromE⟩ := tickDec_latM_valid s
  rw [drain_eq_finish hs h hm hx, finishMemory_x, finishWriteback_x, kM, kW, writes_tickDec_latM, writes_tickDec_latW,
    ← x_congr hrf]
  refine if_ctx_congr Iff.rfl (fun hE => ?_) fun _ => rfl
  obtain ⟨hvE, -⟩ := (Latch.writes_iff _ _).mp hE
  rw [(fromE (vM.trans hvE)).1, hload hE, if_neg (by decide)]

/-- The hazard condition, source by source: the three rows of R205 (R205, R209). -/
theorem resolve_of_readIsSafe {s t : State} {cls : OperandClass} {r : RegIdx} (hs : s.Ticks) (hfresh : s.DescriptorsFresh)
    (hpending : s.PendingHasWriter) (h : step s = .next t) (hm : ¬ s.RaisesAddressing) (hx : ¬ s.RaisesArithmetic)
    (hsafe : ReadIsSafe cls r s) : resolve cls r (tickEx s) = s.drain.x r := by
  obtain ⟨hW, -⟩ := tick_decodes hs h hm hx
  have htags := hfresh.1
  have hWtag := tickDec_latW_resTag_iff htags hs.2.1 (fun _ => hfresh) r
  obtain ⟨hE, hM⟩ | ⟨hE, hM, rfl, hw, ha⟩ | ⟨hE, hload, hw, hM⟩ := hsafe
  case inl =>
    have havail : (s.avail r || s.latW.writes r) = true := by
      by_contra hno
      rw [← avail_tickEx hW, Bool.not_eq_true] at hno
      simpa [hE, hM] using writes_of_pending_after_wb hpending hW hno
    rw [drain_x hs h hm hx (by simp [hE]), hE, hM]
    exact resolve_of_available hW havail cls
  case inr.inl =>
    rw [drain_x hs h hm hx (by simp [hE]), hE, hM]
    exact resolve_of_first hW ha hw (hWtag.mpr hM)
  case inr.inr =>
    obtain ⟨hvE, -⟩ := (Latch.writes_iff _ _).mp hE
    have hMtag := (tickDec_latM_resTag_iff htags hvE r).mpr ⟨hE, hload⟩
    obtain ⟨-, -, -, -, -, -, hdecoded⟩ := hfresh.2 hs.2.1
    have ha : s.avail r = false := hdecoded r hE
    rw [drain_x hs h hm hx fun _ => hload, if_pos hE]
    cases cls with
    | memclass => exact resolve_of_first hW ha hw hMtag
    | arith =>
      have hno : (tickDec s).latW.resTag ≠ some r := by simp [hWtag, hM rfl]
      rw [resolve_of_not_first (cls := .arith) hW ha hw hvE hno, if_pos hMtag]

/-- Settles O60: DEC gives each source the resolver's word, which is the sequential one for a safe read. -/
theorem safeReadsAreSequential : Obligations.SafeReadsAreSequential := by
  intro s t cls hs hfresh hpending h hm hx hv hb hcls i
  obtain ⟨h1, h2, h3⟩ := decoded_sources hs h hm hx hv hb hcls
  have hsafe := fun r => resolve_of_readIsSafe (cls := cls) (r := r) hs hfresh hpending h hm hx
  exact ⟨fun hu hr => (h1 hu).trans (hsafe _ hr), fun hu hr => (h2 hu).trans (hsafe _ hr),
    fun hu hr => (h3 hu).trans (hsafe _ hr)⟩

end Sys2Proof.Machine
end

section
/-! PROOF. What a reset samples (spec/70_reset_and_hazards.md R200; log 3), and the model's loader (log 2). -/

namespace Sys2Proof.Machine

/-! ## Only a reset samples the configuration (R200) -/

/-- The same pins, and the same sampled store, budget and parameters. -/
def SameConfiguration (s t : State) : Prop :=
  t.pins = s.pins ∧ t.istore = s.istore ∧ t.maxCycles = s.maxCycles ∧ t.dmemWords = s.dmemWords ∧
    t.codeBase = s.codeBase ∧ t.instrWidth = s.instrWidth

theorem SameConfiguration.refl (s : State) : SameConfiguration s s := ⟨rfl, rfl, rfl, rfl, rfl, rfl⟩

/-- The end of a tick writes only the clock and the engine's outputs. -/
theorem finishTick_sameConfiguration (u : State) : SameConfiguration u (finishTick u) := by
  unfold finishTick
  split <;> exact .refl u

/-- No stage function writes the configuration. -/
theorem tick_sameConfiguration {s t : State} (hr : s.engineState = .running) (h : tick s = .next t) :
    SameConfiguration s t := by
  obtain ⟨-, -, ⟨-, rfl⟩ | ⟨-, -, ⟨-, rfl⟩ |
    ⟨-, -, ⟨-, rfl⟩ | ⟨-, -, rfl⟩ | ⟨-, -, -, rfl⟩ | ⟨-, -, w, i, -, -, -, rfl⟩⟩⟩⟩ := tick_cases hr h
  · exact .refl s
  · exact .refl s
  · exact finishTick_sameConfiguration { tickDec s with redirectPending := false }
  · exact finishTick_sameConfiguration (tickDec s)
  · exact .refl s
  · exact finishTick_sameConfiguration (afterFetch i (tickDec s))

/-- A reset gives the initial state the pins it found. -/
theorem applyReset_pins {s t : State} (h : applyReset s = .next t) : t.pins = s.pins := by
  obtain ⟨rfl, -⟩ := applyReset_next h
  obtain e | ⟨info, e⟩ := checkConfiguration_cases s.pins.config (initialState s.pins.config s.pins)
  · rw [e]; rfl
  · rw [e]; rfl

/-- A step that is no reset keeps the configuration and the number of registers. -/
theorem step_keeps_configuration {s t : State} (hr : s.pins.reset = false) (h : step s = .next t) :
    SameConfiguration s t ∧ t.nregs = s.nregs := by
  obtain ⟨hr', -⟩ | ⟨-, -, e⟩ | ⟨-, -, -, -, e⟩ | ⟨-, -, -, -, -, e⟩ | ⟨hs, e⟩ := step_cases s
  · exact nomatch hr.symm.trans hr'
  · cases h.symm.trans e; exact ⟨.refl s, rfl⟩
  · cases h.symm.trans e; exact ⟨.refl s, rfl⟩
  · cases h.symm.trans e; exact ⟨.refl s, rfl⟩
  · exact ⟨tick_sameConfiguration hs.2.1 (e.symm.trans h), tick_nregs hs h⟩

/-- Settles O43: a reset samples the pins without writing them, and every other step keeps both. -/
theorem onlyResetChangesTheConfiguration : Obligations.OnlyResetChangesTheConfiguration := by
  intro s t h
  cases hr : s.pins.reset with
  | true => exact ⟨applyReset_pins ((step_of_reset hr).symm.trans h), nofun⟩
  | false =>
    obtain ⟨⟨hpins, hstore, hbudget, hwords, hbase, hwidth⟩, hnregs⟩ := step_keeps_configuration hr h
    exact ⟨hpins, fun _ => ⟨hstore, hbudget, hwords, hbase, hwidth, hnregs⟩⟩

/-! ## The loader (log 2) -/

/-- The reset state made ready to run, with the record `w` alone in its store. -/
def placedAtReset (w : PackedWord) : State := { readyToFetch State.reset with istore := [w] }

/-- The entry point is the address of record 0, so the loader needs no padding, and the empty pipeline lets the next
tick fetch. -/
theorem withFetchWord_reset (w : PackedWord) : State.reset.withFetchWord 64 w.toNat = placedAtReset w := by
  have hw : BitVec.ofNat 64 (w.toNat % 2 ^ 64) = w := by
    rw [Nat.mod_eq_of_lt w.isLt, BitVec.ofNat_toNat, BitVec.setWidth_eq]
  have hstore : storeAtPc w (readyToFetch State.reset) = placedAtReset w := rfl
  have hfetches : fetchesThisTick (placedAtReset w) = true := rfl
  rw [State.withFetchWord, placeFetchWord, hw, hstore, hfetches]
  rfl

/-- FETCH finds the record at the entry point (R61). -/
theorem iFetch_placedAtReset (w : PackedWord) (st : Stage) :
    iFetch { placedAtReset w with stage := st } 4000 = some w := by
  have hwidth : 1 ≤ ({ placedAtReset w with stage := st } : State).instrWidth := Nat.succ_pos 3
  exact (instructionFetch _ 4000 w hwidth).mpr ⟨0, rfl, rfl⟩

/-- A stage function with an invalid latch has run when it has been entered. -/
theorem stageRuns_of_invalid {st : Stage} {s : State} (h : (s.latchOf st).valid = false) :
    StageRuns st s { s with stage := st } := by
  rw [StageRuns, h, if_neg (by decide)]

/-- Settles O26: with an empty pipeline the step is FETCH of the placed word, then the end of the tick. -/
theorem placedWordIsFetchedNext : Obligations.PlacedWordIsFetchedNext := by
  intro w i hd hwf
  obtain ⟨t, hexec, hstep⟩ := stepRunsTheDecodedInstruction (placedAtReset w) { placedAtReset w with stage := .wb }
    { placedAtReset w with stage := .mem } { placedAtReset w with stage := .ex } { placedAtReset w with stage := .dec } w i
    ⟨rfl, rfl, rfl, rfl, Nat.one_pos⟩ (stageRuns_of_invalid rfl) (stageRuns_of_invalid rfl) (stageRuns_of_invalid rfl)
    (stageRuns_of_invalid rfl) rfl rfl (iFetch_placedAtReset w .dec) hd hwf
  cases (fetchOfEveryInstruction i { placedAtReset w with stage := .fetch } hwf rfl).symm.trans hexec
  rw [withFetchWord_reset]
  exact ⟨_, hstep, rfl, rfl, rfl, rfl⟩

end Sys2Proof.Machine
end
